-- ==== Sys2Proof/Word.lean ====
section
/-! DEFINITION. The word types of the engine and of its port (R10, R21, R61 of spec/). -/

namespace Sys2Proof

/-- A command word, `STATUS`, `CTRL` or `CMD`: 32 bits, bit 0 least significant (R10). -/
abbrev Word := BitVec 32

/-- One byte of a message (R70). -/
abbrev Byte := BitVec 8

/-- The number of a big-integer register `B0` to `B7` (R21, R93). -/
abbrev BReg := Fin 8

/-- A port register number, `0x00` to `0xFF` (R61). -/
abbrev RegNum := BitVec 8

end Sys2Proof
end

