-- ==== Sys2Proof/Machine/Arith.lean ====
section
/-! DEFINITION. Bit operations on non-negative integers (R11). Shift, mask and bit test are `Nat`'s own. -/

namespace Sys2Proof.Machine

/-- `bitlen(v)`: 0 for 0, else `⌊log2 v⌋ + 1` (R11). -/
def bitlen (v : Nat) : Nat := if v = 0 then 0 else Nat.log2 v + 1

/-- Trailing zero bits of `v`, counted over at most `fuel` bits. -/
def ctzLoop : (fuel v : Nat) → Nat
  | 0, _ => 0
  | fuel + 1, v => if v % 2 = 1 then 0 else ctzLoop fuel (v / 2) + 1

/-- `ctz(v)` for `v > 0`: the largest `s` with `2^s` dividing `v` (R11). -/
def ctz (v : Nat) : Nat := ctzLoop (bitlen v) v

end Sys2Proof.Machine
end

