-- ==== Sys2Proof/Config.lean ====
section
/-! DEFINITION. The constants the spec fixes (R7) and the free values that stand for what it leaves open (R8). -/

namespace Sys2Proof.Config

/-- The sliding-window width `w` (R7, R183). -/
def windowWidth : Nat := 4

/-- The primes accepted at once, `ACCEPT3` (R161). -/
def acceptedPrimes : List Nat := [2, 3, 5]

/-- The small-prime table `SMALL`, 22 entries (R161). -/
def smallPrimes : List Nat :=
  [7, 11, 13, 17, 19, 23, 29, 31, 37, 41, 43] ++ [47, 53, 59, 61, 67, 71, 73, 79, 83, 89, 97]

/-- The Miller-Rabin witnesses, in the order they are tried (R161). -/
def witnesses : List Nat := [2, 3, 5, 7, 11]

/-- The PSA group size at reset and the value a written 0 becomes (R7, R28). -/
def defaultGroupSize : BitVec 8 := 8

/-- The public exponent `keygen` starts from (R7, R265). -/
def publicExponent : Nat := 65537

/-- What `keygen` adds to the public exponent at each failure (R7, R265). -/
def exponentStep : Nat := 2

/-- FREE VALUE: the seeded permutation `Perm(seed, h)` of R8 and R213, some permutation of
`{0, …, h-1}` for every seed and length, and nothing else is known of it (log entry 5). -/
opaque perm : (seed : BitVec 64) → (h : Nat) → Equiv.Perm (Fin h)

/-- FREE VALUE: the answer of the random source to its call number `k` for `N` bits (R8, R262),
of which the host keeps the low `N` bits (log entry 6). -/
opaque randBits : (k : Nat) → (N : Nat) → Nat

/-- The host library's bit operations: the shifts of R11, the OR of R263, the slice of R10 from bit `hi` down. -/
inductive BitOp where
  | shl | shr | bor
  | slice (hi : Nat)
  deriving DecidableEq, Repr

/-- FREE VALUE: what a bit operation of the host's library gives where R10 and R11 define none: a negative operand, or a slice
whose `hi` is below its `lo`. One value for each operation and operands, and nothing else is known of it (log entry 24). -/
opaque openBits : (op : BitOp) → (a b : Int) → Int

end Sys2Proof.Config
end

