-- ==== Sys2Proof/Syntax.lean ====
section
/-! DEFINITION. The fourteen commands of the engine, one constructor per row of the opcode map (R95), operands in field
order `F1, F2, …` (R99). -/

namespace Sys2Proof

/-- A command. The operands' names are the spec's; `rd`, `rg`, `rx`, `ry` are destinations, the rest sources (R92). -/
inductive Instr where
  /-- `NOP` (R242). -/
  | nop
  /-- `REDUCE rd, ra, rn` (R124). -/
  | reduce (rd ra rn : BReg)
  /-- `QUOT rd, ra, rn` (R125). -/
  | quot (rd ra rn : BReg)
  /-- `XGCD rg, rx, ry, ra, rb` (R141). -/
  | xgcd (rg rx ry ra rb : BReg)
  /-- `INVMOD rd, ra, rn` (R144). -/
  | invmod (rd ra rn : BReg)
  /-- `ISPRIME rn` (R166). -/
  | isprime (rn : BReg)
  /-- `MEXPB rd, rb, re, rn` (R182). -/
  | mexpb (rd rb re rn : BReg)
  /-- `MEXPW rd, rb, re, rn` (R185). -/
  | mexpw (rd rb re rn : BReg)
  /-- `MEXPM rd, rb, re, rn` (R215). -/
  | mexpm (rd rb re rn : BReg)
  /-- `MCTX rn` (R203). -/
  | mctx (rn : BReg)
  /-- `MMUL rd, ra, rb` (R206). -/
  | mmul (rd ra rb : BReg)
  /-- `MTO rd, ra` (R208). -/
  | mto (rd ra : BReg)
  /-- `MFROM rd, ra` (R209). -/
  | mfrom (rd ra : BReg)
  /-- `CRTREC rd, rm1, rm2, rp, rq, ri` (R232). -/
  | crtrec (rd rm1 rm2 rp rq ri : BReg)
  deriving DecidableEq, Repr

end Sys2Proof
end

