-- ==== Sys2Proof/WellFormed.lean ====
section
/-! DEFINITION. Which commands are legal as syntax. A register field can hold nothing illegal (R93), so the one check is that
`XGCD` names three different destinations (R94, R97 case (c)). -/

namespace Sys2Proof

/-- The destination fields of the command are pairwise different (R94). -/
def Instr.wellFormed : Instr → Bool
  | .xgcd rg rx ry _ _ => rg != rx && rg != ry && rx != ry
  | .nop | .reduce .. | .quot .. | .invmod .. | .isprime .. | .mexpb .. | .mexpw .. | .mexpm ..
  | .mctx .. | .mmul .. | .mto .. | .mfrom .. | .crtrec .. => true

/-- `Instr.wellFormed` as a proposition. -/
abbrev Instr.WF (i : Instr) : Prop := i.wellFormed = true

end Sys2Proof
end

