-- ==== Sys2Proof/Decode.lean ====
section
/-! DEFINITION. Command words: the field layout (R91), the formats and their masks (R92), the opcode map (R95), the decoder
with its three ways to call a word illegal in their order (R97), the encoder (R95) and the assembler's spelling (R99). -/

namespace Sys2Proof

/-- The eight fields of a command word (R91). -/
structure CmdFields where
  opc : BitVec 8
  f1 : BitVec 3
  f2 : BitVec 3
  f3 : BitVec 3
  f4 : BitVec 3
  f5 : BitVec 3
  f6 : BitVec 3
  rsv : BitVec 6
  deriving DecidableEq, Repr

/-- The fields at their places: `OPC` 31:24, `F1` 23:21, `F2` 20:18, `F3` 17:15, `F4` 14:12, `F5` 11:9, `F6` 8:6,
`RSV` 5:0 (R91). -/
def fieldsOf (w : Word) : CmdFields where
  opc := w.extractLsb' 24 8
  f1 := w.extractLsb' 21 3
  f2 := w.extractLsb' 18 3
  f3 := w.extractLsb' 15 3
  f4 := w.extractLsb' 12 3
  f5 := w.extractLsb' 9 3
  f6 := w.extractLsb' 6 3
  rsv := w.extractLsb' 0 6

/-- The word whose fields are `f`, most significant field first (R91, R95). -/
def packWord (f : CmdFields) : Word :=
  f.opc ++ f.f1 ++ f.f2 ++ f.f3 ++ f.f4 ++ f.f5 ++ f.f6 ++ f.rsv

/-- The seven formats (R92). -/
inductive Format where
  | z | s | ds | dss | dsss | dddss | dsssss
  deriving DecidableEq, Repr

/-- The bits of a word that a format fixes: the opcode and every bit it leaves unused (R92). -/
def Format.mask : Format → Word
  | .z => 0xFFFFFFFF
  | .s => 0xFF1FFFFF
  | .ds => 0xFF03FFFF
  | .dss => 0xFF007FFF
  | .dsss => 0xFF000FFF
  | .dddss => 0xFF0001FF
  | .dsssss => 0xFF00003F

/-- The rows of the opcode map, by mnemonic (R95). -/
inductive Opcode where
  | nop | reduce | quot | xgcd | invmod | isprime | mexpb | mexpw | mexpm | mctx | mmul | mto | mfrom | crtrec
  deriving DecidableEq, Repr

/-- The `OPC` column of the opcode map (R95). -/
def Opcode.code : Opcode → BitVec 8
  | .nop => 0x00
  | .reduce => 0x10
  | .quot => 0x11
  | .xgcd => 0x20
  | .invmod => 0x21
  | .isprime => 0x30
  | .mexpb => 0x40
  | .mexpw => 0x41
  | .mexpm => 0x42
  | .mctx => 0x50
  | .mmul => 0x51
  | .mto => 0x52
  | .mfrom => 0x53
  | .crtrec => 0x60

/-- The format column of the opcode map (R95). -/
def Opcode.format : Opcode → Format
  | .nop => .z
  | .isprime | .mctx => .s
  | .mto | .mfrom => .ds
  | .reduce | .quot | .invmod | .mmul => .dss
  | .mexpb | .mexpw | .mexpm => .dsss
  | .xgcd => .dddss
  | .crtrec => .dsssss

/-- The `match` column of the opcode map: the opcode in bits 31:24, every other bit 0 (R95). -/
def Opcode.matchWord (o : Opcode) : Word :=
  packWord { opc := o.code, f1 := 0, f2 := 0, f3 := 0, f4 := 0, f5 := 0, f6 := 0, rsv := 0 }

/-- The fourteen rows of the opcode map, in its order (R95). -/
def Opcode.all : List Opcode :=
  [.nop, .reduce, .quot, .xgcd, .invmod, .isprime, .mexpb] ++ [.mexpw, .mexpm, .mctx, .mmul, .mto, .mfrom, .crtrec]

/-- The row whose `OPC` is `c`; none for the reserved values (R95, R97 case (a)). -/
def Opcode.ofCode (c : BitVec 8) : Option Opcode :=
  Opcode.all.find? (fun o => o.code == c)

/-- The register a field names: the value `i` names `Bi` (R93). -/
def breg (f : BitVec 3) : BReg := f.toFin

/-- The value of a field that names a register (R93). -/
def field (r : BReg) : BitVec 3 := BitVec.ofFin r

/-- The command a row and a word's fields stand for: operands in field order (R95). -/
def Opcode.build (o : Opcode) (f : CmdFields) : Instr :=
  match o with
  | .nop => .nop
  | .reduce => .reduce (breg f.f1) (breg f.f2) (breg f.f3)
  | .quot => .quot (breg f.f1) (breg f.f2) (breg f.f3)
  | .xgcd => .xgcd (breg f.f1) (breg f.f2) (breg f.f3) (breg f.f4) (breg f.f5)
  | .invmod => .invmod (breg f.f1) (breg f.f2) (breg f.f3)
  | .isprime => .isprime (breg f.f1)
  | .mexpb => .mexpb (breg f.f1) (breg f.f2) (breg f.f3) (breg f.f4)
  | .mexpw => .mexpw (breg f.f1) (breg f.f2) (breg f.f3) (breg f.f4)
  | .mexpm => .mexpm (breg f.f1) (breg f.f2) (breg f.f3) (breg f.f4)
  | .mctx => .mctx (breg f.f1)
  | .mmul => .mmul (breg f.f1) (breg f.f2) (breg f.f3)
  | .mto => .mto (breg f.f1) (breg f.f2)
  | .mfrom => .mfrom (breg f.f1) (breg f.f2)
  | .crtrec => .crtrec (breg f.f1) (breg f.f2) (breg f.f3) (breg f.f4) (breg f.f5) (breg f.f6)

/-- Why a word is illegal: the three cases of R97. -/
inductive DecodeError where
  /-- R97 (a): `OPC` is none of the fourteen values. -/
  | reservedOpcode
  /-- R97 (b): a bit the format leaves unused is 1. -/
  | unusedBitSet
  /-- R97 (c): two destination fields of `XGCD` are equal. -/
  | equalDestinations
  deriving DecidableEq, Repr

/-- The decoder, total on every word, with the tests of R97 in their order. -/
def decode (w : Word) : Except DecodeError Instr :=
  match Opcode.ofCode (fieldsOf w).opc with
  | none => .error .reservedOpcode
  | some o =>
    if w &&& o.format.mask ≠ o.matchWord then .error .unusedBitSet
    else if (o.build (fieldsOf w)).wellFormed then .ok (o.build (fieldsOf w))
    else .error .equalDestinations

/-- The row of the opcode map a command belongs to (R95). -/
def Instr.opcode : Instr → Opcode
  | .nop => .nop
  | .reduce .. => .reduce
  | .quot .. => .quot
  | .xgcd .. => .xgcd
  | .invmod .. => .invmod
  | .isprime .. => .isprime
  | .mexpb .. => .mexpb
  | .mexpw .. => .mexpw
  | .mexpm .. => .mexpm
  | .mctx .. => .mctx
  | .mmul .. => .mmul
  | .mto .. => .mto
  | .mfrom .. => .mfrom
  | .crtrec .. => .crtrec

/-- The operands of a command in field order, destinations first (R95, R99). -/
def Instr.operands : Instr → List BReg
  | .nop => []
  | .reduce rd ra rn => [rd, ra, rn]
  | .quot rd ra rn => [rd, ra, rn]
  | .xgcd rg rx ry ra rb => [rg, rx, ry, ra, rb]
  | .invmod rd ra rn => [rd, ra, rn]
  | .isprime rn => [rn]
  | .mexpb rd rb re rn => [rd, rb, re, rn]
  | .mexpw rd rb re rn => [rd, rb, re, rn]
  | .mexpm rd rb re rn => [rd, rb, re, rn]
  | .mctx rn => [rn]
  | .mmul rd ra rb => [rd, ra, rb]
  | .mto rd ra => [rd, ra]
  | .mfrom rd ra => [rd, ra]
  | .crtrec rd rm1 rm2 rp rq ri => [rd, rm1, rm2, rp, rq, ri]

/-- Field number `k` (from 0) of a command: its operand there, zero where the format uses no such field (R92, R95). -/
def Instr.fieldAt (i : Instr) (k : Nat) : BitVec 3 :=
  match i.operands[k]? with
  | some r => field r
  | none => 0

/-- The encoder: `(OPC << 24) | (F1 << 21) | … | (F6 << 6)`, unused fields zero (R95). -/
def encode (i : Instr) : Word :=
  packWord { opc := i.opcode.code, f1 := i.fieldAt 0, f2 := i.fieldAt 1, f3 := i.fieldAt 2, f4 := i.fieldAt 3,
             f5 := i.fieldAt 4, f6 := i.fieldAt 5, rsv := 0 }

/-- The command read from a word numbered as the opcode table numbers it. Every command is one 32-bit word moved to `CMD` as
one value, so no byte order enters (R72, R90; log entry 15). -/
def decodeTableWord (nbits w : Nat) : Option Instr :=
  if nbits ≤ 32 ∧ w < 2 ^ nbits then (decode (BitVec.ofNat 32 w)).toOption else none

/-- The mnemonic of a row, upper case (R95, R99). -/
def Opcode.mnemonic : Opcode → String
  | .nop => "NOP"
  | .reduce => "REDUCE"
  | .quot => "QUOT"
  | .xgcd => "XGCD"
  | .invmod => "INVMOD"
  | .isprime => "ISPRIME"
  | .mexpb => "MEXPB"
  | .mexpw => "MEXPW"
  | .mexpm => "MEXPM"
  | .mctx => "MCTX"
  | .mmul => "MMUL"
  | .mto => "MTO"
  | .mfrom => "MFROM"
  | .crtrec => "CRTREC"

/-- A register operand as the assembler writes it, `B0` to `B7` (R99). -/
def bregName (r : BReg) : String := "B" ++ toString r.val

/-- A command as the assembler writes it: the mnemonic, then the operands in field order (R99). -/
def assembly (i : Instr) : String :=
  match i.operands with
  | [] => i.opcode.mnemonic
  | rs => i.opcode.mnemonic ++ " " ++ ", ".intercalate (rs.map bregName)

end Sys2Proof
end

