-- ==== Sys2Proof/Machine/State.lean ====
section
/-! DEFINITION. The state of the machine as plain data: the engine's architectural state (R20), the host agent that drives it
(R17, R101), the open parameters (R8, R36), and the reasons a step can stop. -/

namespace Sys2Proof.Machine

/-- The error kinds of R300, the engine's and the host procedures'. `None` (code 0) is `Option.none`. -/
inductive ErrorKind where
  | divisionByZero | invalidModulus | noInverse | keyGenFailure | messageTooLarge | keyGenTimeout
  | illegalCommand | operandInvalid | operandRange | overflow
  deriving DecidableEq, Repr

/-- One Montgomery context: the five registers `MC.N`, `MC.R`, `MC.RMASK`, `MC.NPRIME`, `MC.K` (R30). -/
structure MontCtx where
  n : Nat
  r : Nat
  rmask : Nat
  nprime : Nat
  k : Nat
  deriving DecidableEq, Repr

/-- An event of the ghost trace: the local product was multiplied by `powers[i]`, or folded into the accumulator (R37). -/
inductive MEvent where
  | mul (i : Nat)
  | fold
  deriving DecidableEq, Repr

/-- The whole architectural state of the engine (R20). `STATUS` is held by its four own fields; its mirrors are views of the
valid bits (R26). `CTRL` is held by `GRPSZ`; `WIN` is hard-wired and `SRST` reads 0 (R28). -/
structure Engine where
  /-- `B0` to `B7` (R21). -/
  b : Vector Int 8
  /-- `BV[0]` to `BV[7]`, bit `i` for `Bi` (R22). -/
  bv : BitVec 8
  /-- `MC` (R30, R31). -/
  mc : MontCtx
  /-- `MCV` (R31). -/
  mcv : Bool
  /-- `SEED` (R29). -/
  seed : BitVec 64
  /-- `SEEDV` (R29). -/
  seedv : Bool
  /-- `CTRL.GRPSZ` (R28). -/
  grpsz : BitVec 8
  /-- `STATUS.DONE` (R26). -/
  done : Bool
  /-- `STATUS.ERR` (R26). -/
  err : Bool
  /-- `STATUS.FLAG` (R26, R27). -/
  flag : Bool
  /-- `STATUS.ERRCODE` (R26, R300). -/
  errcode : BitVec 4
  /-- `CMD` (R32). -/
  cmd : Word
  /-- `MTRACE`, ghost state (R37). -/
  mtrace : List MEvent
  deriving DecidableEq, Repr

/-- The engine right after reset, every element at the value of R38. -/
def Engine.reset : Engine where
  b := Vector.replicate 8 0
  bv := 0
  mc := { n := 0, r := 0, rmask := 0, nprime := 0, k := 0 }
  mcv := false
  seed := 0
  seedv := false
  grpsz := Config.defaultGroupSize
  done := false
  err := false
  flag := false
  errcode := 0
  cmd := 0
  mtrace := []

/-- Expressions of the host's own big-integer arithmetic (R12, R101): constants, variables, the library's operations, bit
slices `e[hi:lo]` (R10), and comparisons, which give 1 for true and 0 for false. -/
inductive HExpr where
  | const (v : Int)
  | var (x : Nat)
  | add (a b : HExpr)
  | sub (a b : HExpr)
  | mul (a b : HExpr)
  | shl (a b : HExpr)
  | shr (a b : HExpr)
  | bor (a b : HExpr)
  | slice (a : HExpr) (hi lo : Nat)
  | eq (a b : HExpr)
  | lt (a b : HExpr)
  | le (a b : HExpr)
  | and (a b : HExpr)
  | not (a : HExpr)
  deriving DecidableEq, Repr

/-- The host's operations (R62, R101), and what its procedures need besides: a draw (R262) and the raising of an error kind
by its code (R264 to R271, R274). `HWR`, `HRD`, `HSEED`, `HCTRL`, `HSTAT`, `HMC`, `HRESET` and a command line are the two
port operations at their register numbers, as the table of R101 defines them. -/
inductive HostOp where
  /-- `var := PortRead(r)`. -/
  | portRead (x : Nat) (r : RegNum)
  /-- `PortWrite(r, v)`. -/
  | portWrite (r : RegNum) (v : HExpr)
  /-- `var := expr`. -/
  | assign (x : Nat) (e : HExpr)
  /-- `label:`. -/
  | label (l : Nat)
  /-- `IF cond GOTO label`: the condition holds when it is not 0. -/
  | ifGoto (c : HExpr) (l : Nat)
  /-- `GOTO label`. -/
  | goto (l : Nat)
  /-- `var := RandBits(N)` (R262). -/
  | randBits (x : Nat) (N : Nat)
  /-- `raise E` of a host procedure, `E` given by its code (R300). -/
  | raise (code : HExpr)
  /-- `HALT`. -/
  | halt
  deriving DecidableEq, Repr

/-- How far the host's program has come. -/
inductive HostOutcome where
  | running
  | halted
  | raised (k : ErrorKind)
  deriving DecidableEq, Repr

/-- The host agent (R17): its program, its place in it, its variables (sorted by number, no number twice), and the answers
the random source has already supplied, in call order, with the number of draws made beyond them (R262; log entry 6). -/
structure HostAgent where
  prog : List HostOp
  pc : Nat
  vars : List (Nat × Int)
  outcome : HostOutcome
  draws : List Nat
  drawCount : Nat
  deriving DecidableEq, Repr

/-- A permutation supplied for one seed and for the length of its list: `perm[j]` is `π(j)` (R213). -/
structure PermEntry where
  seed : BitVec 64
  perm : List Nat
  deriving DecidableEq, Repr

/-- The open parameters the step depends on (R8, R36). No step changes them. -/
structure Params where
  /-- `W`; none is infinity (R8, R23). R8 admits no `W = 0`: the invariant `Inv` excludes it (log entry 4). -/
  w : Option Nat
  /-- Values of `Perm` that are fixed; every other value is the free `Config.perm` (R213; log entry 5). -/
  permTable : List PermEntry
  deriving DecidableEq, Repr

/-- The whole system: engine, host, parameters, and the platform's reset input waiting to be taken (R330, R332). -/
structure State where
  eng : Engine
  host : HostAgent
  params : Params
  resetInput : Bool
  deriving DecidableEq, Repr

/-- The host with nothing loaded: no program, no variable, no answer of the random source (log entries 3 and 6). -/
def HostAgent.idle : HostAgent where
  prog := []
  pc := 0
  vars := []
  outcome := .running
  draws := []
  drawCount := 0

/-- The machine right after reset: the engine of R38, an idle host, `W` infinite (log entry 4), no value of `Perm` fixed
(log entry 5), no reset input waiting (log entry 10). -/
def State.reset : State where
  eng := Engine.reset
  host := HostAgent.idle
  params := { w := none, permTable := [] }
  resetInput := false

/-- Reasons the machine stops with a fault. There is none: every error is a value of `STATUS` and the engine goes on
(R306, R308), and there is no state from which it cannot continue (R310). -/
inductive Fault
  deriving DecidableEq, Repr

/-- Reasons a step has no meaning. Every one but the first is an action of the host that the spec does not admit or a line
that means nothing in R101; none is raised by a command. All are safe: the model stops where nothing is claimed. -/
inductive Refusal where
  /-- A command without a meaning, raised by `exec`'s arm alone; no arm does. Safe. -/
  | notModelled (mnemonic : String)
  /-- A write to `Bi` of a value with `|v| ≥ 2^W`, "not an action of the host" (R23, R63, U22). Raised by `portWrite`. Safe. -/
  | valueBeyondCapacity
  /-- A write of a value that the port's value type for the register does not admit (R61, R65). Raised by `portWrite`. Safe. -/
  | valueNotOfPortType
  /-- A host expression names a variable nothing assigned (log entry 9). Raised by `HExpr.eval`. Safe. -/
  | hostVariableUnset
  /-- A jump to a label the host's program does not have (log entry 9). Raised by `hostStep`. Safe. -/
  | hostLabelMissing
  /-- A host `raise` whose code names no kind of R300 (log entry 9). Raised by `hostStep`. Safe. -/
  | hostRaisesNoKind
  deriving DecidableEq, Repr

end Sys2Proof.Machine
end

