-- ==== Sys2Proof/Machine/Flags.lean ====
section
/-! DEFINITION. The error codes (R300) and the words of the status and control registers (R26, R28). -/

namespace Sys2Proof.Machine

/-- The code of an error kind (R300). -/
def ErrorKind.code : ErrorKind → BitVec 4
  | .divisionByZero => 1
  | .invalidModulus => 2
  | .noInverse => 3
  | .keyGenFailure => 4
  | .messageTooLarge => 5
  | .keyGenTimeout => 6
  | .illegalCommand => 8
  | .operandInvalid => 9
  | .operandRange => 10
  | .overflow => 11

/-- The kind a code names; none for 0 and the reserved codes 7 and 12 to 15 (R300). -/
def ErrorKind.ofCode (c : Nat) : Option ErrorKind :=
  match c with
  | 1 => some .divisionByZero
  | 2 => some .invalidModulus
  | 3 => some .noInverse
  | 4 => some .keyGenFailure
  | 5 => some .messageTooLarge
  | 6 => some .keyGenTimeout
  | 8 => some .illegalCommand
  | 9 => some .operandInvalid
  | 10 => some .operandRange
  | 11 => some .overflow
  | _ => none

/-- What `STATUS.ERRCODE` shows: 0 for `None` (R300, R241). -/
def errcodeOf : Option ErrorKind → BitVec 4
  | none => 0
  | some k => k.code

/-- One bit as a word. -/
def bit1 (x : Bool) : BitVec 1 := BitVec.ofBool x

/-- The 32 bits of `STATUS` (R26), most significant first: 31:24 reserved, 23:16 `BV`, 15:10 reserved, 9 `SEEDV`, 8 `MCV`,
7:4 `ERRCODE`, 3 reserved, 2 `FLAG`, 1 `ERR`, 0 `DONE`. -/
def statusWord (e : Engine) : Word :=
  (0 : BitVec 8) ++ e.bv ++ (0 : BitVec 6) ++ bit1 e.seedv ++ bit1 e.mcv ++ e.errcode ++ (0 : BitVec 1)
    ++ bit1 e.flag ++ bit1 e.err ++ bit1 e.done

/-- The 32 bits of `CTRL` as read (R28): 31 `SRST` reads 0, 30:12 reserved, 11:8 `WIN`, 7:0 `GRPSZ`. -/
def ctrlWord (e : Engine) : Word :=
  (0 : BitVec 20) ++ BitVec.ofNat 4 Config.windowWidth ++ e.grpsz

/-- What a write of byte `g` leaves in `GRPSZ`: writing 0 stores the default 8 (R28). -/
def grpszStored (g : BitVec 8) : BitVec 8 := if g = 0 then Config.defaultGroupSize else g

end Sys2Proof.Machine
end

