-- ==== Sys2Proof/Machine/Operands.lean ====
section
/-! DEFINITION. Reading operands: the registers, the sources and destinations of each command (R240), the capacity (R23), and
the permutation parameter (R213). -/

namespace Sys2Proof.Machine

/-- `x[i]`: the value of `Bi` (R13). -/
def Engine.reg (e : Engine) (i : BReg) : Int := e.b[i.val]

/-- `BV[i]` (R22). -/
def Engine.valid (e : Engine) (i : BReg) : Bool := e.bv.getLsbD i.val

/-- The source fields of each command (R240). -/
def sources : Instr → List BReg
  | .nop => []
  | .reduce _ ra rn => [ra, rn]
  | .quot _ ra rn => [ra, rn]
  | .xgcd _ _ _ ra rb => [ra, rb]
  | .invmod _ ra rn => [ra, rn]
  | .isprime rn => [rn]
  | .mexpb _ rb re rn => [rb, re, rn]
  | .mexpw _ rb re rn => [rb, re, rn]
  | .mexpm _ rb re rn => [rb, re, rn]
  | .mctx rn => [rn]
  | .mmul _ ra rb => [ra, rb]
  | .mto _ ra => [ra]
  | .mfrom _ ra => [ra]
  | .crtrec _ rm1 rm2 rp rq ri => [rm1, rm2, rp, rq, ri]

/-- The destination fields of each command (R240). -/
def destinations : Instr → List BReg
  | .nop => []
  | .reduce rd _ _ => [rd]
  | .quot rd _ _ => [rd]
  | .xgcd rg rx ry _ _ => [rg, rx, ry]
  | .invmod rd _ _ => [rd]
  | .isprime _ => []
  | .mexpb rd _ _ _ => [rd]
  | .mexpw rd _ _ _ => [rd]
  | .mexpm rd _ _ _ => [rd]
  | .mctx _ => []
  | .mmul rd _ _ => [rd]
  | .mto rd _ => [rd]
  | .mfrom rd _ => [rd]
  | .crtrec rd _ _ _ _ _ => [rd]

/-- The commands with the implicit source `MC` (R240). -/
def needsContext : Instr → Bool
  | .mmul .. | .mto .. | .mfrom .. => true
  | .nop | .reduce .. | .quot .. | .xgcd .. | .invmod .. | .isprime .. | .mexpb .. | .mexpw .. | .mexpm ..
  | .mctx .. | .crtrec .. => false

/-- The command with the implicit source `SEED` (R240). -/
def needsSeed : Instr → Bool
  | .mexpm .. => true
  | .nop | .reduce .. | .quot .. | .xgcd .. | .invmod .. | .isprime .. | .mexpb .. | .mexpw .. | .mctx ..
  | .mmul .. | .mto .. | .mfrom .. | .crtrec .. => false

/-- Step 2 of `Execute`: every source register, and the context and the seed where the command needs them, hold a value
(R241, R303). -/
def operandsValid (i : Instr) (e : Engine) : Bool :=
  (sources i).all e.valid && (!needsContext i || e.mcv) && (!needsSeed i || e.seedv)

/-- `|v| < 2^W`, with no limit when `W` is infinite (R23). -/
def Params.fits (p : Params) (v : Int) : Bool :=
  match p.w with
  | none => true
  | some w => decide (v.natAbs < 2 ^ w)

/-- `l` lists `0, …, h-1`, each once. -/
def isPermOf (l : List Nat) (h : Nat) : Bool := l.length == h && (List.range h).all (fun j => l.contains j)

/-- `Perm(seed, h)` as the list `π(0), …, π(h-1)`: the first fitting entry of the supplied table, else the free permutation
(R213; log entry 5). -/
def Params.perm (p : Params) (seed : BitVec 64) (h : Nat) : List Nat :=
  match p.permTable.find? (fun t => t.seed == seed && isPermOf t.perm h) with
  | some t => t.perm
  | none => (List.finRange h).map (fun j => (Config.perm seed h j).val)

end Sys2Proof.Machine
end

