-- ==== Sys2Proof/Machine/Ops.lean ====
section
/-! DEFINITION. The one way every command executes (R241): validity, computation on latched values, capacity, write-back of
every destination together, and `Finish`, which is also how an error is taken (R306). -/

namespace Sys2Proof.Machine

/-- `x[i] <- v`: the register and its valid bit (R13, R22). -/
def Engine.writeReg (e : Engine) (i : BReg) (v : Int) : Engine :=
  { e with b := e.b.set i.val v, bv := e.bv ||| (1#8 <<< i.val) }

/-- Several registers, in the order listed. -/
def Engine.writeRegs (e : Engine) (ws : List (BReg × Int)) : Engine :=
  ws.foldl (fun e w => e.writeReg w.1 w.2) e

/-- `Finish(E)` (R241): `STATUS` rewritten as a whole. With `E` an error kind this is TAKING AN ERROR, the engine's only
exception: nothing else changes, no control is transferred (R306, R308). There is no return operation: the next command's
`Finish` clears the indication (R310). -/
def Engine.finish (e : Engine) (k : Option ErrorKind) (answer : Bool) : Engine :=
  { e with done := true, err := k.isSome, flag := k.isNone && answer, errcode := errcodeOf k }

/-- `Finish(E)` on the whole state. -/
def State.finish (s : State) (k : Option ErrorKind) (answer : Bool) : State :=
  { s with eng := s.eng.finish k answer }

/-- `raise E`: the command ends with error kind `E` and writes no destination (R13, R306). -/
def State.raiseError (s : State) (k : ErrorKind) : State := s.finish (some k) false

/-- What a command's procedure hands to write-back: values for big-integer registers, a new context, whether the seed is
consumed, a new trace, and the answer for `STATUS.FLAG` (R240, R241 steps 4 to 7). -/
structure Effect where
  writes : List (BReg × Int) := []
  ctx : Option MontCtx := none
  consumeSeed : Bool := false
  trace : Option (List MEvent) := none
  answer : Bool := false
  deriving DecidableEq, Repr

/-- Step 6 of `Execute`: every destination, explicit and implicit, all together (R241). -/
def Engine.apply (e : Engine) (f : Effect) : Engine :=
  let e := e.writeRegs f.writes
  { e with
    mc := f.ctx.getD e.mc
    mcv := e.mcv || f.ctx.isSome
    seedv := e.seedv && !f.consumeSeed
    mtrace := f.trace.getD e.mtrace }

/-- Steps 6 and 7 of `Execute` after a success (R241). -/
def State.complete (s : State) (f : Effect) : State :=
  { s with eng := (s.eng.apply f).finish none f.answer }

/-- Step 5 of `Execute`: every value bound for a big-integer register is within the capacity (R241, R305). -/
def Effect.fits (f : Effect) (p : Params) : Bool := f.writes.all (fun w => p.fits w.2)

/-- Steps 2 to 7 of `Execute` for command `i` with the procedure `compute`, run on the values before any write (R241). -/
def State.execute (s : State) (i : Instr) (compute : State → Except ErrorKind Effect) : State :=
  if operandsValid i s.eng then
    match compute s with
    | .error k => s.raiseError k
    | .ok f => if f.fits s.params then s.complete f else s.raiseError .overflow
  else s.raiseError .operandInvalid

/-- `State.execute` as the outcome of a step: a command always ends in a next state (R243, R306). -/
def command (i : Instr) (compute : State → Except ErrorKind Effect) (s : State) :
    Host.Outcome State Fault Refusal :=
  .next (s.execute i compute)

/-- Reset of the engine, by the platform or by the host: every element at its value of R38, whatever it held (R330, R331). -/
def State.resetEngine (s : State) : State := { s with eng := Engine.reset }

end Sys2Proof.Machine
end

