-- ==== Sys2Proof/Machine/Reduction.lean ====
section
/-! DEFINITION. The reduction engine: `Reduce`, `Quotient`, `ModMul`, the commands `REDUCE` and `QUOT` (40_reduction.md), and
the shift-and-subtract loops of R122 and R123. -/

namespace Sys2Proof.Machine

/-- Step 3 of R122 and R123: `m` and `p` doubled while `2·m ≤ a`. -/
def ascend (a : Nat) : (fuel m p : Nat) → Nat × Nat
  | 0, m, p => (m, p)
  | fuel + 1, m, p => if 2 * m ≤ a then ascend a fuel (2 * m) (2 * p) else (m, p)

/-- Step 4 of R122 and R123: while `m ≥ n`, subtract `m` from `a` (and add `p` to `t`) when it goes, then halve. -/
def descend (n : Nat) : (fuel a t m p : Nat) → Nat × Nat
  | 0, a, t, _, _ => (a, t)
  | fuel + 1, a, t, m, p =>
    if n ≤ m then
      if m ≤ a then descend n fuel (a - m) (t + p) (m >>> 1) (p >>> 1)
      else descend n fuel a t (m >>> 1) (p >>> 1)
    else (a, t)

/-- The loops of R122 and R123 on `a ≥ 0`, `n > 0`: remainder and quotient by doubling, halving and subtraction alone. The
ascent makes at most `bitlen(a)` doublings and the descent one iteration more (R126). -/
def shiftSubtract (a n : Nat) : Nat × Nat :=
  if a < n then (a, 0)
  else
    let (m, p) := ascend a (bitlen a) n 1
    descend n (bitlen a + 1) a 0 m p

/-- The domain tests of R121: zero modulus first, then signs. -/
def checkDivision (a n : Int) : Except ErrorKind Unit :=
  if n = 0 then .error .divisionByZero
  else if a < 0 ∨ n < 0 then .error .operandRange
  else .ok ()

/-- `Reduce(a, n)` (R122), its value given as the mathematical remainder, which R126 allows (log entry 7). -/
def reduce (a n : Int) : Except ErrorKind Nat := do
  checkDivision a n
  return a.toNat % n.toNat

/-- `Quotient(a, n)` (R123), its value given as the mathematical floor quotient, which R126 allows (log entry 7). -/
def quotient (a n : Int) : Except ErrorKind Nat := do
  checkDivision a n
  return a.toNat / n.toNat

/-- `ModMul(a, b, n) = Reduce(a·b, n)` on non-negative operands with `n > 0`, where it cannot raise (R127). -/
def modMul (a b n : Nat) : Nat := a * b % n

/-- The procedure of `REDUCE` on the latched values, with its checks in their order (R241 steps 3 and 4). -/
def reduceProc (rd ra rn : BReg) (s : State) : Except ErrorKind Effect := do
  let r ← reduce (s.eng.reg ra) (s.eng.reg rn)
  return { writes := [(rd, r)] }

/-- `REDUCE rd, ra, rn` (R124). -/
def execReduce (rd ra rn : BReg) (s : State) : Host.Outcome State Fault Refusal :=
  command (.reduce rd ra rn) (reduceProc rd ra rn) s

/-- The procedure of `QUOT` on the latched values, with its checks in their order (R241 steps 3 and 4). -/
def quotProc (rd ra rn : BReg) (s : State) : Except ErrorKind Effect := do
  let t ← quotient (s.eng.reg ra) (s.eng.reg rn)
  return { writes := [(rd, t)] }

/-- `QUOT rd, ra, rn` (R125). -/
def execQuot (rd ra rn : BReg) (s : State) : Host.Outcome State Fault Refusal :=
  command (.quot rd ra rn) (quotProc rd ra rn) s

end Sys2Proof.Machine
end

