-- ==== Sys2Proof/Machine/Euclid.lean ====
section
/-! DEFINITION. The extended-Euclid engine: `Xgcd`, `Norm`, `InvMod` and the commands `XGCD` and `INVMOD` (41_euclid.md). -/

namespace Sys2Proof.Machine

/-- What `Xgcd` returns: `(g, x, y)` (R140). -/
structure Bezout where
  g : Nat
  x : Int
  y : Int
  deriving DecidableEq, Repr

/-- The loop of R140. `B` falls at every iteration (R142), so the input `B` bounds their number. -/
def xgcdLoop : (fuel A B : Nat) → (x0 x1 y0 y1 : Int) → Bezout
  | 0, A, _, x0, _, y0, _ => { g := A, x := x0, y := y0 }
  | fuel + 1, A, B, x0, x1, y0, y1 =>
    if B = 0 then { g := A, x := x0, y := y0 }
    else
      let q := A / B
      xgcdLoop fuel B (A - q * B) x1 (x0 - q * x1) y1 (y0 - q * y1)

/-- `Xgcd` on non-negative inputs (R140). -/
def xgcdNat (A B : Nat) : Bezout := xgcdLoop B A B 1 0 0 1

/-- `Xgcd(A, B)` with its range test (R140). -/
def xgcd (A B : Int) : Except ErrorKind Bezout :=
  if A < 0 ∨ B < 0 then .error .operandRange else .ok (xgcdNat A.toNat B.toNat)

/-- `Norm(A, n)` for `n > 0`, by the method of R143. -/
def normMod (A : Int) (n : Nat) : Nat :=
  if 0 ≤ A then A.toNat % n
  else
    let t := (-A).toNat % n
    if t = 0 then 0 else n - t

/-- `InvMod(A, n)` (R145). -/
def invMod (A n : Int) : Except ErrorKind Nat :=
  if n = 0 then .error .divisionByZero
  else if n < 0 then .error .operandRange
  else
    let b := xgcdNat (normMod A n.toNat) n.toNat
    if b.g ≠ 1 then .error .noInverse else .ok (normMod b.x n.toNat)

/-- The procedure of `XGCD` on the latched values, with its checks in their order (R241 steps 3 and 4). -/
def xgcdProc (rg rx ry ra rb : BReg) (s : State) : Except ErrorKind Effect := do
  let b ← xgcd (s.eng.reg ra) (s.eng.reg rb)
  return { writes := [(rg, b.g), (rx, b.x), (ry, b.y)] }

/-- `XGCD rg, rx, ry, ra, rb` (R141). A term with two equal destinations is no legal command and ends as one (R97, R302; log
entry 11). -/
def execXgcd (rg rx ry ra rb : BReg) (s : State) : Host.Outcome State Fault Refusal :=
  if (Instr.xgcd rg rx ry ra rb).wellFormed then
    command (.xgcd rg rx ry ra rb) (xgcdProc rg rx ry ra rb) s
  else .next (s.raiseError .illegalCommand)

/-- The procedure of `INVMOD` on the latched values, with its checks in their order (R241 steps 3 and 4). -/
def invmodProc (rd ra rn : BReg) (s : State) : Except ErrorKind Effect := do
  let d ← invMod (s.eng.reg ra) (s.eng.reg rn)
  return { writes := [(rd, d)] }

/-- `INVMOD rd, ra, rn` (R144). -/
def execInvmod (rd ra rn : BReg) (s : State) : Host.Outcome State Fault Refusal :=
  command (.invmod rd ra rn) (invmodProc rd ra rn) s

end Sys2Proof.Machine
end

