-- ==== Sys2Proof/Machine/Crt.lean ====
section
/-! DEFINITION. The RSA-CRT recombination and the command `CRTREC` (45_crt.md). -/

namespace Sys2Proof.Machine

/-- `CrtRec(m1, m2, p, q, qinv)`: the source's guarded difference normalised into `[0, p)` (R231). -/
def crtRec (m1 m2 p q qinv : Int) : Except ErrorKind Nat :=
  if p = 0 then .error .divisionByZero
  else if m1 < 0 ∨ m2 < 0 ∨ p < 0 ∨ q < 0 ∨ qinv < 0 then .error .operandRange
  else
    let d := normMod (m1 - m2 + p) p.toNat
    let h := qinv.toNat * d % p.toNat
    .ok (m2.toNat + h * q.toNat)

/-- The procedure of `CRTREC` on the latched values, with its checks in their order (R241 steps 3 and 4). -/
def crtrecProc (rd rm1 rm2 rp rq ri : BReg) (s : State) : Except ErrorKind Effect := do
  let m ← crtRec (s.eng.reg rm1) (s.eng.reg rm2) (s.eng.reg rp) (s.eng.reg rq) (s.eng.reg ri)
  return { writes := [(rd, m)] }

/-- `CRTREC rd, rm1, rm2, rp, rq, ri` (R232). -/
def execCrtrec (rd rm1 rm2 rp rq ri : BReg) (s : State) : Host.Outcome State Fault Refusal :=
  command (.crtrec rd rm1 rm2 rp rq ri) (crtrecProc rd rm1 rm2 rp rq ri) s

end Sys2Proof.Machine
end

