-- ==== Sys2Proof/Machine/ModExp.lean ====
section
/-! DEFINITION. Modular exponentiation by square-and-multiply and by sliding window, the commands `MEXPB` and `MEXPW`
(43_modexp.md). -/

namespace Sys2Proof.Machine

/-- `ExpChecks(base, e, n)`: zero modulus, then signs (R180). -/
def expChecks (base e n : Int) : Except ErrorKind Unit :=
  if n = 0 then .error .divisionByZero
  else if base < 0 ∨ e < 0 ∨ n < 0 then .error .operandRange
  else .ok ()

/-- The scan of R181 over bits `i-1` down to 0: always square, multiply when the bit is 1. -/
def expBinaryLoop (b e n : Nat) : (i acc : Nat) → Nat
  | 0, acc => acc
  | i + 1, acc =>
    let acc := modMul acc acc n
    expBinaryLoop b e n i (if e.testBit i then modMul acc b n else acc)

/-- `ExpBinary` on operands that pass the checks (R181). -/
def expBinaryNat (base e n : Nat) : Nat :=
  expBinaryLoop (base % n) e n (bitlen e) (1 % n)

/-- `ExpBinary(base, e, n)` (R181). -/
def expBinary (base e n : Int) : Except ErrorKind Nat := do
  expChecks base e n
  return expBinaryNat base.toNat e.toNat n.toNat

/-- Entries `g`, `g·b2`, `g·b2²`, … : `count` of them (R184). -/
def windowTableFrom (b2 n : Nat) : (count g : Nat) → List Nat
  | 0, _ => []
  | count + 1, g => g :: windowTableFrom b2 n count (modMul g b2 n)

/-- `WindowTable(b, n)`: the `2^(w-1)` odd powers `b^1, b^3, …` modulo `n` (R183, R184). -/
def windowTable (b n : Nat) : List Nat :=
  windowTableFrom (modMul b b n) n (2 ^ (Config.windowWidth - 1)) b

/-- The least `l' ≥ l` with bit `l'` of `e` set, looked for over at most `fuel` positions (R186). -/
def lowestSetFrom (e : Nat) : (fuel l : Nat) → Nat
  | 0, l => l
  | fuel + 1, l => if e.testBit l then l else lowestSetFrom e fuel (l + 1)

/-- `acc` squared `c` times modulo `n`. -/
def squareTimes (n : Nat) : (c acc : Nat) → Nat
  | 0, acc => acc
  | c + 1, acc => squareTimes n c (modMul acc acc n)

/-- The scan of R186 with `todo = i + 1` bits left: a 0 bit is one squaring; a 1 bit at `i` opens the window `[l..i]`, whose
value is odd, and the scan goes on below it. -/
def expWindowLoop (g : List Nat) (e n : Nat) : (fuel todo acc : Nat) → Nat
  | 0, _, acc => acc
  | fuel + 1, todo, acc =>
    match todo with
    | 0 => acc
    | i + 1 =>
      if e.testBit i then
        let l := lowestSetFrom e Config.windowWidth (i + 1 - Config.windowWidth)
        let value := (e >>> l) &&& ((1 <<< (i - l + 1)) - 1)
        expWindowLoop g e n fuel l (modMul (squareTimes n (i - l + 1) acc) (g.getD (value >>> 1) 0) n)
      else expWindowLoop g e n fuel i (modMul acc acc n)

/-- `ExpWindow` on operands that pass the checks (R186). -/
def expWindowNat (base e n : Nat) : Nat :=
  expWindowLoop (windowTable (base % n) n) e n (bitlen e) (bitlen e) (1 % n)

/-- `ExpWindow(base, e, n)` (R186). -/
def expWindow (base e n : Int) : Except ErrorKind Nat := do
  expChecks base e n
  return expWindowNat base.toNat e.toNat n.toNat

/-- The procedure of `MEXPB` on the latched values, with its checks in their order (R241 steps 3 and 4). -/
def mexpbProc (rd rb re rn : BReg) (s : State) : Except ErrorKind Effect := do
  let v ← expBinary (s.eng.reg rb) (s.eng.reg re) (s.eng.reg rn)
  return { writes := [(rd, v)] }

/-- `MEXPB rd, rb, re, rn` (R182). -/
def execMexpb (rd rb re rn : BReg) (s : State) : Host.Outcome State Fault Refusal :=
  command (.mexpb rd rb re rn) (mexpbProc rd rb re rn) s

/-- The procedure of `MEXPW` on the latched values, with its checks in their order (R241 steps 3 and 4). -/
def mexpwProc (rd rb re rn : BReg) (s : State) : Except ErrorKind Effect := do
  let v ← expWindow (s.eng.reg rb) (s.eng.reg re) (s.eng.reg rn)
  return { writes := [(rd, v)] }

/-- `MEXPW rd, rb, re, rn` (R185). -/
def execMexpw (rd rb re rn : BReg) (s : State) : Host.Outcome State Fault Refusal :=
  command (.mexpw rd rb re rn) (mexpwProc rd rb re rn) s

end Sys2Proof.Machine
end

