-- ==== Sys2Proof/Machine/Montgomery.lean ====
section
/-! DEFINITION. The Montgomery context, Montgomery multiplication, the Montgomery and PSA exponentiation, and the commands
`MCTX`, `MMUL`, `MTO`, `MFROM`, `MEXPM` (44_montgomery.md). -/

namespace Sys2Proof.Machine

/-- `MontCtx(n)` (R201). -/
def montCtx (n : Int) : Except ErrorKind MontCtx :=
  if n = 0 then .error .divisionByZero
  else if n < 0 then .error .operandRange
  else if !n.toNat.testBit 0 then .error .invalidModulus
  else do
    let k := bitlen n.toNat
    let r := 1 <<< k
    let ninv ← invMod n r
    return { n := n.toNat, r := r, rmask := r - 1, nprime := normMod (r - ninv) r, k := k }

/-- `Redc(ctx, t)` (R204), the standard step, which the spec marks as general knowledge (log entry 17). -/
def redc (c : MontCtx) (t : Nat) : Nat :=
  let m := ((t &&& c.rmask) * c.nprime) &&& c.rmask
  let u := (t + m * c.n) >>> c.k
  if c.n ≤ u then u - c.n else u

/-- `MontMul(ctx, a, b)` (R205). -/
def montMul (c : MontCtx) (a b : Nat) : Nat := redc c (a * b)

/-- `ToMont(ctx, a)` (R205). -/
def toMont (c : MontCtx) (a : Nat) : Nat := (a <<< c.k) % c.n

/-- `FromMont(ctx, a)` (R205). -/
def fromMont (c : MontCtx) (a : Nat) : Nat := redc c a

/-- `S(e)`: the positions of the 1 bits of `e`, ascending (R211). -/
def setBits (e : Nat) : List Nat := (List.range (bitlen e)).filter (fun i => e.testBit i)

/-- `count` entries from `p` on, each the Montgomery square of the one before (R211). -/
def powersFrom (c : MontCtx) : (count p : Nat) → List Nat
  | 0, _ => []
  | count + 1, p => p :: powersFrom c count (montMul c p p)

/-- `powers[0..maxbit]`, empty for `e = 0` (R211). -/
def powersTable (c : MontCtx) (base e : Nat) : List Nat := powersFrom c (bitlen e) (toMont c base)

/-- The shuffled list: `L[j] = S(e)[π(j)]` (R213). -/
def shuffled (perm : List Nat) (e : Nat) : List Nat := perm.map (fun j => (setBits e).getD j 0)

/-- Consecutive groups of `G` elements, the last one possibly shorter (R213). `fuel` bounds the number of groups; `G = 0`,
which no reachable `CTRL` holds (R28), counts as 1 (log entry 14). -/
def groupsOf (G : Nat) : (fuel : Nat) → List Nat → List (List Nat)
  | 0, _ => []
  | _ + 1, [] => []
  | fuel + 1, x :: xs => (x :: xs.take (G - 1)) :: groupsOf G fuel (xs.drop (G - 1))

/-- The local Montgomery product of one group, started at the image of 1 (R212). -/
def groupProduct (c : MontCtx) (powers : List Nat) (one : Nat) (group : List Nat) : Nat :=
  group.foldl (fun acc i => montMul c acc (powers.getD i 0)) one

/-- The events one group leaves: one `mul` for each element, then `fold` (R212). -/
def groupTrace (group : List Nat) : List MEvent := group.map MEvent.mul ++ [.fold]

/-- What `ExpMont` returns (R212). -/
structure ExpMontResult where
  v : Nat
  ctx : MontCtx
  trace : List MEvent
  deriving DecidableEq, Repr

/-- The accumulation and conversion of R212 under the context `c`, with `perm = Perm(seed, h)`. -/
def expMontRun (c : MontCtx) (perm : List Nat) (G base e : Nat) : ExpMontResult :=
  let one := toMont c 1
  let powers := powersTable c base e
  let L := shuffled perm e
  let groups := groupsOf G L.length L
  let acc := groups.foldl (fun acc g => montMul c acc (groupProduct c powers one g)) one
  { v := fromMont c acc, ctx := c, trace := groups.flatMap groupTrace }

/-- `ExpMont(base, e, n; seed, G)` with `Perm(seed, ·)` given as `perm` (R212). -/
def expMont (perm : Nat → List Nat) (G : Nat) (base e n : Int) : Except ErrorKind ExpMontResult := do
  expChecks base e n
  let c ← montCtx n
  return expMontRun c (perm (setBits e.toNat).length) G base.toNat e.toNat

/-- The procedure of `MCTX` on the latched values, with its checks in their order (R241 steps 3 and 4). -/
def mctxProc (rn : BReg) (s : State) : Except ErrorKind Effect := do
  let c ← montCtx (s.eng.reg rn)
  return { ctx := some c }

/-- `MCTX rn` (R203). -/
def execMctx (rn : BReg) (s : State) : Host.Outcome State Fault Refusal :=
  command (.mctx rn) (mctxProc rn) s

/-- A factor of `MMUL` or the operand of `MFROM`: a residue in `[0, MC.N)`, else `OperandRange` (R206, R209, R304). -/
def residueOf (c : MontCtx) (a : Int) : Except ErrorKind Nat :=
  if a < 0 ∨ (c.n : Int) ≤ a then .error .operandRange else .ok a.toNat

/-- The procedure of `MMUL` on the latched values, with its checks in their order (R241 steps 3 and 4). -/
def mmulProc (rd ra rb : BReg) (s : State) : Except ErrorKind Effect := do
  let a ← residueOf s.eng.mc (s.eng.reg ra)
  let b ← residueOf s.eng.mc (s.eng.reg rb)
  return { writes := [(rd, montMul s.eng.mc a b)] }

/-- `MMUL rd, ra, rb` (R206). -/
def execMmul (rd ra rb : BReg) (s : State) : Host.Outcome State Fault Refusal :=
  command (.mmul rd ra rb) (mmulProc rd ra rb) s

/-- The procedure of `MTO` on the latched values, with its checks in their order (R241 steps 3 and 4). -/
def mtoProc (rd ra : BReg) (s : State) : Except ErrorKind Effect :=
  if s.eng.reg ra < 0 then .error .operandRange
  else .ok { writes := [(rd, toMont s.eng.mc (s.eng.reg ra).toNat)] }

/-- `MTO rd, ra` (R208). -/
def execMto (rd ra : BReg) (s : State) : Host.Outcome State Fault Refusal :=
  command (.mto rd ra) (mtoProc rd ra) s

/-- The procedure of `MFROM` on the latched values, with its checks in their order (R241 steps 3 and 4). -/
def mfromProc (rd ra : BReg) (s : State) : Except ErrorKind Effect := do
  let a ← residueOf s.eng.mc (s.eng.reg ra)
  return { writes := [(rd, fromMont s.eng.mc a)] }

/-- `MFROM rd, ra` (R209). -/
def execMfrom (rd ra : BReg) (s : State) : Host.Outcome State Fault Refusal :=
  command (.mfrom rd ra) (mfromProc rd ra) s

/-- The procedure of `MEXPM` on the latched values, with its checks in their order (R241 steps 3 and 4). -/
def mexpmProc (rd rb re rn : BReg) (s : State) : Except ErrorKind Effect := do
  let r ← expMont (s.params.perm s.eng.seed) s.eng.grpsz.toNat (s.eng.reg rb) (s.eng.reg re) (s.eng.reg rn)
  return { writes := [(rd, r.v)], ctx := some r.ctx, consumeSeed := true, trace := some r.trace }

/-- `MEXPM rd, rb, re, rn` (R215): the result, the modulus's context, the seed consumed, the trace. -/
def execMexpm (rd rb re rn : BReg) (s : State) : Host.Outcome State Fault Refusal :=
  command (.mexpm rd rb re rn) (mexpmProc rd rb re rn) s

end Sys2Proof.Machine
end

