-- ==== Sys2Proof/Machine/Primality.lean ====
section
/-! DEFINITION. The primality oracle and the command `ISPRIME` (42_primality.md). -/

namespace Sys2Proof.Machine

/-- The answers of the cheap filter (R162). -/
inductive FilterAnswer where
  | accept | reject | pass
  deriving DecidableEq, Repr

/-- The pass over the small-prime table: equality before divisibility for each entry (R162, C2). -/
def filterSmall (n : Nat) : List Nat → FilterAnswer
  | [] => .pass
  | t :: ts => if n = t then .accept else if n % t = 0 then .reject else filterSmall n ts

/-- `CheapFilter(n)` for any integer (R162). -/
def cheapFilter (n : Int) : FilterAnswer :=
  if n < 2 then .reject
  else
    let m := n.toNat
    if Config.acceptedPrimes.contains m then .accept
    else if !m.testBit 0 then .reject
    else if m % 3 = 0 ∨ m % 5 = 0 then .reject
    else filterSmall m Config.smallPrimes

/-- `Decompose(n) = (d, s)` with `n - 1 = d·2^s`, `d` odd, for odd `n ≥ 3` (R163). -/
def decompose (n : Nat) : Nat × Nat :=
  let s := ctz (n - 1)
  ((n - 1) >>> s, s)

/-- The repeated squarings of R164: true when `n - 1` is met within `count` of them. -/
def squaresMeet (n : Nat) : (count x : Nat) → Bool
  | 0, _ => false
  | count + 1, x =>
    let x := modMul x x n
    x == n - 1 || squaresMeet n count x

/-- `Witness(a, n, d, s)`: true for `accepts`, false for `composite` (R164). -/
def witnessAccepts (a n d s : Nat) : Bool :=
  let x := expBinaryNat a d n
  x == 1 || x == n - 1 || squaresMeet n (s - 1) x

/-- `IsProbablePrime(n)` (R165). -/
def isProbablePrime (n : Int) : Bool :=
  match cheapFilter n with
  | .accept => true
  | .reject => false
  | .pass =>
    let m := n.toNat
    let ds := decompose m
    Config.witnesses.all (fun a => decide (m ≤ a) || witnessAccepts a m ds.1 ds.2)

/-- The procedure of `ISPRIME` on the latched values, with its checks in their order (R241 steps 3 and 4). -/
def isprimeProc (rn : BReg) (s : State) : Except ErrorKind Effect := .ok { answer := isProbablePrime (s.eng.reg rn) }

/-- `ISPRIME rn` (R166). -/
def execIsprime (rn : BReg) (s : State) : Host.Outcome State Fault Refusal :=
  command (.isprime rn) (isprimeProc rn) s

end Sys2Proof.Machine
end

