-- ==== Sys2Proof/Machine/System.lean ====
section
/-! DEFINITION. `NOP` (46_system.md). -/

namespace Sys2Proof.Machine

/-- The procedure of `NOP`: no check, no effect (R242). -/
def nopProc (_ : State) : Except ErrorKind Effect := .ok {}

/-- `NOP`: nothing but the rewriting of `STATUS` (R242). -/
def execNop (s : State) : Host.Outcome State Fault Refusal :=
  command .nop nopProc s

end Sys2Proof.Machine
end

