-- ==== Sys2Proof/Machine/Dispatch.lean ====
section
/-! DEFINITION. One arm per command. -/

namespace Sys2Proof.Machine

def exec (i : Instr) (s : State) : Host.Outcome State Fault Refusal :=
  match i with
  | .nop => Sys2Proof.Machine.execNop s
  | .reduce rd ra rn => Sys2Proof.Machine.execReduce rd ra rn s
  | .quot rd ra rn => Sys2Proof.Machine.execQuot rd ra rn s
  | .xgcd rg rx ry ra rb => Sys2Proof.Machine.execXgcd rg rx ry ra rb s
  | .invmod rd ra rn => Sys2Proof.Machine.execInvmod rd ra rn s
  | .isprime rn => Sys2Proof.Machine.execIsprime rn s
  | .mexpb rd rb re rn => Sys2Proof.Machine.execMexpb rd rb re rn s
  | .mexpw rd rb re rn => Sys2Proof.Machine.execMexpw rd rb re rn s
  | .mexpm rd rb re rn => Sys2Proof.Machine.execMexpm rd rb re rn s
  | .mctx rn => Sys2Proof.Machine.execMctx rn s
  | .mmul rd ra rb => Sys2Proof.Machine.execMmul rd ra rb s
  | .mto rd ra => Sys2Proof.Machine.execMto rd ra s
  | .mfrom rd ra => Sys2Proof.Machine.execMfrom rd ra s
  | .crtrec rd rm1 rm2 rp rq ri => Sys2Proof.Machine.execCrtrec rd rm1 rm2 rp rq ri s

end Sys2Proof.Machine
end

