-- ==== Sys2Proof/Machine/Port.lean ====
section
/-! DEFINITION. The host port: the register numbers (R61), `PortRead` and `PortWrite` (R62 to R68), and a write to `CMD`,
which executes (R32, R241). -/

namespace Sys2Proof.Machine

/-- The five context registers (R30). -/
inductive McField where
  | n | r | rmask | nprime | k
  deriving DecidableEq, Repr

/-- What a register number names (R61). -/
inductive PortReg where
  | b (i : BReg)
  | cmd | status | ctrl | seed
  | mc (f : McField)
  | reserved
  deriving DecidableEq, Repr

/-- The table of R61. -/
def portReg (r : RegNum) : PortReg :=
  if h : r.toNat < 8 then .b ⟨r.toNat, h⟩
  else
    match r.toNat with
    | 0x10 => .cmd
    | 0x11 => .status
    | 0x12 => .ctrl
    | 0x13 => .seed
    | 0x20 => .mc .n
    | 0x21 => .mc .r
    | 0x22 => .mc .rmask
    | 0x23 => .mc .nprime
    | 0x24 => .mc .k
    | _ => .reserved

/-- One field of a context (R30). -/
def MontCtx.get (c : MontCtx) : McField → Nat
  | .n => c.n
  | .r => c.r
  | .rmask => c.rmask
  | .nprime => c.nprime
  | .k => c.k

/-- `PortRead(r)` (R64, R65, R67): the value read. It changes nothing (R68), so it is a function of the engine alone. -/
def portRead (e : Engine) (r : RegNum) : Int :=
  match portReg r with
  | .b i => if e.valid i then e.reg i else 0
  | .cmd => e.cmd.toNat
  | .status => (statusWord e).toNat
  | .ctrl => (ctrlWord e).toNat
  | .seed => 0
  | .mc f => if e.mcv then (e.mc.get f : Int) else 0
  | .reserved => 0

/-- `v` is a word of `bits` bits (R65). -/
def isWord (bits : Nat) (v : Int) : Bool := decide (0 ≤ v) && decide (v < 2 ^ bits)

/-- A write of `w` to `CTRL`: with bit 31 set the reset and nothing else, else `GRPSZ` and nothing else (R28, R331). -/
def State.writeCtrl (s : State) (w : Word) : State :=
  if w.getLsbD 31 then s.resetEngine
  else { s with eng := { s.eng with grpsz := grpszStored (w.extractLsb' 0 8) } }

/-- A write of `v` to `SEED` (R29). -/
def State.writeSeed (s : State) (v : BitVec 64) : State :=
  { s with eng := { s.eng with seed := v, seedv := true } }

/-- A write of `v` to `Bi` (R63). -/
def State.writeB (s : State) (i : BReg) (v : Int) : State :=
  { s with eng := s.eng.writeReg i v }

/-- `CMD <- c` (R32). -/
def State.setCmd (s : State) (c : Word) : State := { s with eng := { s.eng with cmd := c } }

/-- `Execute(c)` (R241): `CMD` takes the word, legal or not; an illegal word ends with `IllegalCommand` (R97, R302); a legal
one runs. -/
def executeWord (s : State) (c : Word) : Host.Outcome State Fault Refusal :=
  match decode c with
  | .error _ => .next ((s.setCmd c).raiseError .illegalCommand)
  | .ok i => exec i (s.setCmd c)

/-- `PortWrite(r, v)` (R63, R65, R67, R68). A value outside the register's port type is no host action (R23, R65) and is
refused (log entry 8). -/
def portWrite (s : State) (r : RegNum) (v : Int) : Host.Outcome State Fault Refusal :=
  match portReg r with
  | .b i => if s.params.fits v then .next (s.writeB i v) else .refused .valueBeyondCapacity
  | .cmd => if isWord 32 v then executeWord s (BitVec.ofNat 32 v.toNat) else .refused .valueNotOfPortType
  | .status => if isWord 32 v then .next s else .refused .valueNotOfPortType
  | .ctrl => if isWord 32 v then .next (s.writeCtrl (BitVec.ofNat 32 v.toNat)) else .refused .valueNotOfPortType
  | .seed => if isWord 64 v then .next (s.writeSeed (BitVec.ofNat 64 v.toNat)) else .refused .valueNotOfPortType
  | .mc _ => if 0 ≤ v then .next s else .refused .valueNotOfPortType
  | .reserved => .next s

end Sys2Proof.Machine
end

