-- ==== Sys2Proof/Machine/HostMachine.lean ====
section
/-! DEFINITION. The host agent: its variables, its expressions, one operation of its program (R17, R101), and the step of the
whole system. -/

namespace Sys2Proof.Machine

/-- The value of variable `x`, if it has one. -/
def lookupVar (x : Nat) : List (Nat × Int) → Option Int
  | [] => none
  | (y, v) :: rest => if x = y then some v else lookupVar x rest

/-- `x := v`, the list kept sorted with no number twice. -/
def assignVar (x : Nat) (v : Int) : List (Nat × Int) → List (Nat × Int)
  | [] => [(x, v)]
  | (y, w) :: rest =>
    if x < y then (x, v) :: (y, w) :: rest
    else if x = y then (x, v) :: rest
    else (y, w) :: assignVar x v rest

/-- The one form of the host's variables: numbers strictly rising. -/
def varsSorted : List (Nat × Int) → Bool
  | [] => true
  | [_] => true
  | (x, _) :: (y, w) :: rest => decide (x < y) && varsSorted ((y, w) :: rest)

/-- A truth value as the number the host's conditions use. -/
def ofTruth (t : Bool) : Int := if t then 1 else 0

/-- Where R10 and R11 define a bit operation: on non-negative operands, a slice from `hi` down to `lo = b`. -/
def bitsDefined (op : Config.BitOp) (a b : Int) : Bool :=
  match op with
  | .shl | .shr | .bor => decide (0 ≤ a) && decide (0 ≤ b)
  | .slice hi => decide (0 ≤ a) && decide (0 ≤ b) && decide (b ≤ hi)

/-- The value of a bit operation where it is defined (R10, R11). -/
def bitsValue (op : Config.BitOp) (a b : Nat) : Nat :=
  match op with
  | .shl => a <<< b
  | .shr => a >>> b
  | .bor => a ||| b
  | .slice hi => (a >>> b) % 2 ^ (hi - b + 1)

/-- A bit operation of the host's library. Where R10 and R11 give it no value, a negative operand or a slice with `hi < lo`, the
host goes on with the free value `Config.openBits` (DESIGN CHOICE, log entry 24). -/
def hostBits (op : Config.BitOp) (a b : Int) : Int :=
  if bitsDefined op a b then bitsValue op a.toNat b.toNat else Config.openBits op a b

/-- The value of a host expression (R10, R11, R12). The one thing that stops it is a variable nothing assigned (log entry 9). -/
def HExpr.eval (vars : List (Nat × Int)) : HExpr → Except Refusal Int
  | .const v => .ok v
  | .var x => match lookupVar x vars with
    | some v => .ok v
    | none => .error .hostVariableUnset
  | .add a b => do return (← a.eval vars) + (← b.eval vars)
  | .sub a b => do return (← a.eval vars) - (← b.eval vars)
  | .mul a b => do return (← a.eval vars) * (← b.eval vars)
  | .shl a b => do return hostBits .shl (← a.eval vars) (← b.eval vars)
  | .shr a b => do return hostBits .shr (← a.eval vars) (← b.eval vars)
  | .bor a b => do return hostBits .bor (← a.eval vars) (← b.eval vars)
  | .slice a hi lo => do return hostBits (.slice hi) (← a.eval vars) lo
  | .eq a b => do return ofTruth (decide ((← a.eval vars) = (← b.eval vars)))
  | .lt a b => do return ofTruth (decide ((← a.eval vars) < (← b.eval vars)))
  | .le a b => do return ofTruth (decide ((← a.eval vars) ≤ (← b.eval vars)))
  | .and a b => do return ofTruth (decide ((← a.eval vars) ≠ 0) && decide ((← b.eval vars) ≠ 0))
  | .not a => do return ofTruth (decide ((← a.eval vars) = 0))

/-- The host goes on to its next operation. -/
def State.advance (s : State) : State := { s with host := { s.host with pc := s.host.pc + 1 } }

/-- The host's variable `x` takes `v`. -/
def State.setVar (s : State) (x : Nat) (v : Int) : State :=
  { s with host := { s.host with vars := assignVar x v s.host.vars } }

/-- The host goes to the first line `label l` of its program. -/
def jumpTo (s : State) (l : Nat) : Host.Outcome State Fault Refusal :=
  match s.host.prog.findIdx? (fun op => op == .label l) with
  | some k => .next { s with host := { s.host with pc := k } }
  | none => .refused .hostLabelMissing

/-- `RandBits(N)` (R262): the next supplied answer, else the free one; either way its low `N` bits, so `0 ≤ v < 2^N`
(log entry 6). -/
def State.draw (s : State) (N : Nat) : Nat × State :=
  match s.host.draws with
  | d :: rest => (d % 2 ^ N, { s with host := { s.host with draws := rest } })
  | [] => (Config.randBits s.host.drawCount N % 2 ^ N,
      { s with host := { s.host with drawCount := s.host.drawCount + 1 } })

/-- The host's program ends with `o`. -/
def State.stopHost (s : State) (o : HostOutcome) : State := { s with host := { s.host with outcome := o } }

/-- Evaluate a host expression and go on with its value. -/
def withValue (s : State) (e : HExpr) (k : Int → Host.Outcome State Fault Refusal) :
    Host.Outcome State Fault Refusal :=
  match e.eval s.host.vars with
  | .ok v => k v
  | .error r => .refused r

/-- After a port write the host goes on to its next operation (R69). -/
def thenAdvance : Host.Outcome State Fault Refusal → Host.Outcome State Fault Refusal
  | .next t => .next t.advance
  | .fault f => .fault f
  | .refused r => .refused r

/-- One operation of the host's program (R101). -/
def hostStep (op : HostOp) (s : State) : Host.Outcome State Fault Refusal :=
  match op with
  | .portRead x r => .next (s.setVar x (portRead s.eng r)).advance
  | .portWrite r e => withValue s e (fun v => thenAdvance (portWrite s r v))
  | .assign x e => withValue s e (fun v => .next (s.setVar x v).advance)
  | .label _ => .next s.advance
  | .ifGoto c l => withValue s c (fun v => if v = 0 then .next s.advance else jumpTo s l)
  | .goto l => jumpTo s l
  | .randBits x N =>
    let (v, t) := s.draw N
    .next (t.setVar x v).advance
  | .raise e => withValue s e (fun v =>
      match ErrorKind.ofCode v.toNat with
      | some k => .next (s.stopHost (.raised k))
      | none => .refused .hostRaisesNoKind)
  | .halt => .next (s.stopHost .halted)

/-- The host's pending operation: none when its program has ended or has nothing at its place. -/
def pendingOp (s : State) : Option HostOp :=
  match s.host.outcome with
  | .running => s.host.prog[s.host.pc]?
  | .halted => none
  | .raised _ => none

/-- One step of the whole system (R17): a waiting reset input first, since it lands between host actions (R332; log entry
10), else the host's pending operation. With no host action pending the state does not change (R39, R322; log entry 2). -/
def systemStep (s : State) : Host.Outcome State Fault Refusal :=
  if s.resetInput then .next { s.resetEngine with resetInput := false }
  else
    match pendingOp s with
    | some op => hostStep op s
    | none => .next s

/-- `s` with the program `p` loaded into the host and about to run (log entry 3). -/
def State.loadProgram (s : State) (p : List HostOp) : State :=
  { s with host := { s.host with prog := p, pc := 0, outcome := .running }, resetInput := false }

/-- `PortWrite(0x10, c)`: the host operation that a command line stands for (R101). -/
def writeCmd (c : Nat) : HostOp := .portWrite 0x10 (.const c)

end Sys2Proof.Machine
end

