-- ==== Sys2Proof/Machine/Step.lean ====
section
/-! DEFINITION. The step of the machine, and how one command word comes to be the next thing it runs. -/

namespace Sys2Proof.Machine

/-- One step: `systemStep`. -/
def step (s : State) : Host.Outcome State Fault Refusal := systemStep s

/-- `s` with a host program of one line, the write of the word `w` to `CMD`, so that the next step runs it. The engine has no
fetch (R25, R77): a command comes from the host, so this stands for the host's loading of that line (log entry 3). -/
def State.withFetchWord (s : State) (nbits w : Nat) : State :=
  s.loadProgram [writeCmd (w % 2 ^ nbits)]

end Sys2Proof.Machine
end

