-- ==== Sys2Proof/Machine/Message.lean ====
section
/-! DEFINITION. The message encoding, big-endian base 256 with no padding (R70, R71, R267). -/

namespace Sys2Proof.Machine

/-- `OS2I(s)`: the first byte is the most significant; the empty string is 0 (R70). -/
def os2i : List Byte → Nat
  | [] => 0
  | x :: rest => x.toNat * 256 ^ rest.length + os2i rest

/-- The length of `I2OS(v)`: `⌈bitlen(v)/8⌉` (R71). -/
def i2osLength (v : Nat) : Nat := (bitlen v + 7) / 8

/-- `I2OS(v)`: the shortest byte string for `v`; 0 is the empty string (R71). -/
def i2os (v : Nat) : List Byte :=
  (List.range (i2osLength v)).map (fun j => BitVec.ofNat 8 ((v >>> (8 * (i2osLength v - 1 - j))) &&& 0xFF))

/-- `I2OS` of any integer: not defined on negative values (R71). -/
def i2osInt (v : Int) : Option (List Byte) := if v < 0 then none else some (i2os v.toNat)

/-- A message, ciphertext or signature, "as integer or byte string" (R267). -/
inductive Message where
  | int (v : Int)
  | bytes (s : List Byte)
  deriving DecidableEq, Repr

/-- The integer a message stands for (R267). -/
def Message.toInt : Message → Int
  | .int v => v
  | .bytes s => os2i s

end Sys2Proof.Machine
end

