-- ==== Sys2Proof/Machine/HostProcs.lean ====
section
/-! DEFINITION. The host procedures of 47_host_protocol.md as programs of R101 that `step` runs: key generation, the RSA
protocol, and the key record. A procedure leaves its results in host variables and ends with `HALT`, or raises an error kind;
after every command it reads `STATUS` and raises what `ERRCODE` names when `ERR = 1` (R274). -/

namespace Sys2Proof.Machine

/-- The key of R261, held by the host; the CRT fields are optional. -/
structure RsaKey where
  n : Int
  e : Int
  d : Int
  p : Int
  q : Int
  phi : Int
  crt : Option (Int × Int × Int)
  deriving DecidableEq, Repr

/-- The invariants of the key record (R261), `crt = (dp, dq, qinv)`. -/
structure RsaKey.Invariant (k : RsaKey) : Prop where
  modulus : k.n = k.p * k.q
  distinct : k.p ≠ k.q
  totient : k.phi = (k.p - 1) * (k.q - 1)
  exponentCoprime : Int.gcd k.e k.phi = 1
  inverse : (k.e * k.d) % k.phi = 1 % k.phi
  crtFields : ∀ dp dq qinv, k.crt = some (dp, dq, qinv) →
    dp = k.d % (k.p - 1) ∧ dq = k.d % (k.q - 1) ∧ (qinv * k.q) % k.p = 1 % k.p ∧ 0 ≤ qinv ∧ qinv < k.p

/-! Host variables by number; the names are the spec's. -/

def varM : Nat := 0
def varE : Nat := 1
def varN : Nat := 2
def varD : Nat := 3
def varP : Nat := 4
def varQ : Nat := 5
def varPhi : Nat := 6
def varDp : Nat := 7
def varDq : Nat := 8
def varQinv : Nat := 9
def varC : Nat := 10
/-- The result of a procedure; for `verify`, 1 is `true` and 0 `false`. -/
def varV : Nat := 11
/-- The last `STATUS` read. -/
def varS : Nat := 12
def varTries : Nat := 13
/-- Draws of the whole second prime (log entry 12). -/
def varDrawTries : Nat := 14
def varSeed : Nat := 15
def varG : Nat := 16
def varM1 : Nat := 17
def varM2 : Nat := 18
/-- The Bezout coefficients of a gcd. -/
def varX : Nat := 19
def varY : Nat := 20
/-- The last answer of `is_probable_prime`, 1 or 0. -/
def varPrime : Nat := 21

/-! Labels by number. -/

def lblEngineError : Nat := 0
def lblTooLarge : Nat := 1
def lblTimeout : Nat := 2
def lblKeyFailure : Nat := 3
def lblFirstPrime : Nat := 4
def lblDrawAgain : Nat := 5
def lblSecondPrime : Nat := 6
def lblExponent : Nat := 7
def lblExponentFound : Nat := 8

/-- `HWR Bi, v` (R101). -/
def hwr (i : BReg) (v : HExpr) : HostOp := .portWrite (BitVec.ofNat 8 i.val) v

/-- `HRD var, Bi` (R101). -/
def hrd (x : Nat) (i : BReg) : HostOp := .portRead x (BitVec.ofNat 8 i.val)

/-- `HSEED v` (R101). -/
def hseed (v : HExpr) : HostOp := .portWrite 0x13 v

/-- `HCTRL v` (R101). -/
def hctrl (v : HExpr) : HostOp := .portWrite 0x12 v

/-- `HSTAT var` (R101). -/
def hstat (x : Nat) : HostOp := .portRead x 0x11

/-- `HMC var, field`: register number `0x20` plus the field's index (R101). -/
def hmc (x : Nat) (f : McField) : HostOp :=
  .portRead x (match f with | .n => 0x20 | .r => 0x21 | .rmask => 0x22 | .nprime => 0x23 | .k => 0x24)

/-- `HRESET` (R101). -/
def hreset : HostOp := .portWrite 0x12 (.const 0x80000000)

/-- A line with a mnemonic: the command's word written to `CMD` (R101). -/
def line (i : Instr) : HostOp := writeCmd (encode i).toNat

/-- `s[1]` of the last `STATUS` read: the command ended with an error (R246). -/
def condErr : HExpr := .slice (.var varS) 1 1

/-- `s[7:4]` of the last `STATUS` read (R246). -/
def exprErrcode : HExpr := .slice (.var varS) 7 4

/-- A command and the reading of `STATUS` after it (R274, R333 item 6). -/
def issue (i : Instr) : List HostOp := [line i, hstat varS, .ifGoto condErr lblEngineError]

/-- Where a procedure raises the kind that `ERRCODE` names (R274). -/
def engineErrorExit : List HostOp := [.label lblEngineError, .raise exprErrcode]

/-- Where a procedure raises `k`. -/
def raiseExit (l : Nat) (k : ErrorKind) : List HostOp := [.label l, .raise (.const k.code.toNat)]

/-- A cap on a retry loop: at `KEYGEN_MAX_TRIES` the host raises `KeyGenTimeout`; without a cap nothing (R264, D35). -/
def capTries (maxTries : Option Nat) (x : Nat) : List HostOp :=
  match maxTries with
  | some k => [.ifGoto (.le (.const k) (.var x)) lblTimeout]
  | none => []

/-- `x := x + d`. -/
def bump (x d : Nat) : HostOp := .assign x (.add (.var x) (.const d))

/-- `RandomCandidate(b)` on the value drawn: top bit and bottom bit set (R263). -/
def randomCandidate (b v : Nat) : Nat := v ||| (1 <<< (b - 1)) ||| 1

/-- The same as a host expression of the drawn value in `varV` (R263). -/
def candidateExpr (b : Nat) : HExpr :=
  .bor (.bor (.var varV) (.shl (.const 1) (.const ((b : Int) - 1)))) (.const 1)

/-! How the host obtains each value: the rows of R274. -/

/-- `x := reduce(a, n)` (R274). -/
def reduceInto (x : Nat) (a n : HExpr) : List HostOp :=
  [hwr 0 a, hwr 1 n] ++ issue (.reduce 2 0 1) ++ [hrd x 2]

/-- `x := quotient(a, n)` (R274). -/
def quotientInto (x : Nat) (a n : HExpr) : List HostOp :=
  [hwr 0 a, hwr 1 n] ++ issue (.quot 2 0 1) ++ [hrd x 2]

/-- `xg := gcd(a, b)` with the Bezout coefficients in `xx` and `xy` (R274). -/
def gcdInto (xg xx xy : Nat) (a b : HExpr) : List HostOp :=
  [hwr 0 a, hwr 1 b] ++ issue (.xgcd 2 3 4 0 1) ++ [hrd xg 2, hrd xx 3, hrd xy 4]

/-- `x := invmod(a, n)` (R274). -/
def invmodInto (x : Nat) (a n : HExpr) : List HostOp :=
  [hwr 0 a, hwr 1 n] ++ issue (.invmod 2 0 1) ++ [hrd x 2]

/-- `x := invmod(a, n)` where `NoInverse` becomes `KeyGenFailure` (R265, R274). -/
def invertOrFail (x : Nat) (a n : HExpr) : List HostOp :=
  [hwr 0 a, hwr 1 n, line (.invmod 2 0 1), hstat varS,
   .ifGoto (.eq exprErrcode (.const ErrorKind.noInverse.code.toNat)) lblKeyFailure, .ifGoto condErr lblEngineError, hrd x 2]

/-- `x := is_probable_prime(c)`, 1 or 0: `s[2]` of the `STATUS` read (R246, R274). -/
def isPrimeInto (x : Nat) (c : HExpr) : List HostOp :=
  [hwr 0 c] ++ issue (.isprime 0) ++ [.assign x (.slice (.var varS) 2 2)]

/-- `STRAT_PUB`: the strategies allowed for public exponentiations (R8, R268, D40; log entry 19). -/
inductive StratPub where
  | mexpb | mexpw
  deriving DecidableEq, Repr

/-- The default of `STRAT_PUB` (D40). -/
def stratPubDefault : StratPub := .mexpb

/-- `STRAT_CRT`: the strategies allowed in `decrypt_crt` (R8, R270, D40; log entry 19). -/
inductive StratCrt where
  | mexpb | mexpw | mexpm
  deriving DecidableEq, Repr

/-- The default of `STRAT_CRT` (D40). -/
def stratCrtDefault : StratCrt := .mexpm

/-- `x := mod_pow(b, e, n)` without a seed (R274). -/
def modPowPublic (st : StratPub) (x : Nat) (b e n : HExpr) : List HostOp :=
  [hwr 0 b, hwr 1 e, hwr 2 n] ++
  issue (match st with | .mexpb => .mexpb 3 0 1 2 | .mexpw => .mexpw 3 0 1 2) ++ [hrd x 3]

/-- `x := mod_pow(b, e, n)` with `MEXPM` and a fresh seed (R269, R274, R275). -/
def modPowSecret (x : Nat) (b e n : HExpr) : List HostOp :=
  [.randBits varSeed 64, hseed (.var varSeed), hwr 0 b, hwr 1 e, hwr 2 n] ++ issue (.mexpm 3 0 1 2) ++ [hrd x 3]

/-- `x := mod_pow(b, e, n)` as `STRAT_CRT` says (R270). -/
def modPowCrt (st : StratCrt) (x : Nat) (b e n : HExpr) : List HostOp :=
  match st with
  | .mexpb => modPowPublic .mexpb x b e n
  | .mexpw => modPowPublic .mexpw x b e n
  | .mexpm => modPowSecret x b e n

/-- `x := CrtRec(m1, m2, p, q, qinv)` (R274). -/
def crtRecInto (x : Nat) (m1 m2 p q qinv : HExpr) : List HostOp :=
  [hwr 0 m1, hwr 1 m2, hwr 2 p, hwr 3 q, hwr 4 qinv] ++ issue (.crtrec 5 0 1 2 3 4) ++ [hrd x 5]

/-! Sessions (R275, R337). -/

/-- One line of a session: `HRESET` goes before every end of the program, by `HALT` or by `raise`. -/
def sessionLine : HostOp → List HostOp
  | .halt => [hreset, .halt]
  | .raise e => [hreset, .raise e]
  | .portRead x r => [.portRead x r]
  | .portWrite r e => [.portWrite r e]
  | .assign x e => [.assign x e]
  | .label l => [.label l]
  | .ifGoto c l => [.ifGoto c l]
  | .goto l => [.goto l]
  | .randBits x N => [.randBits x N]

/-- The program `p` as one session: the host resets the engine when it ends, so that no key material stays in `B0` to `B7` or
`MC` (R275, R337, U16). Results are in host variables, and what `raise` reads is too. A program that handles key material is a
session of its own (log entry 25). -/
def asSession (p : List HostOp) : List HostOp := p.flatMap sessionLine

/-! Key generation. -/

/-- `x := GenPrime(b)`, its loop at label `l` (R264). -/
def genPrime (b : Nat) (maxTries : Option Nat) (x l : Nat) : List HostOp :=
  [.assign varTries (.const 0), .label l] ++ capTries maxTries varTries ++
  [bump varTries 1, .randBits varV b, .assign varC (candidateExpr b)] ++ isPrimeInto varPrime (.var varC) ++
  [.ifGoto (.not (.var varPrime)) l, .assign x (.var varC)]

/-- `e := 65537; while gcd(e, phi) ≠ 1: e := e + 2` (R265), with the cap of D35. -/
def exponentLoop (maxTries : Option Nat) : List HostOp :=
  [.assign varE (.const Config.publicExponent), .assign varTries (.const 0), .label lblExponent] ++
  gcdInto varG varX varY (.var varE) (.var varPhi) ++
  [.ifGoto (.eq (.var varG) (.const 1)) lblExponentFound] ++ capTries maxTries varTries ++
  [bump varTries 1, bump varE Config.exponentStep, .goto lblExponent, .label lblExponentFound]

/-- `p - 1` of a host variable. -/
def lessOne (x : Nat) : HExpr := .sub (.var x) (.const 1)

/-- The CRT fields of a key (R265). -/
def crtFieldOps : List HostOp :=
  reduceInto varDp (.var varD) (lessOne varP) ++ reduceInto varDq (.var varD) (lessOne varQ) ++
  invertOrFail varQinv (.var varQ) (.var varP)

/-- `keygen(bits, want_crt)` (R265). A call with odd `bits` or `bits < 2` is not one the model admits (U12), so it has no
program (log entry 13). It is a session of its own (R275). The repeated draw of the second prime is counted against the cap by a counter of its own (log
entry 12). -/
def keygenProg (maxTries : Option Nat) (bits : Nat) (wantCrt : Bool) : Option (List HostOp) :=
  if bits % 2 = 1 ∨ bits < 2 then none
  else some (asSession (
    genPrime (bits >>> 1) maxTries varP lblFirstPrime ++
    [.assign varDrawTries (.const 0), .label lblDrawAgain] ++ capTries maxTries varDrawTries ++ [bump varDrawTries 1] ++
    genPrime (bits >>> 1) maxTries varQ lblSecondPrime ++
    [.ifGoto (.eq (.var varQ) (.var varP)) lblDrawAgain,
     .assign varN (.mul (.var varP) (.var varQ)),
     .assign varPhi (.mul (lessOne varP) (lessOne varQ))] ++
    exponentLoop maxTries ++ invertOrFail varD (.var varE) (.var varPhi) ++
    (if wantCrt then crtFieldOps else []) ++ [.halt] ++
    engineErrorExit ++ raiseExit lblTimeout .keyGenTimeout ++ raiseExit lblKeyFailure .keyGenFailure))

/-- The key a finished `keygen` has left in the host's variables (R261, R265). -/
def RsaKey.ofVars (vars : List (Nat × Int)) (wantCrt : Bool) : Option RsaKey := do
  let n ← lookupVar varN vars
  let e ← lookupVar varE vars
  let d ← lookupVar varD vars
  let p ← lookupVar varP vars
  let q ← lookupVar varQ vars
  let phi ← lookupVar varPhi vars
  if wantCrt then
    let dp ← lookupVar varDp vars
    let dq ← lookupVar varDq vars
    let qinv ← lookupVar varQinv vars
    return { n, e, d, p, q, phi, crt := some (dp, dq, qinv) }
  else return { n, e, d, p, q, phi, crt := none }

/-! The protocol. -/

/-- `m := message`, and `MessageTooLarge` when `m ≥ limit` (R267). -/
def loadMessage (msg : Message) (limit : HExpr) : List HostOp :=
  [.assign varM (.const msg.toInt), .ifGoto (.le limit (.var varM)) lblTooLarge]

/-- `encrypt(message, e, n)` (R268); the result is in `varV`. -/
def encryptProg (msg : Message) (e n : Int) (st : StratPub := stratPubDefault) : List HostOp :=
  loadMessage msg (.const n) ++ modPowPublic st varV (.var varM) (.const e) (.const n) ++ [.halt] ++
  engineErrorExit ++ raiseExit lblTooLarge .messageTooLarge

/-- The body of `decrypt(c, d, n)` (R269). -/
def decryptOps (c : HExpr) (d n : Int) : List HostOp := modPowSecret varV c (.const d) (.const n)

/-- `decrypt(ciphertext, d, n)` (R269) as a session; the result is in `varV`, as bytes `i2os` of it. -/
def decryptProg (c : Message) (d n : Int) : List HostOp :=
  asSession (decryptOps (.const c.toInt) d n ++ [.halt] ++ engineErrorExit)

/-- The body of `decrypt_crt(c, p, q, dp, dq, qinv)` (R270). -/
def decryptCrtOps (st : StratCrt) (c : HExpr) (p q dp dq qinv : Int) : List HostOp :=
  modPowCrt st varM1 c (.const dp) (.const p) ++ modPowCrt st varM2 c (.const dq) (.const q) ++
  crtRecInto varV (.var varM1) (.var varM2) (.const p) (.const q) (.const qinv)

/-- `decrypt_crt(ciphertext, p, q, dp, dq, qinv)` (R270) as a session; the result is in `varV`. -/
def decryptCrtProg (c : Message) (p q dp dq qinv : Int) (st : StratCrt := stratCrtDefault) : List HostOp :=
  asSession (decryptCrtOps st (.const c.toInt) p q dp dq qinv ++ [.halt] ++ engineErrorExit)

/-- `sign(message, d, n)` (R271) as a session. -/
def signProg (msg : Message) (d n : Int) : List HostOp :=
  asSession (loadMessage msg (.const n) ++ decryptOps (.var varM) d n ++ [.halt] ++
    engineErrorExit ++ raiseExit lblTooLarge .messageTooLarge)

/-- `sign_crt(message, p, q, dp, dq, qinv)` (R271) as a session. -/
def signCrtProg (msg : Message) (p q dp dq qinv : Int) (st : StratCrt := stratCrtDefault) : List HostOp :=
  asSession (loadMessage msg (.mul (.const p) (.const q)) ++ decryptCrtOps st (.var varM) p q dp dq qinv ++ [.halt] ++
    engineErrorExit ++ raiseExit lblTooLarge .messageTooLarge)

/-- `verify(signature, message, e, n)` (R272): `varV` is 1 for `true`, 0 for `false`. -/
def verifyProg (sig msg : Message) (e n : Int) (st : StratPub := stratPubDefault) : List HostOp :=
  [.assign varM (.const msg.toInt)] ++ modPowPublic st varV (.const sig.toInt) (.const e) (.const n) ++
  [.assign varV (.eq (.var varV) (.var varM)), .halt] ++ engineErrorExit

end Sys2Proof.Machine
end

