-- ==== Sys2Proof/Safety.lean ====
section
/-! DEFINITION. What the statements are said in: the invariant of the machine, the ways a command ends, and the conditions of
the error rules. -/

namespace Sys2Proof.Machine

/-- `W` is a positive natural or infinity (R8). -/
def WPositive (p : Params) : Prop := p.w ≠ some 0

/-- Every big-integer register is within the capacity (R23). -/
def CapacityOk (s : State) : Prop := ∀ i : BReg, s.params.fits (s.eng.reg i) = true

/-- A register without a value holds 0: zeroized and not written since (R22, R38). -/
def InvalidIsZero (e : Engine) : Prop := ∀ i : BReg, e.valid i = false → e.reg i = 0

/-- A context is one of an odd modulus (R30, R31, R202). -/
structure ContextOf (c : MontCtx) : Prop where
  odd : c.n % 2 = 1
  length : c.k = bitlen c.n
  radix : c.r = 2 ^ c.k
  above : c.n < c.r
  tight : c.r ≤ 2 * c.n
  mask : c.rmask = c.r - 1
  nprimePos : 1 ≤ c.nprime
  nprimeLt : c.nprime < c.r
  nprimeInv : (c.n * c.nprime) % c.r = c.r - 1

/-- `MC` holds a context when `MCV = 1`, of a modulus within the capacity, and zeros when `MCV = 0` (R31, R38). -/
structure ContextOk (s : State) : Prop where
  held : s.eng.mcv = true → ContextOf s.eng.mc
  fits : s.params.fits s.eng.mc.n = true
  empty : s.eng.mcv = false → s.eng.mc = { n := 0, r := 0, rmask := 0, nprime := 0, k := 0 }

/-- The codes the engine reports (R300). -/
def engineCodes : List (BitVec 4) := [0, 1, 2, 3, 8, 9, 10, 11]

/-- What `STATUS` can show (R26, R27, R300). -/
structure StatusOk (e : Engine) : Prop where
  errIff : e.err = true ↔ e.errcode ≠ 0
  codes : e.errcode ∈ engineCodes
  flagMeans : e.flag = true → e.done = true ∧ e.err = false
  errMeans : e.err = true → e.done = true

/-- The invariant: it holds at reset and every step keeps it. -/
structure Inv (s : State) : Prop where
  wPositive : WPositive s.params
  capacity : CapacityOk s
  invalidZero : InvalidIsZero s.eng
  context : ContextOk s
  status : StatusOk s.eng
  grpsz : s.eng.grpsz ≠ 0
  vars : varsSorted s.host.vars = true

/-- What every command that ends without an error leaves besides its results: only the registers of `dests` and their valid
bits may differ, `STATUS` reads `DONE = 1`, `ERR = 0`, `ERRCODE = 0` and `FLAG` as given, and `SEED`, `CTRL`, `CMD`, the
host, the parameters and the reset input are as before (R240, R241). -/
structure Completed (dests : List BReg) (flag : Bool) (s t : State) : Prop where
  regs : ∀ j, j ∉ dests → t.eng.reg j = s.eng.reg j
  valid : ∀ j, t.eng.valid j = (s.eng.valid j || decide (j ∈ dests))
  done : t.eng.done = true
  err : t.eng.err = false
  errcode : t.eng.errcode = 0
  flagIs : t.eng.flag = flag
  seed : t.eng.seed = s.eng.seed
  grpsz : t.eng.grpsz = s.eng.grpsz
  cmd : t.eng.cmd = s.eng.cmd
  host : t.host = s.host
  params : t.params = s.params
  resetInput : t.resetInput = s.resetInput

/-- The implicit destinations of R240 are as before: `MC`, `MCV`, `SEEDV`, `MTRACE`. -/
structure ImplicitKept (s t : State) : Prop where
  mc : t.eng.mc = s.eng.mc
  mcv : t.eng.mcv = s.eng.mcv
  seedv : t.eng.seedv = s.eng.seedv
  mtrace : t.eng.mtrace = s.eng.mtrace

/-- `t` is `s` but for `STATUS`, which reports the error of code `c` (R306). -/
def EndsWithError (c : BitVec 4) (s t : State) : Prop :=
  t = { s with eng := { s.eng with done := true, err := true, flag := false, errcode := c } }

/-- R303: a source register, the context or the seed that the command needs holds no value. -/
def SomethingInvalid (i : Instr) (e : Engine) : Prop :=
  (∃ r, r ∈ sources i ∧ e.valid r = false) ∨
  match i with
  | .mmul .. | .mto .. | .mfrom .. => e.mcv = false
  | .mexpm .. => e.seedv = false
  | .nop | .reduce .. | .quot .. | .xgcd .. | .invmod .. | .isprime .. | .mexpb .. | .mexpw .. | .mctx ..
  | .crtrec .. => False

/-- R313: the modulus or divisor operand is zero. -/
def ZeroModulus (i : Instr) (e : Engine) : Prop :=
  match i with
  | .reduce _ _ rn | .quot _ _ rn | .invmod _ _ rn => e.reg rn = 0
  | .mexpb _ _ _ rn | .mexpw _ _ _ rn | .mexpm _ _ _ rn => e.reg rn = 0
  | .mctx rn => e.reg rn = 0
  | .crtrec _ _ _ rp _ _ => e.reg rp = 0
  | .nop | .xgcd .. | .isprime .. | .mmul .. | .mto .. | .mfrom .. => False

/-- The table of R304: a source value is outside the command's domain. -/
def OutOfRange (i : Instr) (e : Engine) : Prop :=
  match i with
  | .reduce _ ra rn | .quot _ ra rn => e.reg ra < 0 ∨ e.reg rn < 0
  | .xgcd _ _ _ ra rb => e.reg ra < 0 ∨ e.reg rb < 0
  | .invmod _ _ rn => e.reg rn < 0
  | .mexpb _ rb re rn | .mexpw _ rb re rn | .mexpm _ rb re rn => e.reg rb < 0 ∨ e.reg re < 0 ∨ e.reg rn < 0
  | .mctx rn => e.reg rn < 0
  | .mmul _ ra rb => e.reg ra < 0 ∨ e.reg rb < 0 ∨ (e.mc.n : Int) ≤ e.reg ra ∨ (e.mc.n : Int) ≤ e.reg rb
  | .mto _ ra => e.reg ra < 0
  | .mfrom _ ra => e.reg ra < 0 ∨ (e.mc.n : Int) ≤ e.reg ra
  | .crtrec _ rm1 rm2 rp rq ri =>
    e.reg rm1 < 0 ∨ e.reg rm2 < 0 ∨ e.reg rp < 0 ∨ e.reg rq < 0 ∨ e.reg ri < 0
  | .nop | .isprime .. => False

/-- R314: an even modulus given to `MCTX` or `MEXPM`. -/
def EvenModulus (i : Instr) (e : Engine) : Prop :=
  match i with
  | .mctx rn | .mexpm _ _ _ rn => e.reg rn % 2 = 0
  | .nop | .reduce .. | .quot .. | .xgcd .. | .invmod .. | .isprime .. | .mexpb .. | .mexpw .. | .mmul ..
  | .mto .. | .mfrom .. | .crtrec .. => False

/-- R315: `INVMOD` of a value that shares a factor with its modulus. -/
def NotInvertible (i : Instr) (e : Engine) : Prop :=
  match i with
  | .invmod _ ra rn => Int.gcd (e.reg ra) (e.reg rn) ≠ 1
  | .nop | .reduce .. | .quot .. | .xgcd .. | .isprime .. | .mexpb .. | .mexpw .. | .mexpm .. | .mctx ..
  | .mmul .. | .mto .. | .mfrom .. | .crtrec .. => False

/-- The indices of the `mul` events of a trace, in order (R37). -/
def mulIndices (tr : List MEvent) : List Nat :=
  tr.filterMap (fun ev => match ev with | .mul i => some i | .fold => none)

end Sys2Proof.Machine
end

