-- ==== Sys2Proof/Certificates/Slice0/Obligations.lean ====
section
/-! DEFINITION. The statements for the provers. Each docstring names the rules of spec/ it formalises. -/

open Sys2Proof Sys2Proof.Machine

/-! ### Encoding (30_encoding.md) -/

/-- R95, R97: the decoder gives back every legal command from its word, with every operand at every value; the word of a term
with two equal destinations is called illegal for that reason. -/
def Obligations.DecodeOfEncode : Prop :=
  ∀ i : Instr, decode (encode i) = if i.wellFormed then .ok i else .error .equalDestinations

/-- R91, R92, R95: a word that decodes is the word of the command it decodes to, and that command is legal. -/
def Obligations.EncodeOfDecode : Prop :=
  ∀ (w : Word) (i : Instr), decode w = .ok i → encode i = w ∧ i.WF

/-- R92: the masks of the formats, the format of each command, how many destinations and sources a format has and that they
stand in field order, a word belongs to a row exactly when `c & mask = match`, and no word belongs to two rows. -/
def Obligations.RowsAreMaskAndMatch : Prop :=
  (Format.z.mask = 0xFFFFFFFF ∧ Format.s.mask = 0xFF1FFFFF ∧ Format.ds.mask = 0xFF03FFFF ∧ Format.dss.mask = 0xFF007FFF ∧
    Format.dsss.mask = 0xFF000FFF ∧ Format.dddss.mask = 0xFF0001FF ∧ Format.dsssss.mask = 0xFF00003F) ∧
  (∀ o : Opcode, o.format = match o with
    | .nop => .z | .isprime | .mctx => .s | .mto | .mfrom => .ds | .reduce | .quot | .invmod | .mmul => .dss
    | .mexpb | .mexpw | .mexpm => .dsss | .xgcd => .dddss | .crtrec => .dsssss) ∧
  (∀ i : Instr, i.operands = destinations i ++ sources i ∧
    ((destinations i).length, (sources i).length) = match i.opcode.format with
      | .z => (0, 0) | .s => (0, 1) | .ds => (1, 1) | .dss => (1, 2) | .dsss => (1, 3) | .dddss => (3, 2)
      | .dsssss => (1, 5)) ∧
  (∀ (w : Word) (i : Instr), decode w = .ok i → w &&& i.opcode.format.mask = i.opcode.matchWord) ∧
  (∀ (w : Word) (o : Opcode), w &&& o.format.mask = o.matchWord →
    (∃ i : Instr, i.opcode = o ∧ decode w = .ok i) ∨ (o = .xgcd ∧ decode w = .error .equalDestinations)) ∧
  (∀ (w : Word) (o o' : Opcode), w &&& o.format.mask = o.matchWord → w &&& o'.format.mask = o'.matchWord → o = o')

/-- R97: the three ways to be illegal, in their order; an illegal word ends with `IllegalCommand`, reading and writing no
register; the only word that executes as a no-op is `NOP` itself; the all-ones word is illegal. -/
def Obligations.IllegalWords : Prop :=
  (∀ w : Word, decode w = .error .reservedOpcode ↔ ∀ o : Opcode, o.code ≠ w.extractLsb' 24 8) ∧
  (∀ w : Word, decode w = .error .unusedBitSet ↔
    ∃ o : Opcode, o.code = w.extractLsb' 24 8 ∧ w &&& o.format.mask ≠ o.matchWord) ∧
  (∀ w : Word, decode w = .error .equalDestinations ↔
    w &&& 0xFF0001FF = 0x20000000 ∧
      (w.extractLsb' 21 3 = w.extractLsb' 18 3 ∨ w.extractLsb' 21 3 = w.extractLsb' 15 3 ∨
        w.extractLsb' 18 3 = w.extractLsb' 15 3)) ∧
  (∀ (w : Word) (x : DecodeError) (s : State), decode w = .error x →
    ∃ t, executeWord s w = .next t ∧ EndsWithError 8 (s.setCmd w) t) ∧
  (∀ w : Word, decode w = .ok .nop ↔ w = 0) ∧
  decode 0xFFFFFFFF = .error .reservedOpcode

/-- R96: the worked encodings decode to the commands they stand for. -/
def Obligations.WorkedEncodings : Prop :=
  decode 0x00000000 = .ok .nop ∧ decode 0x10408000 = .ok (.reduce 2 0 1) ∧ decode 0x11608000 = .ok (.quot 3 0 1) ∧
  decode 0x204E0200 = .ok (.xgcd 2 3 4 0 1) ∧ decode 0x21408000 = .ok (.invmod 2 0 1) ∧
  decode 0x30000000 = .ok (.isprime 0) ∧ decode 0x4060A000 = .ok (.mexpb 3 0 1 2) ∧
  decode 0x4180A000 = .ok (.mexpw 4 0 1 2) ∧ decode 0x42A0A000 = .ok (.mexpm 5 0 1 2) ∧
  decode 0x50200000 = .ok (.mctx 1) ∧ decode 0x514E0000 = .ok (.mmul 2 3 4) ∧ decode 0x52600000 = .ok (.mto 3 0) ∧
  decode 0x53A80000 = .ok (.mfrom 5 2) ∧ decode 0x60F71500 = .ok (.crtrec 7 5 6 1 2 4)

/-! ### The step (46_system.md, 10_state.md) -/

/-- R17, R241: when the host's pending action writes a legal word to `CMD`, the step stores the word, runs the command it
decodes to, and moves the host to its next action. The host's place in its program is the model's own (log entry 1). -/
def Obligations.StepRunsDecodedCommand : Prop :=
  ∀ (s : State) (e : HExpr) (c : Word) (i : Instr), s.resetInput = false →
    pendingOp s = some (.portWrite 0x10 e) → e.eval s.host.vars = .ok (c.toNat : Int) → decode c = .ok i →
    ∃ t, exec i (s.setCmd c) = .next t ∧ step s = .next t.advance

/-- R97, R302, R241: when the word is illegal, the step stores it and ends with `IllegalCommand`, nothing else of the engine
changed, and moves the host to its next action (log entry 1). -/
def Obligations.StepOnIllegalWord : Prop :=
  ∀ (s : State) (e : HExpr) (c : Word) (x : DecodeError), s.resetInput = false →
    pendingOp s = some (.portWrite 0x10 e) → e.eval s.host.vars = .ok (c.toNat : Int) → decode c = .error x →
    ∃ t, EndsWithError 8 (s.setCmd c) t ∧ step s = .next t.advance

/-- R243: every command ends, on every state, in a next state that says so (`DONE = 1`). -/
def Obligations.EveryCommandEnds : Prop :=
  ∀ (i : Instr) (s : State), ∃ t, exec i s = .next t ∧ t.eng.done = true

/-- R306: a command word that ends with an error leaves everything as it was but `CMD` (the word) and `STATUS`
(`DONE = 1`, `ERR = 1`, `ERRCODE = code(E)`, `FLAG = 0`). -/
def Obligations.ErrorsArePrecise : Prop :=
  ∀ (s t : State) (c : Word), executeWord s c = .next t → t.eng.err = true →
    ∃ k : ErrorKind, EndsWithError k.code (s.setCmd c) t

/-- R240, R241: the frame of every command. Registers and valid bits outside its destination fields, `SEED`, `CTRL`, `CMD`,
the host and the parameters never change; no valid bit is cleared; `MC` and `MCV` change only under `MCTX` and `MEXPM`;
`SEEDV` and `MTRACE` only under `MEXPM`. The engine has no memory (R60). -/
def Obligations.CommandFrame : Prop :=
  ∀ (i : Instr) (s t : State), exec i s = .next t →
    (∀ j, j ∉ destinations i → t.eng.reg j = s.eng.reg j ∧ t.eng.valid j = s.eng.valid j) ∧
    (∀ j, s.eng.valid j = true → t.eng.valid j = true) ∧
    t.eng.seed = s.eng.seed ∧ t.eng.grpsz = s.eng.grpsz ∧ t.eng.cmd = s.eng.cmd ∧
    t.host = s.host ∧ t.params = s.params ∧ t.resetInput = s.resetInput ∧
    ((∀ rn, i ≠ .mctx rn) → (∀ rd rb re rn, i ≠ .mexpm rd rb re rn) → t.eng.mc = s.eng.mc ∧ t.eng.mcv = s.eng.mcv) ∧
    ((∀ rd rb re rn, i ≠ .mexpm rd rb re rn) → t.eng.seedv = s.eng.seedv ∧ t.eng.mtrace = s.eng.mtrace)

/-- R27: `FLAG` after a command is 1 exactly for an `ISPRIME` that completed without error and found "probably prime"; every
other command and every error clears it; no command reads it. -/
def Obligations.FlagIsIsprimeOnly : Prop :=
  (∀ (i : Instr) (s t : State), exec i s = .next t →
    (t.eng.flag = true ↔ ∃ rn, i = .isprime rn ∧ t.eng.err = false ∧ isProbablePrime (s.eng.reg rn) = true)) ∧
  (∀ (s t : State) (c : Word), executeWord s c = .next t → t.eng.flag = true →
    t.eng.err = false ∧ ∃ rn, decode c = .ok (.isprime rn)) ∧
  (∀ (i : Instr) (s : State) (b : Bool), exec i { s with eng := { s.eng with flag := b } } = exec i s)

/-- R34, R240: a command reads no big-integer register but those its source fields name: changing any other one changes nothing
else in what the command leaves, and where the command succeeds with that register as a destination it changes nothing. -/
def Obligations.CommandsReadOnlySources : Prop :=
  ∀ (i : Instr) (s t : State) (j : BReg) (v : Int), j ∉ sources i → exec i s = .next t →
    exec i { s with eng := { s.eng with b := s.eng.b.set j.val v } } =
      .next (if j ∈ destinations i ∧ t.eng.err = false then t
        else { t with eng := { t.eng with b := t.eng.b.set j.val v } })

/-- R39: the engine's state changes only by a host write to `Bi`, `CMD`, `CTRL` or `SEED` and by reset; a host read changes
nothing; with no host action pending nothing changes. That such a step answers the same state is log entry 2 (DEDUCED), and the
waiting reset input is log entry 10 (DESIGN CHOICE). -/
def Obligations.EngineChangesOnlyByHostWrites : Prop :=
  (∀ s t : State, step s = .next t → t.eng ≠ s.eng →
    s.resetInput = true ∨
    ∃ (r : RegNum) (e : HExpr), pendingOp s = some (.portWrite r e) ∧
      (r.toNat < 8 ∨ r = 0x10 ∨ r = 0x12 ∨ r = 0x13)) ∧
  (∀ (s : State) (x : Nat) (r : RegNum), s.resetInput = false → pendingOp s = some (.portRead x r) →
    ∃ t, step s = .next t ∧ t.eng = s.eng ∧ lookupVar x t.host.vars = some (portRead s.eng r)) ∧
  (∀ s : State, s.resetInput = false → pendingOp s = none → step s = .next s)

/-- R36: the open parameters are no state: no step changes them (log entries 4 and 5). -/
def Obligations.ParametersNeverChange : Prop :=
  ∀ s t : State, step s = .next t → t.params = s.params

/-- R8, R22, R23, R28, R31, R300: the invariant is kept by every step: `W` positive, registers within the capacity, registers without a value
zero, `MC` the context of an odd modulus exactly when `MCV = 1` and zeros otherwise, `STATUS` consistent with only the codes
the engine reports, a legal group size, and the host's variables in their one form (a form of the model's own). -/
def Obligations.StepKeepsInvariant : Prop :=
  ∀ s t : State, Inv s → step s = .next t → Inv t

/-- The invariant holds at reset. The host's part of the reset state and `W` there are the model's choice (log entries 3, 4). -/
def Obligations.ResetHasInvariant : Prop := Inv State.reset

/-! ### Port and control registers (10_state.md, 20_memory.md) -/

/-- R63: a host write of an admitted value to `Bi` sets the register and its valid bit and nothing else, negative values
included, and a read then gives the value; a value outside the capacity cannot be written. -/
def Obligations.PortWriteToBigRegister : Prop :=
  ∀ (s : State) (i : BReg) (v : Int),
    ((∀ w, s.params.w = some w → |v| < 2 ^ w) →
      ∃ t, portWrite s (BitVec.ofNat 8 i.val) v = .next t ∧ t.eng.reg i = v ∧ t.eng.valid i = true ∧
        (∀ j, j ≠ i → t.eng.reg j = s.eng.reg j ∧ t.eng.valid j = s.eng.valid j) ∧
        t = { s with eng := { s.eng with b := t.eng.b, bv := t.eng.bv } } ∧
        portRead t.eng (BitVec.ofNat 8 i.val) = v) ∧
    ((∃ w, s.params.w = some w ∧ 2 ^ w ≤ |v|) → ∀ t, portWrite s (BitVec.ofNat 8 i.val) v ≠ .next t)

/-- R64: a host read of `Bi` returns its value when `BV[i] = 1` and 0 when `BV[i] = 0`, and changes nothing. -/
def Obligations.PortReadOfBigRegister : Prop :=
  (∀ (e : Engine) (i : BReg), portRead e (BitVec.ofNat 8 i.val) = if e.valid i then e.reg i else 0) ∧
  (∀ (s : State) (x : Nat) (i : BReg), s.resetInput = false →
    pendingOp s = some (.portRead x (BitVec.ofNat 8 i.val)) → ∃ t, step s = .next t ∧ t.eng = s.eng)

/-- R67: a reserved register number reads 0 and ignores writes; neither is an error, and neither changes anything. That it takes
any integer is the model's choice (log entry 8): the spec gives it no value type. -/
def Obligations.ReservedNumbersReadZeroIgnoreWrites : Prop :=
  ∀ (s : State) (r : RegNum) (v : Int),
    ((0x08 ≤ r.toNat ∧ r.toNat ≤ 0x0F) ∨ (0x14 ≤ r.toNat ∧ r.toNat ≤ 0x1F) ∨ 0x25 ≤ r.toNat) →
    portRead s.eng r = 0 ∧ portWrite s r v = .next s

/-- R28, R331: a write to `CTRL` with bit 31 set resets the engine and does nothing else; with bit 31 clear it sets `GRPSZ`
from bits 7:0, 0 becoming 8, and does nothing else; `CTRL` reads `GRPSZ`, `WIN = 4` and zeros. -/
def Obligations.CtrlRegister : Prop :=
  (∀ (s : State) (w : Word), w.getLsbD 31 = true →
    portWrite s 0x12 (w.toNat : Int) = .next { s with eng := Engine.reset }) ∧
  (∀ (s : State) (w : Word), w.getLsbD 31 = false →
    portWrite s 0x12 (w.toNat : Int) =
      .next { s with eng := { s.eng with grpsz := if w.toNat % 256 = 0 then 8 else BitVec.ofNat 8 (w.toNat % 256) } }) ∧
  (∀ e : Engine, portRead e 0x12 = 0x400 + (e.grpsz.toNat : Int))

/-- R29: `SEED` is write-only, a write sets `SEEDV`; `MEXPM` requires `SEEDV = 1`, shuffles under `SEED`, and consumes the
seed on success; with an error `SEED` and `SEEDV` are as before. -/
def Obligations.SeedRegister : Prop :=
  (∀ (s : State) (v : BitVec 64),
    portWrite s 0x13 (v.toNat : Int) = .next { s with eng := { s.eng with seed := v, seedv := true } }) ∧
  (∀ e : Engine, portRead e 0x13 = 0) ∧
  (∀ (s t : State) (rd rb re rn : BReg), exec (.mexpm rd rb re rn) s = .next t →
    (s.eng.seedv = false → EndsWithError 9 s t) ∧
    (t.eng.err = true → t.eng.seed = s.eng.seed ∧ t.eng.seedv = s.eng.seedv) ∧
    (t.eng.err = false → t.eng.seedv = false ∧
      mulIndices t.eng.mtrace = (s.params.perm s.eng.seed (setBits (s.eng.reg re).toNat).length).map
        (fun j => (setBits (s.eng.reg re).toNat).getD j 0)))

/-- R26: the bits of `STATUS`, how it reads at the port, and that host writes to it are ignored. -/
def Obligations.StatusWordLayout : Prop :=
  (∀ (e : Engine) (n : Nat), (statusWord e).getLsbD n =
    if n = 0 then e.done else if n = 1 then e.err else if n = 2 then e.flag
    else if 4 ≤ n ∧ n ≤ 7 then e.errcode.getLsbD (n - 4)
    else if n = 8 then e.mcv else if n = 9 then e.seedv
    else if 16 ≤ n ∧ n ≤ 23 then e.bv.getLsbD (n - 16) else false) ∧
  (∀ e : Engine, portRead e 0x11 = ((statusWord e).toNat : Int)) ∧
  (∀ (s : State) (w : Word), portWrite s 0x11 (w.toNat : Int) = .next s) ∧
  statusWord Engine.reset = 0

/-- R30, R31, R34: the context registers read their fields when `MCV = 1` and 0 otherwise, and ignore host writes. -/
def Obligations.ContextRegistersAtThePort : Prop :=
  (∀ (e : Engine), e.mcv = true →
    portRead e 0x20 = (e.mc.n : Int) ∧ portRead e 0x21 = (e.mc.r : Int) ∧ portRead e 0x22 = (e.mc.rmask : Int) ∧
    portRead e 0x23 = (e.mc.nprime : Int) ∧ portRead e 0x24 = (e.mc.k : Int)) ∧
  (∀ (e : Engine) (r : RegNum), e.mcv = false → 0x20 ≤ r.toNat → r.toNat ≤ 0x24 → portRead e r = 0) ∧
  (∀ (s : State) (r : RegNum) (v : Nat), 0x20 ≤ r.toNat → r.toNat ≤ 0x24 → portWrite s r (v : Int) = .next s)

/-- R32: a host write of a word to `CMD` stores it and executes it, also when it is illegal; a read returns the last word
written; the reset value is 0. -/
def Obligations.CmdRegister : Prop :=
  (∀ (s : State) (c : Word), ∃ t, portWrite s 0x10 (c.toNat : Int) = .next t ∧ t.eng.cmd = c ∧
    portRead t.eng 0x10 = (c.toNat : Int) ∧
    (∀ i, decode c = .ok i → exec i (s.setCmd c) = .next t) ∧
    (∀ x, decode c = .error x → EndsWithError 8 (s.setCmd c) t)) ∧
  Engine.reset.cmd = 0

/-- R29, R37: no host read shows `MTRACE` or `SEED`. -/
def Obligations.TraceAndSeedUnreadable : Prop :=
  ∀ (e : Engine) (r : RegNum) (tr : List MEvent) (sd : BitVec 64),
    portRead { e with mtrace := tr, seed := sd } r = portRead e r

/-! ### Reset (10_state.md, 70_reset_and_hazards.md) -/

/-- R38: the value of every element of the engine after reset. -/
def Obligations.ResetValues : Prop :=
  (∀ i : BReg, State.reset.eng.reg i = 0 ∧ State.reset.eng.valid i = false) ∧
  State.reset.eng.mc = { n := 0, r := 0, rmask := 0, nprime := 0, k := 0 } ∧ State.reset.eng.mcv = false ∧
  State.reset.eng.seed = 0 ∧ State.reset.eng.seedv = false ∧ ctrlWord State.reset.eng = 0x408 ∧
  statusWord State.reset.eng = 0 ∧ State.reset.eng.cmd = 0 ∧ State.reset.eng.mtrace = []

/-- R330, R331, R332, R337: the reset input, taken between host actions, and the host's soft reset put the whole engine at its
reset values whatever it held, and every port register then reads as after reset. The host agent and the parameters are not
the engine's and stay (log entry 10). -/
def Obligations.ResetErasesEverything : Prop :=
  (∀ s : State, s.resetInput = true → step s = .next { s with eng := Engine.reset, resetInput := false }) ∧
  (∀ (s : State) (e : HExpr) (w : Word), s.resetInput = false → pendingOp s = some (.portWrite 0x12 e) →
    e.eval s.host.vars = .ok (w.toNat : Int) → w.getLsbD 31 = true →
    step s = .next ({ s with eng := Engine.reset } : State).advance) ∧
  (∀ r : RegNum, portRead Engine.reset r = if r = 0x12 then 0x408 else 0)

/-! ### Errors (60_exceptions.md) -/

/-- R303: `OperandInvalid` is reported exactly when a source register, the context for `MMUL`, `MTO`, `MFROM`, or the seed for
`MEXPM` holds no value, whatever the operand values are. -/
def Obligations.OperandInvalidExactly : Prop :=
  ∀ (i : Instr) (s t : State), i.WF → exec i s = .next t → (t.eng.errcode = 9 ↔ SomethingInvalid i s.eng)

/-- R313: with valid operands `DivisionByZero` is reported exactly when the modulus or divisor operand is 0, before any other
property of the operand values, and by no command without one. -/
def Obligations.DivisionByZeroExactly : Prop :=
  ∀ (i : Instr) (s t : State), i.WF → exec i s = .next t → ¬ SomethingInvalid i s.eng →
    (t.eng.errcode = 1 ↔ ZeroModulus i s.eng)

/-- R304: next, `OperandRange` is reported exactly on the conditions of its table. -/
def Obligations.OperandRangeExactly : Prop :=
  ∀ (i : Instr) (s t : State), i.WF → exec i s = .next t → ¬ SomethingInvalid i s.eng → ¬ ZeroModulus i s.eng →
    (t.eng.errcode = 10 ↔ OutOfRange i s.eng)

/-- R314: next, `InvalidModulus` is reported exactly for an even modulus of `MCTX` or `MEXPM`, which are then at least 2; a
zero modulus is reported as `DivisionByZero` and a negative one as `OperandRange`, both before the parity test; `MEXPB` and
`MEXPW` accept even moduli. -/
def Obligations.InvalidModulusExactly : Prop :=
  ∀ (i : Instr) (s t : State), i.WF → exec i s = .next t → ¬ SomethingInvalid i s.eng →
    (t.eng.errcode = 2 ↔ ¬ ZeroModulus i s.eng ∧ ¬ OutOfRange i s.eng ∧ EvenModulus i s.eng) ∧
    (ZeroModulus i s.eng → t.eng.errcode = 1) ∧
    (¬ ZeroModulus i s.eng → OutOfRange i s.eng → t.eng.errcode = 10)

/-- R315: next, `NoInverse` is reported exactly by `INVMOD` when the gcd of the operand and the modulus is not 1; no other
command reports it, the inverse inside the context construction included. -/
def Obligations.NoInverseExactly : Prop :=
  ∀ (i : Instr) (s t : State), i.WF → exec i s = .next t → ¬ SomethingInvalid i s.eng → ¬ ZeroModulus i s.eng →
    ¬ OutOfRange i s.eng → (t.eng.errcode = 3 ↔ NotInvertible i s.eng)

/-- R305: at write-back a result that does not fit ends with `Overflow`; only `CRTREC` can, for a positive `W`, registers
within it and a context whose modulus is within it; with `W` infinite it is never reported. -/
def Obligations.OverflowOnlyFromCrtrec : Prop :=
  (∀ (i : Instr) (s t : State), WPositive s.params → CapacityOk s → ContextOk s → exec i s = .next t →
    t.eng.errcode = 11 → ∃ rd rm1 rm2 rp rq ri, i = .crtrec rd rm1 rm2 rp rq ri) ∧
  (∀ (s : State) (rd rm1 rm2 rp rq ri : BReg) (m w : Nat),
    ¬ SomethingInvalid (.crtrec rd rm1 rm2 rp rq ri) s.eng →
    crtRec (s.eng.reg rm1) (s.eng.reg rm2) (s.eng.reg rp) (s.eng.reg rq) (s.eng.reg ri) = .ok m →
    s.params.w = some w → 2 ^ w ≤ m → ∃ t, exec (.crtrec rd rm1 rm2 rp rq ri) s = .next t ∧ EndsWithError 11 s t) ∧
  (∀ (i : Instr) (s t : State), s.params.w = none → exec i s = .next t → t.eng.errcode ≠ 11)

/-! ### Reduction and Euclid (40_reduction.md, 41_euclid.md) -/

/-- R242: the word `0x00000000` runs as `NOP`: `CMD` takes it and `STATUS` reads a success with `FLAG = 0`; nothing else. -/
def Obligations.NopOnlyRewritesStatus : Prop :=
  (∀ s : State, exec .nop s =
    .next { s with eng := { s.eng with done := true, err := false, flag := false, errcode := 0 } }) ∧
  (∀ s : State, executeWord s 0 =
    .next { s with eng := { s.eng with cmd := 0, done := true, err := false, flag := false, errcode := 0 } })

/-- R124, R125, R129: `REDUCE` leaves the remainder and `QUOT` the floor quotient, in the destination alone. -/
def Obligations.ReduceAndQuotResults : Prop :=
  ∀ (s : State) (rd ra rn : BReg), s.eng.valid ra = true → s.eng.valid rn = true → 0 ≤ s.eng.reg ra →
    0 < s.eng.reg rn → CapacityOk s →
    (∃ t, exec (.reduce rd ra rn) s = .next t ∧ t.eng.reg rd = s.eng.reg ra % s.eng.reg rn ∧
      Completed [rd] false s t ∧ ImplicitKept s t) ∧
    (∃ t, exec (.quot rd ra rn) s = .next t ∧ t.eng.reg rd = s.eng.reg ra / s.eng.reg rn ∧
      Completed [rd] false s t ∧ ImplicitKept s t)

/-- R122, R123, R126: the shift-and-subtract loops give the remainder and the floor quotient. -/
def Obligations.ShiftSubtractDivides : Prop :=
  ∀ a n : Nat, 0 < n → shiftSubtract a n = (a % n, a / n)

/-- R140, R141, R142: `XGCD` leaves the gcd and Bezout coefficients in its three destinations and nothing else. -/
def Obligations.XgcdResults : Prop :=
  ∀ (s : State) (rg rx ry ra rb : BReg), (Instr.xgcd rg rx ry ra rb).WF → s.eng.valid ra = true →
    s.eng.valid rb = true → 0 ≤ s.eng.reg ra → 0 ≤ s.eng.reg rb → WPositive s.params → CapacityOk s →
    ∃ t, exec (.xgcd rg rx ry ra rb) s = .next t ∧
      t.eng.reg rg = Int.gcd (s.eng.reg ra) (s.eng.reg rb) ∧
      s.eng.reg ra * t.eng.reg rx + s.eng.reg rb * t.eng.reg ry = t.eng.reg rg ∧
      Completed [rg, rx, ry] false s t ∧ ImplicitKept s t

/-- R142: the bounds on the Bezout coefficients, and the corner cases of its table. -/
def Obligations.XgcdCoefficientsBounded : Prop :=
  (∀ A B : Nat, 0 < (xgcdNat A B).g →
    (xgcdNat A B).x.natAbs ≤ max 1 (B / (xgcdNat A B).g) ∧ (xgcdNat A B).y.natAbs ≤ max 1 (A / (xgcdNat A B).g)) ∧
  (∀ A : Nat, xgcdNat A 0 = { g := A, x := 1, y := 0 }) ∧
  (∀ B : Nat, 0 < B → xgcdNat 0 B = { g := B, x := 0, y := 1 }) ∧
  (∀ v : Nat, 0 < v → xgcdNat v v = { g := v, x := 0, y := 1 })

/-- R144, R145: `INVMOD` leaves the inverse in `[0, n)`, for an operand of any sign, in the destination alone. -/
def Obligations.InvmodResult : Prop :=
  ∀ (s : State) (rd ra rn : BReg), s.eng.valid ra = true → s.eng.valid rn = true → 0 < s.eng.reg rn →
    Int.gcd (s.eng.reg ra) (s.eng.reg rn) = 1 → CapacityOk s →
    ∃ t, exec (.invmod rd ra rn) s = .next t ∧ 0 ≤ t.eng.reg rd ∧ t.eng.reg rd < s.eng.reg rn ∧
      (s.eng.reg ra * t.eng.reg rd) % s.eng.reg rn = 1 % s.eng.reg rn ∧
      Completed [rd] false s t ∧ ImplicitKept s t

/-! ### Primality (42_primality.md) -/

/-- R166: `ISPRIME` sets `FLAG` to the oracle's answer, for a candidate of any sign, and changes nothing but `STATUS`. -/
def Obligations.IsprimeSetsFlag : Prop :=
  ∀ (s : State) (rn : BReg), s.eng.valid rn = true →
    ∃ t, exec (.isprime rn) s = .next t ∧ Completed [] (isProbablePrime (s.eng.reg rn)) s t ∧ ImplicitKept s t

/-- R167 item 3: every prime is accepted. -/
def Obligations.PrimesAreAccepted : Prop :=
  ∀ p : Nat, p.Prime → isProbablePrime (p : Int) = true

/-- R167 items 1 and 2: below 100 the oracle is exact, negative values included, and what the filter passes is at least 101,
odd, and has no prime factor below 100. -/
def Obligations.FilterAndSmallValues : Prop :=
  (∀ n : Int, n < 100 → (isProbablePrime n = true ↔ 0 ≤ n ∧ n.toNat.Prime)) ∧
  (∀ n : Int, cheapFilter n = .pass → 101 ≤ n ∧ n % 2 = 1 ∧ ∀ p : Nat, p.Prime → p < 100 → ¬ (p : Int) ∣ n)

/-- R167 item 4: the oracle is not primality: it accepts the composite `2152302898747 = 6763·10627·29947`. -/
def Obligations.OracleAcceptsAComposite : Prop :=
  isProbablePrime 2152302898747 = true ∧ (2152302898747 : Nat) = 6763 * 10627 * 29947

/-! ### Exponentiation (43_modexp.md, 44_montgomery.md) -/

/-- R181, R182: `MEXPB` leaves `base^e mod n` in the destination alone, for every `n > 0`. -/
def Obligations.MexpbResult : Prop :=
  ∀ (s : State) (rd rb re rn : BReg), s.eng.valid rb = true → s.eng.valid re = true → s.eng.valid rn = true →
    0 ≤ s.eng.reg rb → 0 ≤ s.eng.reg re → 0 < s.eng.reg rn → CapacityOk s →
    ∃ t, exec (.mexpb rd rb re rn) s = .next t ∧
      t.eng.reg rd = s.eng.reg rb ^ (s.eng.reg re).toNat % s.eng.reg rn ∧
      Completed [rd] false s t ∧ ImplicitKept s t

/-- R184, R185, R186: `MEXPW` leaves `base^e mod n` in the destination alone, for every `n > 0`. -/
def Obligations.MexpwResult : Prop :=
  ∀ (s : State) (rd rb re rn : BReg), s.eng.valid rb = true → s.eng.valid re = true → s.eng.valid rn = true →
    0 ≤ s.eng.reg rb → 0 ≤ s.eng.reg re → 0 < s.eng.reg rn → CapacityOk s →
    ∃ t, exec (.mexpw rd rb re rn) s = .next t ∧
      t.eng.reg rd = s.eng.reg rb ^ (s.eng.reg re).toNat % s.eng.reg rn ∧
      Completed [rd] false s t ∧ ImplicitKept s t

/-- R212, R215, R216: for odd `n`, `MEXPM` leaves `base^e mod n`, whatever the permutation, the seed and the group size, the
context of `n` in `MC`, and consumes the seed; besides the destination, `MC`, `MCV`, `SEEDV` and `MTRACE` nothing changes. -/
def Obligations.MexpmResult : Prop :=
  ∀ (s : State) (rd rb re rn : BReg), s.eng.valid rb = true → s.eng.valid re = true → s.eng.valid rn = true →
    s.eng.seedv = true → 0 ≤ s.eng.reg rb → 0 ≤ s.eng.reg re → 0 < s.eng.reg rn → s.eng.reg rn % 2 = 1 →
    CapacityOk s →
    ∃ t, exec (.mexpm rd rb re rn) s = .next t ∧
      t.eng.reg rd = s.eng.reg rb ^ (s.eng.reg re).toNat % s.eng.reg rn ∧
      Completed [rd] false s t ∧ t.eng.mcv = true ∧ (t.eng.mc.n : Int) = s.eng.reg rn ∧ ContextOf t.eng.mc ∧
      t.eng.seedv = false

/-- R217: the trace of a successful `MEXPM`: one `mul(i)` for each 1 bit of the exponent, in the order of the permutation;
`⌈h/G⌉` folds, one after every `G`-th `mul` and one after the last. -/
def Obligations.TraceOfMexpm : Prop :=
  ∀ (s t : State) (rd rb re rn : BReg), s.eng.grpsz ≠ 0 → exec (.mexpm rd rb re rn) s = .next t →
    t.eng.err = false →
    (mulIndices t.eng.mtrace).Perm (setBits (s.eng.reg re).toNat) ∧
    mulIndices t.eng.mtrace = (s.params.perm s.eng.seed (setBits (s.eng.reg re).toNat).length).map
      (fun j => (setBits (s.eng.reg re).toNat).getD j 0) ∧
    t.eng.mtrace.count .fold =
      ((setBits (s.eng.reg re).toNat).length + s.eng.grpsz.toNat - 1) / s.eng.grpsz.toNat ∧
    (∀ j, j < t.eng.mtrace.length →
      (t.eng.mtrace[j]? = some .fold ↔
        j % (s.eng.grpsz.toNat + 1) = s.eng.grpsz.toNat ∨ j + 1 = t.eng.mtrace.length))

/-- R213: the permutation the engine uses is always a permutation of `0, …, h-1`, and a fitting supplied one is used. -/
def Obligations.PermIsAPermutation : Prop :=
  (∀ (p : Params) (seed : BitVec 64) (h : Nat), (p.perm seed h).Perm (List.range h)) ∧
  (∀ (w : Option Nat) (seed : BitVec 64) (l : List Nat), l.Perm (List.range l.length) →
    Params.perm { w := w, permTable := [{ seed := seed, perm := l }] } seed l.length = l)

/-- R216, R28, R336: no result depends on the seed's value, the group size or the permutation: two states that differ only in
`SEED`, `GRPSZ`, `MTRACE` and the permutation are left by every command differing only in them. -/
def Obligations.ResultsIndependentOfShuffle : Prop :=
  ∀ (i : Instr) (s t t' : State) (sd : BitVec 64) (g : BitVec 8) (tr : List MEvent) (tb : List PermEntry),
    exec i s = .next t →
    exec i { s with eng := { s.eng with seed := sd, grpsz := g, mtrace := tr }, params := { s.params with permTable := tb } }
      = .next t' →
    t' = { t with eng := { t.eng with seed := sd, grpsz := g, mtrace := t'.eng.mtrace },
                  params := { t.params with permTable := tb } }

/-- R187: square-and-multiply and sliding window return `base^e mod n` for every `n ≥ 1`; Montgomery and PSA returns the same
for odd `n`, whatever the permutations and the group size, and raises `InvalidModulus` for even `n`. -/
def Obligations.StrategiesAgree : Prop :=
  ∀ (base e n : Nat) (perm : Nat → List Nat) (G : Nat), 0 < n → (∀ h, (perm h).Perm (List.range h)) →
    expBinary base e n = .ok (base ^ e % n) ∧ expWindow base e n = .ok (base ^ e % n) ∧
    (n % 2 = 1 → ∃ r, expMont perm G base e n = .ok r ∧ r.v = base ^ e % n) ∧
    (n % 2 = 0 → expMont perm G base e n = .error .invalidModulus)

/-! ### Montgomery (44_montgomery.md) -/

/-- R201, R202, R203: `MCTX` on an odd positive modulus leaves its context in `MC` and nothing else. -/
def Obligations.MctxResult : Prop :=
  ∀ (s : State) (rn : BReg), s.eng.valid rn = true → 0 < s.eng.reg rn → s.eng.reg rn % 2 = 1 →
    ∃ t, exec (.mctx rn) s = .next t ∧ (t.eng.mc.n : Int) = s.eng.reg rn ∧ ContextOf t.eng.mc ∧ t.eng.mcv = true ∧
      t.eng.seedv = s.eng.seedv ∧ t.eng.mtrace = s.eng.mtrace ∧ Completed [] false s t

/-- R200, R204, R205, R206, R208, R209: under a valid context `MMUL` leaves the residue `u` with `u·R ≡ a·b`, `MTO` the residue
of `a·R`, `MFROM` the residue `u` with `u·R ≡ a`, modulo `MC.N`, in the destination alone. -/
def Obligations.MontgomeryCommandResults : Prop :=
  ∀ (s : State) (rd ra rb : BReg), s.eng.mcv = true → ContextOk s → s.eng.valid ra = true → 0 ≤ s.eng.reg ra →
    (∃ t, exec (.mto rd ra) s = .next t ∧ t.eng.reg rd = (s.eng.reg ra * s.eng.mc.r) % s.eng.mc.n ∧
      Completed [rd] false s t ∧ ImplicitKept s t) ∧
    (s.eng.reg ra < s.eng.mc.n →
      (∃ t, exec (.mfrom rd ra) s = .next t ∧ 0 ≤ t.eng.reg rd ∧ t.eng.reg rd < s.eng.mc.n ∧
        (t.eng.reg rd * s.eng.mc.r) % s.eng.mc.n = s.eng.reg ra ∧ Completed [rd] false s t ∧ ImplicitKept s t) ∧
      (s.eng.valid rb = true → 0 ≤ s.eng.reg rb → s.eng.reg rb < s.eng.mc.n →
        ∃ t, exec (.mmul rd ra rb) s = .next t ∧ 0 ≤ t.eng.reg rd ∧ t.eng.reg rd < s.eng.mc.n ∧
          (t.eng.reg rd * s.eng.mc.r) % s.eng.mc.n = (s.eng.reg ra * s.eng.reg rb) % s.eng.mc.n ∧
          Completed [rd] false s t ∧ ImplicitKept s t))

/-- R205: the Montgomery product is the ordinary product on images: conversion out undoes conversion in, products of images are
images of products, and the image of 1 is neutral; the product is commutative and associative on residues. -/
def Obligations.MontgomeryDomainLaws : Prop :=
  ∀ c : MontCtx, ContextOf c →
    (∀ a, fromMont c (toMont c a) = a % c.n) ∧
    (∀ u v, montMul c (toMont c u) (toMont c v) = toMont c (u * v)) ∧
    (∀ a, a < c.n → montMul c (toMont c 1) a = a) ∧
    (∀ a b, montMul c a b = montMul c b a) ∧
    (∀ a b d, a < c.n → b < c.n → d < c.n → montMul c (montMul c a b) d = montMul c a (montMul c b d))

/-! ### CRT (45_crt.md) -/

/-- R231, R232: `CRTREC` leaves `m2 + h·q` with `h = qinv·(m1 - m2) mod p` in the destination alone, also when the guarded
difference is negative, provided the result is within the capacity. -/
def Obligations.CrtrecResult : Prop :=
  ∀ (s : State) (rd rm1 rm2 rp rq ri : BReg), (∀ r, r ∈ [rm1, rm2, rp, rq, ri] → s.eng.valid r = true) →
    (∀ r, r ∈ [rm1, rm2, rp, rq, ri] → 0 ≤ s.eng.reg r) → 0 < s.eng.reg rp →
    (∀ w, s.params.w = some w →
      s.eng.reg rm2 + (s.eng.reg ri * (s.eng.reg rm1 - s.eng.reg rm2)) % s.eng.reg rp * s.eng.reg rq < 2 ^ w) →
    ∃ t, exec (.crtrec rd rm1 rm2 rp rq ri) s = .next t ∧
      t.eng.reg rd =
        s.eng.reg rm2 + (s.eng.reg ri * (s.eng.reg rm1 - s.eng.reg rm2)) % s.eng.reg rp * s.eng.reg rq ∧
      Completed [rd] false s t ∧ ImplicitKept s t

/-- R233: with `qinv·q ≡ 1 (mod p)` the recombination of the two residues of `M` is `M` modulo `p·q`. -/
def Obligations.CrtRecombinesResidues : Prop :=
  ∀ M p q qinv : Nat, 0 < p → 0 < q → qinv * q % p = 1 % p →
    crtRec ((M % p : Nat) : Int) ((M % q : Nat) : Int) p q qinv = .ok (M % (p * q))

/-! ### Host procedures (47_host_protocol.md, 20_memory.md) -/

/-- R70, R71: integers survive the message encoding; the image is the shortest string for its integer; a string survives
exactly when it is empty or its first byte is not 0; 0 is the empty string; a negative value has no encoding. -/
def Obligations.MessageEncodingRoundTrip : Prop :=
  (∀ v : Nat, os2i (i2os v) = v) ∧
  (∀ (v : Nat) (l : List Byte), os2i l = v → (i2os v).length ≤ l.length) ∧
  (∀ l : List Byte, i2os (os2i l) = l ↔ l = [] ∨ l.head? ≠ some 0) ∧
  i2os 0 = [] ∧ (∀ v : Int, v < 0 → i2osInt v = none)

/-- R263: a random candidate has exactly `b` bits and is odd, and the host expression computes it. -/
def Obligations.RandomCandidateShape : Prop :=
  ∀ (b v : Nat) (vars : List (Nat × Int)), 1 ≤ b → v < 2 ^ b →
    bitlen (randomCandidate b v) = b ∧ randomCandidate b v % 2 = 1 ∧
    (lookupVar varV vars = some (v : Int) → (candidateExpr b).eval vars = .ok (randomCandidate b v : Int))

/-- R262: a draw for `N` bits is below `2^N`, and the answers the random source supplied come in their order. -/
def Obligations.DrawsAreInRange : Prop :=
  ∀ (s t : State) (x N : Nat), s.resetInput = false → pendingOp s = some (.randBits x N) → step s = .next t →
    t.eng = s.eng ∧ (∃ v : Nat, v < 2 ^ N ∧ lookupVar x t.host.vars = some (v : Int)) ∧
    (∀ d rest, s.host.draws = d :: rest → d < 2 ^ N →
      lookupVar x t.host.vars = some (d : Int) ∧ t.host.draws = rest)

/-- R273: for a key that satisfies its invariants with `p`, `q` prime and an odd modulus (which `MEXPM` needs), decryption by
the Montgomery strategy gives back every message below `n` that was encrypted by square-and-multiply. -/
def Obligations.RsaRoundTrip : Prop :=
  ∀ (k : RsaKey) (P Q : Nat) (perm : Nat → List Nat) (G : Nat) (m : Int), k.Invariant → P.Prime → Q.Prime →
    k.p = P → k.q = Q → 0 ≤ k.e → 0 ≤ k.d → k.n % 2 = 1 → (∀ h, (perm h).Perm (List.range h)) → 0 ≤ m → m < k.n →
    ∃ c r, expBinary m k.e k.n = .ok c ∧ expMont perm G c k.d k.n = .ok r ∧ (r.v : Int) = m

/-- R230, R270, R273: for such a key with CRT fields, the recombination of the two half exponentiations equals plain
decryption of every ciphertext, whichever of `p`, `q` is larger. -/
def Obligations.CrtEqualsPlainDecryption : Prop :=
  ∀ (k : RsaKey) (P Q : Nat) (dp dq qinv : Int) (perm : Nat → List Nat) (G : Nat) (c : Int), k.Invariant → P.Prime →
    Q.Prime → k.p = P → k.q = Q → k.crt = some (dp, dq, qinv) → 0 ≤ k.d → k.n % 2 = 1 →
    (∀ h, (perm h).Perm (List.range h)) → 0 ≤ c →
    ∃ m1 m2 r, expMont perm G c dp k.p = .ok m1 ∧ expMont perm G c dq k.q = .ok m2 ∧
      expMont perm G c k.d k.n = .ok r ∧ crtRec m1.v m2.v k.p k.q qinv = .ok r.v
end

