-- ==== Sys2Proof/Laws/State.lean ====
section
/-! SUPPORT. One lemma for each field under each update of the state, so that no later proof unfolds a record update. -/

namespace Sys2Proof.Machine

section Registers
variable (e : Engine) (i j : BReg) (v : Int)

@[simp] theorem Engine.writeReg_mc : (e.writeReg i v).mc = e.mc := rfl
@[simp] theorem Engine.writeReg_mcv : (e.writeReg i v).mcv = e.mcv := rfl
@[simp] theorem Engine.writeReg_seed : (e.writeReg i v).seed = e.seed := rfl
@[simp] theorem Engine.writeReg_seedv : (e.writeReg i v).seedv = e.seedv := rfl
@[simp] theorem Engine.writeReg_grpsz : (e.writeReg i v).grpsz = e.grpsz := rfl
@[simp] theorem Engine.writeReg_done : (e.writeReg i v).done = e.done := rfl
@[simp] theorem Engine.writeReg_err : (e.writeReg i v).err = e.err := rfl
@[simp] theorem Engine.writeReg_flag : (e.writeReg i v).flag = e.flag := rfl
@[simp] theorem Engine.writeReg_errcode : (e.writeReg i v).errcode = e.errcode := rfl
@[simp] theorem Engine.writeReg_cmd : (e.writeReg i v).cmd = e.cmd := rfl
@[simp] theorem Engine.writeReg_mtrace : (e.writeReg i v).mtrace = e.mtrace := rfl

/-- Read after write: the register written holds the value, every other register what it held. -/
theorem Engine.reg_writeReg : (e.writeReg i v).reg j = if j = i then v else e.reg j := by
  simp only [Engine.reg, Engine.writeReg, Vector.getElem_set, Fin.val_inj]
  split <;> rename_i h <;> simp [h, eq_comm]

/-- The valid bit of the register written is set, every other as it was. -/
theorem Engine.valid_writeReg : (e.writeReg i v).valid j = (e.valid j || decide (j = i)) := by
  have hj := j.isLt
  simp only [Engine.valid, Engine.writeReg, BitVec.getLsbD_or, BitVec.getLsbD_shiftLeft, BitVec.getLsbD_one]
  congr 1
  rcases Decidable.em (j = i) with rfl | h
  · simp
  · have : j.val ≠ i.val := fun h' => h (Fin.ext h')
    simp [h]
    omega

@[simp] theorem Engine.reg_writeReg_self : (e.writeReg i v).reg i = v := by simp [Engine.reg_writeReg]
@[simp] theorem Engine.valid_writeReg_self : (e.writeReg i v).valid i = true := by simp [Engine.valid_writeReg]

end Registers

section Writes
variable (e : Engine) (ws : List (BReg × Int)) (w : BReg × Int)

@[simp] theorem Engine.writeRegs_nil : e.writeRegs [] = e := rfl
@[simp] theorem Engine.writeRegs_cons : e.writeRegs (w :: ws) = (e.writeReg w.1 w.2).writeRegs ws := rfl

/-- Writing registers touches nothing of the engine but registers and valid bits. -/
theorem Engine.writeRegs_rest : e.writeRegs ws = { e with b := (e.writeRegs ws).b, bv := (e.writeRegs ws).bv } := by
  induction ws generalizing e with
  | nil => rfl
  | cons w ws ih => rw [Engine.writeRegs_cons]; exact ih _

@[simp] theorem Engine.writeRegs_mc : (e.writeRegs ws).mc = e.mc := by rw [Engine.writeRegs_rest]
@[simp] theorem Engine.writeRegs_mcv : (e.writeRegs ws).mcv = e.mcv := by rw [Engine.writeRegs_rest]
@[simp] theorem Engine.writeRegs_seed : (e.writeRegs ws).seed = e.seed := by rw [Engine.writeRegs_rest]
@[simp] theorem Engine.writeRegs_seedv : (e.writeRegs ws).seedv = e.seedv := by rw [Engine.writeRegs_rest]
@[simp] theorem Engine.writeRegs_grpsz : (e.writeRegs ws).grpsz = e.grpsz := by rw [Engine.writeRegs_rest]
@[simp] theorem Engine.writeRegs_cmd : (e.writeRegs ws).cmd = e.cmd := by rw [Engine.writeRegs_rest]
@[simp] theorem Engine.writeRegs_mtrace : (e.writeRegs ws).mtrace = e.mtrace := by rw [Engine.writeRegs_rest]

/-- A register that no write names keeps its value. -/
theorem Engine.reg_writeRegs_of_not_mem (j : BReg) (h : ∀ w ∈ ws, w.1 ≠ j) : (e.writeRegs ws).reg j = e.reg j := by
  induction ws generalizing e with
  | nil => rfl
  | cons w ws ih =>
    rw [Engine.writeRegs_cons, ih _ (fun x hx => h x (List.mem_cons_of_mem _ hx)), Engine.reg_writeReg,
      if_neg (Ne.symm (h w List.mem_cons_self))]

/-- The valid bits after several writes. -/
theorem Engine.valid_writeRegs (j : BReg) :
    (e.writeRegs ws).valid j = (e.valid j || decide (j ∈ ws.map Prod.fst)) := by
  induction ws generalizing e with
  | nil => simp
  | cons w ws ih =>
    rw [Engine.writeRegs_cons, ih, Engine.valid_writeReg]
    rw [Bool.or_assoc, ← Bool.decide_or, List.map_cons]
    simp only [List.mem_cons]

end Writes

section Finish
variable (e : Engine) (k : Option ErrorKind) (a : Bool) (j : BReg)

@[simp] theorem Engine.finish_b : (e.finish k a).b = e.b := rfl
@[simp] theorem Engine.finish_bv : (e.finish k a).bv = e.bv := rfl
@[simp] theorem Engine.finish_reg : (e.finish k a).reg j = e.reg j := rfl
@[simp] theorem Engine.finish_valid : (e.finish k a).valid j = e.valid j := rfl
@[simp] theorem Engine.finish_mc : (e.finish k a).mc = e.mc := rfl
@[simp] theorem Engine.finish_mcv : (e.finish k a).mcv = e.mcv := rfl
@[simp] theorem Engine.finish_seed : (e.finish k a).seed = e.seed := rfl
@[simp] theorem Engine.finish_seedv : (e.finish k a).seedv = e.seedv := rfl
@[simp] theorem Engine.finish_grpsz : (e.finish k a).grpsz = e.grpsz := rfl
@[simp] theorem Engine.finish_cmd : (e.finish k a).cmd = e.cmd := rfl
@[simp] theorem Engine.finish_mtrace : (e.finish k a).mtrace = e.mtrace := rfl
@[simp] theorem Engine.finish_done : (e.finish k a).done = true := rfl
@[simp] theorem Engine.finish_err : (e.finish k a).err = k.isSome := rfl
@[simp] theorem Engine.finish_flag : (e.finish k a).flag = (k.isNone && a) := rfl
@[simp] theorem Engine.finish_errcode : (e.finish k a).errcode = errcodeOf k := rfl

end Finish

section Apply
variable (e : Engine) (f : Effect) (j : BReg)

@[simp] theorem Engine.apply_b : (e.apply f).b = (e.writeRegs f.writes).b := rfl
@[simp] theorem Engine.apply_bv : (e.apply f).bv = (e.writeRegs f.writes).bv := rfl
@[simp] theorem Engine.apply_reg : (e.apply f).reg j = (e.writeRegs f.writes).reg j := rfl
@[simp] theorem Engine.apply_valid : (e.apply f).valid j = (e.writeRegs f.writes).valid j := rfl
@[simp] theorem Engine.apply_mc : (e.apply f).mc = f.ctx.getD e.mc := by simp [Engine.apply]
@[simp] theorem Engine.apply_mcv : (e.apply f).mcv = (e.mcv || f.ctx.isSome) := by simp [Engine.apply]
@[simp] theorem Engine.apply_seed : (e.apply f).seed = e.seed := by simp [Engine.apply]
@[simp] theorem Engine.apply_seedv : (e.apply f).seedv = (e.seedv && !f.consumeSeed) := by simp [Engine.apply]
@[simp] theorem Engine.apply_grpsz : (e.apply f).grpsz = e.grpsz := by simp [Engine.apply]
@[simp] theorem Engine.apply_cmd : (e.apply f).cmd = e.cmd := by simp [Engine.apply]
@[simp] theorem Engine.apply_mtrace : (e.apply f).mtrace = f.trace.getD e.mtrace := by simp [Engine.apply]

end Apply

section Whole
variable (s : State) (k : ErrorKind) (f : Effect) (c : Word) (i : BReg) (x : Nat) (v : Int) (o : HostOutcome)

@[simp] theorem State.raiseError_eng : (s.raiseError k).eng = s.eng.finish (some k) false := rfl
@[simp] theorem State.raiseError_host : (s.raiseError k).host = s.host := rfl
@[simp] theorem State.raiseError_params : (s.raiseError k).params = s.params := rfl
@[simp] theorem State.raiseError_resetInput : (s.raiseError k).resetInput = s.resetInput := rfl
@[simp] theorem State.complete_eng : (s.complete f).eng = (s.eng.apply f).finish none f.answer := rfl
@[simp] theorem State.complete_host : (s.complete f).host = s.host := rfl
@[simp] theorem State.complete_params : (s.complete f).params = s.params := rfl
@[simp] theorem State.complete_resetInput : (s.complete f).resetInput = s.resetInput := rfl
@[simp] theorem State.setCmd_eng : (s.setCmd c).eng = { s.eng with cmd := c } := rfl
@[simp] theorem State.setCmd_host : (s.setCmd c).host = s.host := rfl
@[simp] theorem State.setCmd_params : (s.setCmd c).params = s.params := rfl
@[simp] theorem State.setCmd_resetInput : (s.setCmd c).resetInput = s.resetInput := rfl
@[simp] theorem State.writeB_eng : (s.writeB i v).eng = s.eng.writeReg i v := rfl
@[simp] theorem State.writeB_host : (s.writeB i v).host = s.host := rfl
@[simp] theorem State.writeB_params : (s.writeB i v).params = s.params := rfl
@[simp] theorem State.writeB_resetInput : (s.writeB i v).resetInput = s.resetInput := rfl
@[simp] theorem State.resetEngine_eng : s.resetEngine.eng = Engine.reset := rfl
@[simp] theorem State.resetEngine_host : s.resetEngine.host = s.host := rfl
@[simp] theorem State.resetEngine_params : s.resetEngine.params = s.params := rfl
@[simp] theorem State.resetEngine_resetInput : s.resetEngine.resetInput = s.resetInput := rfl
@[simp] theorem State.writeSeed_host (q : BitVec 64) : (s.writeSeed q).host = s.host := rfl
@[simp] theorem State.writeSeed_params (q : BitVec 64) : (s.writeSeed q).params = s.params := rfl
@[simp] theorem State.writeSeed_resetInput (q : BitVec 64) : (s.writeSeed q).resetInput = s.resetInput := rfl
@[simp] theorem State.writeCtrl_host : (s.writeCtrl c).host = s.host := by unfold State.writeCtrl; split <;> rfl
@[simp] theorem State.writeCtrl_params : (s.writeCtrl c).params = s.params := by unfold State.writeCtrl; split <;> rfl
@[simp] theorem State.writeCtrl_resetInput : (s.writeCtrl c).resetInput = s.resetInput := by
  unfold State.writeCtrl; split <;> rfl
@[simp] theorem State.advance_eng : s.advance.eng = s.eng := rfl
@[simp] theorem State.advance_params : s.advance.params = s.params := rfl
@[simp] theorem State.advance_resetInput : s.advance.resetInput = s.resetInput := rfl
@[simp] theorem State.advance_vars : s.advance.host.vars = s.host.vars := rfl
@[simp] theorem State.advance_pc : s.advance.host.pc = s.host.pc + 1 := rfl
@[simp] theorem State.advance_prog : s.advance.host.prog = s.host.prog := rfl
@[simp] theorem State.advance_outcome : s.advance.host.outcome = s.host.outcome := rfl
@[simp] theorem State.setVar_eng : (s.setVar x v).eng = s.eng := rfl
@[simp] theorem State.setVar_params : (s.setVar x v).params = s.params := rfl
@[simp] theorem State.setVar_resetInput : (s.setVar x v).resetInput = s.resetInput := rfl
@[simp] theorem State.setVar_vars : (s.setVar x v).host.vars = assignVar x v s.host.vars := rfl
@[simp] theorem State.setVar_prog : (s.setVar x v).host.prog = s.host.prog := rfl
@[simp] theorem State.setVar_pc : (s.setVar x v).host.pc = s.host.pc := rfl
@[simp] theorem State.setVar_outcome : (s.setVar x v).host.outcome = s.host.outcome := rfl
@[simp] theorem State.stopHost_eng : (s.stopHost o).eng = s.eng := rfl
@[simp] theorem State.stopHost_params : (s.stopHost o).params = s.params := rfl
@[simp] theorem State.stopHost_resetInput : (s.stopHost o).resetInput = s.resetInput := rfl
@[simp] theorem State.stopHost_vars : (s.stopHost o).host.vars = s.host.vars := rfl
@[simp] theorem State.stopHost_outcome : (s.stopHost o).host.outcome = o := rfl

end Whole

end Sys2Proof.Machine
end

