-- ==== Sys2Proof/Laws/Ops.lean ====
section
/-! SUPPORT. What the shared operations can do, said once: `State.execute` (R241), `exec`, `PortWrite`, `hostStep`, `step`. -/

namespace Sys2Proof.Machine

/-- The three ways a command with valid operands ends, and the one with an invalid operand (R241). -/
theorem State.execute_cases (s : State) (i : Instr) (compute : State → Except ErrorKind Effect) :
    (operandsValid i s.eng = false ∧ s.execute i compute = s.raiseError .operandInvalid) ∨
    (operandsValid i s.eng = true ∧ ∃ k, compute s = .error k ∧ s.execute i compute = s.raiseError k) ∨
    (operandsValid i s.eng = true ∧ ∃ f, compute s = .ok f ∧ f.fits s.params = false ∧
      s.execute i compute = s.raiseError .overflow) ∨
    (operandsValid i s.eng = true ∧ ∃ f, compute s = .ok f ∧ f.fits s.params = true ∧
      s.execute i compute = s.complete f) := by
  unfold State.execute
  cases hv : operandsValid i s.eng
  · exact .inl ⟨rfl, by simp⟩
  · refine .inr ?_
    cases hc : compute s with
    | error k => exact .inl ⟨rfl, k, rfl, by simp⟩
    | ok f =>
      cases hf : f.fits s.params
      · exact .inr (.inl ⟨rfl, f, rfl, hf, by simp [hf]⟩)
      · exact .inr (.inr ⟨rfl, f, rfl, hf, by simp [hf]⟩)

/-- A command whose operands are valid and whose procedure's values fit completes with its effect. -/
theorem State.execute_ok {s : State} {i : Instr} {compute : State → Except ErrorKind Effect} {f : Effect}
    (hv : operandsValid i s.eng = true) (hc : compute s = .ok f) (hf : f.fits s.params = true) :
    s.execute i compute = s.complete f := by
  simp [State.execute, hv, hc, hf]

/-- A command whose operands are valid and whose procedure raises ends with that error. -/
theorem State.execute_error {s : State} {i : Instr} {compute : State → Except ErrorKind Effect} {k : ErrorKind}
    (hv : operandsValid i s.eng = true) (hc : compute s = .error k) :
    s.execute i compute = s.raiseError k := by
  simp [State.execute, hv, hc]

/-- A command with an invalid operand ends with `OperandInvalid`. -/
theorem State.execute_invalid {s : State} {i : Instr} {compute : State → Except ErrorKind Effect}
    (hv : operandsValid i s.eng = false) : s.execute i compute = s.raiseError .operandInvalid := by
  simp [State.execute, hv]

/-- The procedure of each command, as `exec` hands it to `State.execute`. -/
def procedure (i : Instr) : State → Except ErrorKind Effect :=
  match i with
  | .nop => nopProc
  | .reduce rd ra rn => reduceProc rd ra rn
  | .quot rd ra rn => quotProc rd ra rn
  | .xgcd rg rx ry ra rb => xgcdProc rg rx ry ra rb
  | .invmod rd ra rn => invmodProc rd ra rn
  | .isprime rn => isprimeProc rn
  | .mexpb rd rb re rn => mexpbProc rd rb re rn
  | .mexpw rd rb re rn => mexpwProc rd rb re rn
  | .mexpm rd rb re rn => mexpmProc rd rb re rn
  | .mctx rn => mctxProc rn
  | .mmul rd ra rb => mmulProc rd ra rb
  | .mto rd ra => mtoProc rd ra
  | .mfrom rd ra => mfromProc rd ra
  | .crtrec rd rm1 rm2 rp rq ri => crtrecProc rd rm1 rm2 rp rq ri

/-- Every command is `State.execute` of its procedure; a term of `XGCD` with equal destinations is an illegal command. -/
theorem exec_eq (i : Instr) (s : State) :
    exec i s = .next (if i.wellFormed then s.execute i (procedure i) else s.raiseError .illegalCommand) := by
  cases i with
  | xgcd rg rx ry ra rb =>
    show execXgcd rg rx ry ra rb s = _
    unfold execXgcd command
    split <;> rfl
  | _ => rfl

/-- A well-formed command's `exec`. -/
theorem exec_wellFormed {i : Instr} (h : i.WF) (s : State) : exec i s = .next (s.execute i (procedure i)) := by
  rw [exec_eq, if_pos h]

/-- What a successful procedure writes: its command's destinations and nothing else (R240). -/
theorem procedure_writes {i : Instr} {s : State} {f : Effect} (h : procedure i s = .ok f) :
    f.writes.map Prod.fst = destinations i := by
  cases i <;> simp only [procedure, nopProc, reduceProc, quotProc, xgcdProc, invmodProc, isprimeProc, mexpbProc, mexpwProc,
      mexpmProc, mctxProc, mmulProc, mtoProc, mfromProc, crtrecProc, bind, Except.bind, pure, Except.pure] at h <;>
    (repeat' split at h) <;> simp only [reduceCtorEq, Except.ok.injEq] at h <;> subst h <;> rfl

/-- The answer of `PortWrite`, register by register (R61, R63, R65, R67). -/
theorem portWrite_next {s t : State} {r : RegNum} {v : Int} (h : portWrite s r v = .next t) :
    (∃ i, portReg r = .b i ∧ s.params.fits v = true ∧ t = s.writeB i v) ∨
    (portReg r = .cmd ∧ executeWord s (BitVec.ofNat 32 v.toNat) = .next t) ∨
    (portReg r = .ctrl ∧ t = s.writeCtrl (BitVec.ofNat 32 v.toNat)) ∨
    (portReg r = .seed ∧ t = s.writeSeed (BitVec.ofNat 64 v.toNat)) ∨
    t = s := by
  unfold portWrite at h
  cases hr : portReg r <;> simp only [hr] at h <;> (try split at h) <;> simp_all

/-- A word written to `CMD` always ends in a next state: an illegal word as an illegal command, a legal one as its command. -/
theorem executeWord_cases (s : State) (c : Word) :
    (∃ x, decode c = .error x ∧ executeWord s c = .next ((s.setCmd c).raiseError .illegalCommand)) ∨
    (∃ i, decode c = .ok i ∧ executeWord s c = exec i (s.setCmd c)) := by
  unfold executeWord
  cases decode c with
  | error x => exact .inl ⟨x, rfl, rfl⟩
  | ok i => exact .inr ⟨i, rfl, rfl⟩

/-- The step: a waiting reset input, the host's pending operation, or nothing (R17, R39, R332). -/
theorem step_cases (s : State) :
    (s.resetInput = true ∧ step s = .next { s.resetEngine with resetInput := false }) ∨
    (s.resetInput = false ∧ ∃ op, pendingOp s = some op ∧ step s = hostStep op s) ∨
    (s.resetInput = false ∧ pendingOp s = none ∧ step s = .next s) := by
  unfold step systemStep
  cases s.resetInput
  · refine .inr ?_
    cases pendingOp s with
    | none => exact .inr ⟨rfl, rfl, by simp⟩
    | some op => exact .inl ⟨rfl, op, rfl, by simp⟩
  · exact .inl ⟨rfl, by simp⟩

/-- A jump that answers a next state has moved the host's place alone. -/
theorem jumpTo_next {s t : State} {l : Nat} (h : jumpTo s l = .next t) :
    ∃ k, t = { s with host := { s.host with pc := k } } := by
  unfold jumpTo at h
  split at h
  · exact ⟨_, by simpa using h.symm⟩
  · simp at h

/-- What one host operation can do when it answers a next state. -/
theorem hostStep_next {op : HostOp} {s t : State} (h : hostStep op s = .next t) :
    (∃ r v u, (∃ e, op = .portWrite r e ∧ e.eval s.host.vars = .ok v) ∧ portWrite s r v = .next u ∧ t = u.advance) ∨
    (∃ x v u, t = (u.setVar x v).advance ∧ (u = s ∨ ∃ N, u = (s.draw N).2)) ∨
    (∃ k, t = { s with host := { s.host with pc := k } }) ∨
    (∃ o, t = s.stopHost o) := by
  cases op with
  | portRead x r => exact .inr (.inl ⟨x, _, s, by simpa [hostStep] using h.symm, .inl rfl⟩)
  | portWrite r e =>
    unfold hostStep withValue at h
    cases he : e.eval s.host.vars with
    | error q => simp [he] at h
    | ok v =>
      simp only [he] at h
      cases hp : portWrite s r v with
      | next u =>
        simp only [hp, thenAdvance, Host.Outcome.next.injEq] at h
        exact .inl ⟨r, v, u, ⟨e, rfl, he⟩, hp, h.symm⟩
      | fault f => exact nomatch f
      | refused q => simp [hp, thenAdvance] at h
  | assign x e =>
    unfold hostStep withValue at h
    cases he : e.eval s.host.vars with
    | error q => simp [he] at h
    | ok v => exact .inr (.inl ⟨x, v, s, by simpa [he] using h.symm, .inl rfl⟩)
  | label l => exact .inr (.inr (.inl ⟨s.host.pc + 1, by simpa [hostStep, State.advance] using h.symm⟩))
  | ifGoto c l =>
    unfold hostStep withValue at h
    cases he : c.eval s.host.vars with
    | error q => simp [he] at h
    | ok v =>
      simp only [he] at h
      split at h
      · exact .inr (.inr (.inl ⟨s.host.pc + 1, by simpa [State.advance] using h.symm⟩))
      · exact .inr (.inr (.inl (jumpTo_next h)))
  | goto l => exact .inr (.inr (.inl (jumpTo_next h)))
  | randBits x N => exact .inr (.inl ⟨x, _, (s.draw N).2, by simpa [hostStep] using h.symm, .inr ⟨N, rfl⟩⟩)
  | raise e =>
    unfold hostStep withValue at h
    cases he : e.eval s.host.vars with
    | error q => simp [he] at h
    | ok v =>
      simp only [he] at h
      split at h
      · exact .inr (.inr (.inr ⟨_, by simpa using h.symm⟩))
      · simp at h
  | halt => exact .inr (.inr (.inr ⟨.halted, by simpa [hostStep] using h.symm⟩))

/-- A draw touches the host's supply of answers alone. -/
theorem State.draw_keeps (s : State) (N : Nat) :
    (s.draw N).2.eng = s.eng ∧ (s.draw N).2.params = s.params ∧ (s.draw N).2.resetInput = s.resetInput ∧
    (s.draw N).2.host.vars = s.host.vars ∧ (s.draw N).2.host.prog = s.host.prog ∧ (s.draw N).2.host.pc = s.host.pc := by
  unfold State.draw
  split <;> simp

end Sys2Proof.Machine
end

