-- ==== Sys2Proof/Laws/Arith.lean ====
section
/-! SUPPORT. The arithmetic of the procedures' parts: `bitlen`, `Norm`, the domain tests, the capacity. -/

namespace Sys2Proof.Machine

@[simp] theorem bitlen_zero : bitlen 0 = 0 := rfl

/-- `v < 2^bitlen(v)` (R11). -/
theorem lt_two_pow_bitlen (v : Nat) : v < 2 ^ bitlen v := by
  unfold bitlen
  split
  · simp_all
  · exact Nat.lt_log2_self

/-- `2^(bitlen(v)-1) ≤ v` for `v > 0` (R11). -/
theorem two_pow_bitlen_le {v : Nat} (h : v ≠ 0) : 2 ^ (bitlen v - 1) ≤ v := by
  unfold bitlen
  rw [if_neg h, Nat.add_sub_cancel]
  exact Nat.log2_self_le h

/-- Bits at and above `bitlen(v)` are 0. -/
theorem testBit_of_bitlen_le {v i : Nat} (h : bitlen v ≤ i) : v.testBit i = false :=
  Nat.testBit_lt_two_pow (lt_of_lt_of_le (lt_two_pow_bitlen v) (Nat.pow_le_pow_right (by decide) h))

/-- `Norm(A, n)` is the residue of `A` in `[0, n)`. -/
theorem normMod_eq (A : Int) {n : Nat} (hn : 0 < n) : (normMod A n : Int) = A % n := by
  unfold normMod
  split
  · rename_i h
    rw [Int.natCast_mod, Int.toNat_of_nonneg h]
  · rename_i h
    have hA : A = -((-A).toNat : Int) := by omega
    generalize (-A).toNat = m at hA ⊢
    subst hA
    simp only []
    have hn' : (0 : Int) < n := by exact_mod_cast hn
    have hlt : m % n < n := Nat.mod_lt m hn
    have hdiv : (m : Int) = n * ((m / n : Nat) : Int) + ((m % n : Nat) : Int) := by
      exact_mod_cast (Nat.div_add_mod m n).symm
    split
    · rename_i h0
      rw [h0] at hdiv
      have : -(m : Int) = n * (-((m / n : Nat) : Int)) := by rw [hdiv]; ring
      rw [this, Int.mul_emod_right]; rfl
    · rename_i h0
      have hr : -(m : Int) = (((n - m % n : Nat)) : Int) + n * (-((m / n : Nat) : Int) - 1) := by
        rw [Nat.cast_sub hlt.le]
        generalize ((m / n : Nat) : Int) = a at hdiv ⊢
        generalize ((m % n : Nat) : Int) = b at hdiv ⊢
        rw [hdiv]
        ring
      rw [hr, Int.add_mul_emod_self_left, Int.emod_eq_of_lt (by positivity) (by omega)]

/-- The value of `Norm` is below the modulus. -/
theorem normMod_lt (A : Int) {n : Nat} (hn : 0 < n) : normMod A n < n := by
  have h := normMod_eq A hn
  have : A % n < n := Int.emod_lt_of_pos A (by exact_mod_cast hn)
  omega

/-- `Reduce` on its domain (R129). -/
theorem reduce_ok {a n : Int} (ha : 0 ≤ a) (hn : 0 < n) : Machine.reduce a n = .ok (a.toNat % n.toNat) := by
  have h1 : ¬ n = 0 := by omega
  have h2 : ¬ (a < 0 ∨ n < 0) := by omega
  simp [Machine.reduce, checkDivision, h1, h2, bind, Except.bind, pure, Except.pure]

/-- `Quotient` on its domain (R129). -/
theorem quotient_ok {a n : Int} (ha : 0 ≤ a) (hn : 0 < n) : quotient a n = .ok (a.toNat / n.toNat) := by
  have h1 : ¬ n = 0 := by omega
  have h2 : ¬ (a < 0 ∨ n < 0) := by omega
  simp [quotient, checkDivision, h1, h2, bind, Except.bind, pure, Except.pure]

/-- `ExpChecks` on its domain (R180). -/
theorem expChecks_ok {b e n : Int} (hb : 0 ≤ b) (he : 0 ≤ e) (hn : 0 < n) : expChecks b e n = .ok () := by
  have h1 : ¬ n = 0 := by omega
  have h2 : ¬ (b < 0 ∨ e < 0 ∨ n < 0) := by omega
  simp [expChecks, h1, h2]

/-- A value no larger in size than one within the capacity is within it (R23). -/
theorem Params.fits_of_le {p : Params} {u v : Int} (hv : p.fits v = true) (h : u.natAbs ≤ v.natAbs) :
    p.fits u = true := by
  unfold Params.fits at *
  split at hv
  · simp_all
  · simp_all; omega

/-- Zero is within every capacity (R23). -/
@[simp] theorem Params.fits_zero (p : Params) : p.fits 0 = true := by
  unfold Params.fits
  split <;> simp

end Sys2Proof.Machine
end

