-- ==== Sys2Proof/Laws/Decode.lean ====
section
/-! SUPPORT. The field layout of a command word both ways (R91), and the mask of a packed word (R92). -/

namespace Sys2Proof

@[simp] theorem fieldsOf_packWord (f : CmdFields) : fieldsOf (packWord f) = f := by
  cases f
  simp only [fieldsOf, packWord, CmdFields.mk.injEq]
  refine ⟨?_, ?_, ?_, ?_, ?_, ?_, ?_, ?_⟩ <;> (ext i hi; simp; grind)

@[simp] theorem packWord_fieldsOf (w : Word) : packWord (fieldsOf w) = w := by
  unfold fieldsOf packWord
  ext i hi
  simp only [BitVec.getElem_append, BitVec.getElem_extractLsb']
  grind

/-- A word is its fields. -/
theorem packWord_injective {f g : CmdFields} (h : packWord f = packWord g) : f = g := by
  have := congrArg fieldsOf h
  simpa using this

/-- Masking a word masks its fields. -/
theorem packWord_and (f g : CmdFields) : packWord f &&& packWord g =
    packWord { opc := f.opc &&& g.opc, f1 := f.f1 &&& g.f1, f2 := f.f2 &&& g.f2, f3 := f.f3 &&& g.f3,
               f4 := f.f4 &&& g.f4, f5 := f.f5 &&& g.f5, f6 := f.f6 &&& g.f6, rsv := f.rsv &&& g.rsv } := by
  unfold packWord
  ext i hi
  simp only [BitVec.getElem_and, BitVec.getElem_append]
  grind

/-- The field of the mask at a place the format uses (0) or leaves unused (7). -/
def Format.unusedField (used : Bool) : BitVec 3 := if used then 0 else 7

/-- How many register fields a format uses (R92). -/
def Format.count : Format → Nat
  | .z => 0
  | .s => 1
  | .ds => 2
  | .dss => 3
  | .dsss => 4
  | .dddss => 5
  | .dsssss => 6

/-- The mask of R92 by fields: the opcode and the reserved bits whole, a used field not at all, an unused field whole. -/
theorem Format.mask_eq (m : Format) : m.mask =
    packWord { opc := 0xFF, f1 := Format.unusedField (0 < m.count), f2 := Format.unusedField (1 < m.count),
               f3 := Format.unusedField (2 < m.count), f4 := Format.unusedField (3 < m.count),
               f5 := Format.unusedField (4 < m.count), f6 := Format.unusedField (5 < m.count), rsv := 0x3F } := by
  cases m <;> decide

@[simp] theorem Opcode.ofCode_code (o : Opcode) : Opcode.ofCode o.code = some o := by
  cases o <;> decide

/-- A row found by its code has that code. -/
theorem Opcode.code_of_ofCode {c : BitVec 8} {o : Opcode} (h : Opcode.ofCode c = some o) : o.code = c := by
  have := List.find?_some h
  simpa using this

/-- The codes of different rows differ (R95). -/
theorem Opcode.code_injective {o o' : Opcode} (h : o.code = o'.code) : o = o' := by
  have := congrArg Opcode.ofCode h
  simpa using this

@[simp] theorem breg_field (r : BReg) : breg (field r) = r := rfl
@[simp] theorem field_breg (f : BitVec 3) : field (breg f) = f := rfl

end Sys2Proof
end

