-- ==== Sys2Proof/Laws/Host.lean ====
section
/-! SUPPORT. The host: its variables (read after write, and every assignment keeps the one sorted form), its bit operations, and
that a session ends with a reset of the engine. -/

namespace Sys2Proof.Machine

/-- Read after write: the variable assigned holds the value, every other what it held. -/
theorem lookupVar_assignVar (x y : Nat) (v : Int) (vars : List (Nat × Int)) (hs : varsSorted vars = true) :
    lookupVar y (assignVar x v vars) = if y = x then some v else lookupVar y vars := by
  induction vars with
  | nil => simp [assignVar, lookupVar]
  | cons p rest ih =>
    obtain ⟨z, w⟩ := p
    have hr : varsSorted rest = true := by
      cases rest with
      | nil => rfl
      | cons q r => simp only [varsSorted, Bool.and_eq_true] at hs; exact hs.2
    unfold assignVar
    split
    · simp [lookupVar]
    · split
      · subst x
        simp only [lookupVar]
        split <;> rfl
      · simp only [lookupVar]
        rw [ih hr]
        by_cases hy : y = z
        · subst y
          rw [if_pos rfl, if_neg (by omega)]
          simp
        · rw [if_neg hy, if_neg hy]

/-- An assignment puts no number before a bound that `x` and the list respect. -/
theorem head_assignVar (b x : Nat) (v : Int) (vars : List (Nat × Int)) (hb : b < x)
    (h : ∀ p ∈ vars.head?, b < p.1) : ∀ p ∈ (assignVar x v vars).head?, b < p.1 := by
  cases vars with
  | nil => simpa [assignVar] using hb
  | cons q rest =>
    obtain ⟨y, w⟩ := q
    have hy : b < y := h (y, w) rfl
    intro p hp
    unfold assignVar at hp
    split at hp
    · simp at hp; subst hp; exact hb
    · split at hp
      · simp at hp; subst hp; exact hb
      · simp at hp; subst hp; exact hy

/-- The sorted form in terms of the head of the rest. -/
theorem varsSorted_cons (x : Nat) (v : Int) (rest : List (Nat × Int)) :
    varsSorted ((x, v) :: rest) = true ↔ (∀ p ∈ rest.head?, x < p.1) ∧ varsSorted rest = true := by
  cases rest with
  | nil => simp [varsSorted]
  | cons q r => obtain ⟨y, w⟩ := q; simp [varsSorted]

/-- Every assignment keeps the one sorted form. -/
theorem varsSorted_assignVar (x : Nat) (v : Int) (vars : List (Nat × Int)) (hs : varsSorted vars = true) :
    varsSorted (assignVar x v vars) = true := by
  induction vars with
  | nil => rfl
  | cons p rest ih =>
    obtain ⟨y, w⟩ := p
    rw [varsSorted_cons] at hs
    unfold assignVar
    split
    · rename_i hxy
      rw [varsSorted_cons, varsSorted_cons]
      exact ⟨by simpa using hxy, hs⟩
    · split
      · subst x
        exact (varsSorted_cons _ _ _).2 hs
      · rename_i h1 h2
        rw [varsSorted_cons]
        exact ⟨head_assignVar y x v rest (by omega) hs.1, ih hs.2⟩

/-- Shifts and OR on non-negative operands are the exact operations (R11). -/
theorem hostBits_nat (x y : Nat) :
    hostBits .shl x y = ((x <<< y : Nat) : Int) ∧ hostBits .shr x y = ((x >>> y : Nat) : Int) ∧
    hostBits .bor x y = ((x ||| y : Nat) : Int) := by
  simp [hostBits, bitsDefined, bitsValue]

/-- A slice of a non-negative integer from `hi` down to `lo` (R10). -/
theorem hostBits_slice (x hi lo : Nat) (h : lo ≤ hi) :
    hostBits (.slice hi) x lo = (((x >>> lo) % 2 ^ (hi - lo + 1) : Nat) : Int) := by
  simp [hostBits, bitsDefined, bitsValue, h]

/-- The operations that end a program. -/
def endsProgram : HostOp → Bool
  | .halt | .raise _ => true
  | .portRead .. | .portWrite .. | .assign .. | .label _ | .ifGoto .. | .goto _ | .randBits .. => false

/-- In a session `HRESET` stands directly before every operation that ends the program (R275). -/
theorem asSession_resets (p a b : List HostOp) (op : HostOp) (ho : endsProgram op = true)
    (h : asSession p = a ++ op :: b) : ∃ a', a = a' ++ [hreset] := by
  induction p generalizing a with
  | nil => simp [asSession] at h
  | cons q p ih =>
    have hc : sessionLine q ++ asSession p = a ++ op :: b := h
    have one : ∀ r, endsProgram r = false → r :: asSession p = a ++ op :: b → ∃ a', a = a' ++ [hreset] := by
      intro r hr hr'
      cases a with
      | nil => simp only [List.nil_append, List.cons.injEq] at hr'; rw [hr'.1, ho] at hr; cases hr
      | cons x a =>
        obtain ⟨-, h2⟩ := List.cons.inj hr'
        obtain ⟨a', rfl⟩ := ih a h2
        exact ⟨x :: a', rfl⟩
    have two : ∀ r, hreset :: r :: asSession p = a ++ op :: b → ∃ a', a = a' ++ [hreset] := by
      intro r hr'
      match a, hr' with
      | [], hr' => simp only [List.nil_append, List.cons.injEq] at hr'; rw [← hr'.1] at ho; cases ho
      | [x], hr' => obtain ⟨h1, -⟩ := List.cons.inj hr'; exact ⟨[], by rw [h1]; rfl⟩
      | x :: y :: a, hr' =>
        obtain ⟨-, h2⟩ := List.cons.inj hr'
        obtain ⟨-, h3⟩ := List.cons.inj h2
        obtain ⟨a', rfl⟩ := ih a h3
        exact ⟨x :: y :: a', rfl⟩
    cases q <;> first | exact one _ rfl hc | exact two _ hc

/-- `HRESET` puts the engine at its reset values and the host goes on (R101, R331). -/
theorem hostStep_hreset (s : State) : hostStep hreset s = .next s.resetEngine.advance := by
  simp only [hostStep, hreset, withValue, HExpr.eval, portWrite, thenAdvance]
  rfl

end Sys2Proof.Machine
end

