-- ==== Sys2Proof/Laws/PerInstr.lean ====
section
/-! SUPPORT. Statements about every command as syntax, one lemma per constructor. -/

namespace Sys2Proof.Laws.EncodedFields

/-- The word of a command carries its row's opcode, its operands in the fields its format uses, zeros elsewhere (R91, R95),
and so matches its row (R92). -/
def Statement (i : Instr) : Prop :=
  fieldsOf (encode i) = { opc := i.opcode.code, f1 := i.fieldAt 0, f2 := i.fieldAt 1, f3 := i.fieldAt 2,
                          f4 := i.fieldAt 3, f5 := i.fieldAt 4, f6 := i.fieldAt 5, rsv := 0 } ∧
  i.operands.length = i.opcode.format.count ∧
  encode i &&& i.opcode.format.mask = i.opcode.matchWord

/-- The mask of a command's row keeps its opcode alone. -/
theorem of_operands {i : Instr} (hl : i.operands.length = i.opcode.format.count) : Statement i := by
  have unused : ∀ k, Format.unusedField (decide (k < i.opcode.format.count)) &&& i.fieldAt k = 0 := by
    intro k
    by_cases h : k < i.opcode.format.count
    · simp [h, Format.unusedField]
    · have : i.operands[k]? = none := List.getElem?_eq_none (by omega)
      simp [Instr.fieldAt, this]
  refine ⟨fieldsOf_packWord _, hl, ?_⟩
  rw [Format.mask_eq, encode, packWord_and, Opcode.matchWord]
  have h8 : ∀ c : BitVec 8, c &&& 0xFF = c := fun c => by simpa using (BitVec.and_allOnes (x := c))
  simp only [h8, BitVec.and_comm (i.fieldAt _), unused]
  rfl

theorem nop : Statement .nop := of_operands rfl
theorem reduce (rd ra rn : BReg) : Statement (.reduce rd ra rn) := of_operands rfl
theorem quot (rd ra rn : BReg) : Statement (.quot rd ra rn) := of_operands rfl
theorem xgcd (rg rx ry ra rb : BReg) : Statement (.xgcd rg rx ry ra rb) := of_operands rfl
theorem invmod (rd ra rn : BReg) : Statement (.invmod rd ra rn) := of_operands rfl
theorem isprime (rn : BReg) : Statement (.isprime rn) := of_operands rfl
theorem mexpb (rd rb re rn : BReg) : Statement (.mexpb rd rb re rn) := of_operands rfl
theorem mexpw (rd rb re rn : BReg) : Statement (.mexpw rd rb re rn) := of_operands rfl
theorem mexpm (rd rb re rn : BReg) : Statement (.mexpm rd rb re rn) := of_operands rfl
theorem mctx (rn : BReg) : Statement (.mctx rn) := of_operands rfl
theorem mmul (rd ra rb : BReg) : Statement (.mmul rd ra rb) := of_operands rfl
theorem mto (rd ra : BReg) : Statement (.mto rd ra) := of_operands rfl
theorem mfrom (rd ra : BReg) : Statement (.mfrom rd ra) := of_operands rfl
theorem crtrec (rd rm1 rm2 rp rq ri : BReg) : Statement (.crtrec rd rm1 rm2 rp rq ri) := of_operands rfl

end Sys2Proof.Laws.EncodedFields
end

