-- ==== Sys2Proof/Tests/Slice0.lean ====
section
/-! SUPPORT. Tests of the model on the worked values of spec/95_test_vectors.md, and for each statement with hypotheses a
witness that meets them together. -/

namespace Sys2Proof.Tests

open Sys2Proof Sys2Proof.Machine

set_option Elab.async false

/-! ### Helpers -/

/-- The reset machine with the listed registers written. -/
def withRegs (l : List (BReg × Int)) : State := { State.reset with eng := Engine.reset.writeRegs l }

/-- `s` with the capacity `W = w`. -/
def capped (w : Nat) (s : State) : State := { s with params := { s.params with w := some w } }

/-- `s` with `SEED = 1` written, the group size `g`, and `Perm(1, perm.length) = perm`. -/
def seeded (g : BitVec 8) (perm : List Nat) (s : State) : State :=
  { s with eng := { s.eng with seed := 1, seedv := true, grpsz := g },
           params := { s.params with permTable := [{ seed := 1, perm := perm }] } }

/-- The context of 97 (V44.2). -/
def ctx97 : MontCtx := { n := 97, r := 128, rmask := 127, nprime := 95, k := 7 }

/-- `s` with the context of 97. -/
def with97 (s : State) : State := { s with eng := { s.eng with mc := ctx97, mcv := true } }

/-- Register `r` and `STATUS` in the next state an outcome gives. -/
def shown (r : BReg) : Host.Outcome State Fault Refusal → Option (Int × Nat)
  | .next t => some (t.eng.reg r, (statusWord t.eng).toNat)
  | _ => none

/-- The next state an outcome gives. -/
def nextOf : Host.Outcome State Fault Refusal → Option State
  | .next t => some t
  | _ => none

/-- Register `r` and the trace in the next state an outcome gives. -/
def traced (r : BReg) : Host.Outcome State Fault Refusal → Option (Int × List MEvent)
  | .next t => some (t.eng.reg r, t.eng.mtrace)
  | _ => none

/-! ### WellFormed: each pair of equal destinations of XGCD is refused (R94, R97) -/

theorem test_wf_rg_rx_equal : (Instr.xgcd 2 2 3 0 1).wellFormed = false := by decide
theorem test_wf_rg_ry_equal : (Instr.xgcd 2 3 2 0 1).wellFormed = false := by decide
theorem test_wf_rx_ry_equal : (Instr.xgcd 3 2 2 0 1).wellFormed = false := by decide
theorem test_wf_destination_may_be_source : (Instr.xgcd 2 1 0 0 1).wellFormed = true := by decide

/-! ### Decode: the words of V30.1, R96 and V30.3, written bit field by bit field: OPC, F1 to F6, RSV -/

theorem test_decode_nop : decode 0b00000000_000_000_000_000_000_000_000000 = .ok .nop := by decide
theorem test_decode_reduce : decode 0b00010000_010_000_001_000_000_000_000000 = .ok (.reduce 2 0 1) := by decide
theorem test_decode_quot : decode 0b00010001_011_000_001_000_000_000_000000 = .ok (.quot 3 0 1) := by decide
theorem test_decode_xgcd : decode 0b00100000_010_011_100_000_001_000_000000 = .ok (.xgcd 2 3 4 0 1) := by decide
theorem test_decode_invmod : decode 0b00100001_010_000_001_000_000_000_000000 = .ok (.invmod 2 0 1) := by decide
theorem test_decode_isprime : decode 0b00110000_111_000_000_000_000_000_000000 = .ok (.isprime 7) := by decide
theorem test_decode_mexpb : decode 0b01000000_011_000_001_010_000_000_000000 = .ok (.mexpb 3 0 1 2) := by decide
theorem test_decode_mexpw : decode 0b01000001_100_000_001_010_000_000_000000 = .ok (.mexpw 4 0 1 2) := by decide
theorem test_decode_mexpm : decode 0b01000010_101_000_011_001_000_000_000000 = .ok (.mexpm 5 0 3 1) := by decide
theorem test_decode_mctx : decode 0b01010000_010_000_000_000_000_000_000000 = .ok (.mctx 2) := by decide
theorem test_decode_mmul : decode 0b01010001_101_011_100_000_000_000_000000 = .ok (.mmul 5 3 4) := by decide
theorem test_decode_mto : decode 0b01010010_100_001_000_000_000_000_000000 = .ok (.mto 4 1) := by decide
theorem test_decode_mfrom : decode 0b01010011_110_101_000_000_000_000_000000 = .ok (.mfrom 6 5) := by decide
theorem test_decode_crtrec : decode 0b01100000_111_101_110_001_010_111_000000 = .ok (.crtrec 7 5 6 1 2 7) := by decide

theorem test_encode_crtrec : encode (.crtrec 7 5 6 1 2 7) = 0x60F715C0 := by decide
theorem test_assembly_xgcd : assembly (.xgcd 2 3 4 0 1) = "XGCD B2, B3, B4, B0, B1" := by decide +kernel

/-- The illegal words of V30.2, each with its reason. -/
theorem test_decode_illegal :
    (decode 0x10408001, decode 0x10409000, decode 0x30000400) =
      (.error .unusedBitSet, .error .unusedBitSet, .error .unusedBitSet) ∧
    (decode 0x00000001, decode 0x00200000, decode 0x7F000000) =
      (.error .unusedBitSet, .error .unusedBitSet, .error .reservedOpcode) ∧
    (decode 0x12000000, decode 0xFFFFFFFF, decode 0x20498200) =
      (.error .reservedOpcode, .error .reservedOpcode, .error .equalDestinations) := by decide

/-- A table word as the host numbers it. -/
theorem test_decodeTableWord : decodeTableWord 32 0x10408000 = some (.reduce 2 0 1) ∧
    decodeTableWord 32 0x7F000000 = none := by decide

/-! ### One step of each command (V40 to V60) -/

theorem test_nop_clears_status :
    shown 0 (exec .nop { State.reset with eng := { Engine.reset with done := true, err := true, errcode := 3 } }) =
      some (0, 0x00000001) := by decide +kernel
theorem test_reduce : shown 2 (exec (.reduce 2 0 1) (withRegs [(0, 10 ^ 30), (1, 987654321)])) =
    some (156250000, 0x00070001) := by decide +kernel
theorem test_reduce_zero_before_sign : shown 2 (exec (.reduce 2 4 3) (withRegs [(4, -1), (3, 0)])) =
    some (0, 0x00180013) := by decide +kernel
theorem test_quot : shown 3 (exec (.quot 3 0 1) (withRegs [(0, 10 ^ 30), (1, 987654321)])) =
    some (1012499999987343750000, 0x000B0001) := by decide +kernel
theorem test_quot_same_register : shown 0 (exec (.quot 0 0 0) (withRegs [(0, 9)])) = some (1, 0x00010001) := by
  decide +kernel
theorem test_xgcd_x : shown 3 (exec (.xgcd 2 3 4 0 1) (withRegs [(0, 240), (1, 46)])) = some (-9, 0x001F0001) := by
  decide +kernel
theorem test_xgcd_precise :
    shown 4 (exec (.xgcd 2 3 4 0 1) (withRegs [(0, 240), (1, -46), (2, 99), (3, 99), (4, 99)])) =
      some (99, 0x001F00A3) := by decide +kernel
theorem test_invmod_negative : shown 2 (exec (.invmod 2 0 1) (withRegs [(0, -3), (1, 7)])) = some (2, 0x00070001) := by
  decide +kernel
theorem test_invmod_no_inverse : shown 2 (exec (.invmod 2 0 1) (withRegs [(0, 6), (1, 9)])) = some (0, 0x00030033) := by
  decide +kernel
theorem test_isprime_pseudoprime : shown 0 (exec (.isprime 0) (withRegs [(0, 3215031751)])) =
    some (3215031751, 0x00010001) := by decide +kernel
theorem test_isprime_seven : shown 0 (exec (.isprime 0) (withRegs [(0, 7)])) = some (7, 0x00010005) := by decide +kernel
theorem test_mexpb : shown 3 (exec (.mexpb 3 0 1 2) (withRegs [(0, 4), (1, 13), (2, 497)])) = some (445, 0x000F0001) := by
  decide +kernel
theorem test_mexpb_modulus_one : shown 3 (exec (.mexpb 3 0 1 2) (withRegs [(0, 5), (1, 0), (2, 1)])) =
    some (0, 0x000F0001) := by decide +kernel
theorem test_mexpw : shown 4 (exec (.mexpw 4 0 1 2) (withRegs [(0, 3), (1, 733), (2, 1000003)])) =
    some (696350, 0x00170001) := by decide +kernel
theorem test_mexpw_even : shown 4 (exec (.mexpw 4 0 1 2) (withRegs [(0, 2), (1, 10), (2, 1000)])) =
    some (24, 0x00170001) := by decide +kernel
theorem test_mexpm_trace :
    traced 5 (exec (.mexpm 5 0 1 2) (seeded 2 [2, 0, 1] (withRegs [(0, 4), (1, 13), (2, 497)]))) =
      some (445, [.mul 3, .mul 0, .fold, .mul 2, .fold]) := by decide +kernel
theorem test_mexpm_needs_seed : shown 5 (exec (.mexpm 5 0 1 2) (withRegs [(0, 4), (1, 13), (2, 497)])) =
    some (0, 0x00070093) := by decide +kernel
theorem test_mctx : nextOf (exec (.mctx 1) (withRegs [(1, 97)])) =
    some { State.reset with eng := { (withRegs [(1, 97)]).eng with mc := ctx97, mcv := true, done := true } } := by
  decide +kernel
theorem test_mctx_even : shown 1 (exec (.mctx 1) (withRegs [(1, 1000)])) = some (1000, 0x00020023) := by decide +kernel
theorem test_mmul : shown 2 (exec (.mmul 2 3 4) (with97 (withRegs [(3, 96), (4, 96)]))) = some (72, 0x001C0101) := by
  decide +kernel
theorem test_mmul_range : shown 2 (exec (.mmul 2 3 4) (with97 (withRegs [(3, 97), (4, 58)]))) = some (0, 0x001801A3) := by
  decide +kernel
theorem test_mto : shown 3 (exec (.mto 3 0) (with97 (withRegs [(0, 102)]))) = some (58, 0x00090101) := by decide +kernel
theorem test_mfrom : shown 5 (exec (.mfrom 5 2) (with97 (withRegs [(2, 18)]))) = some (35, 0x00240101) := by
  decide +kernel
theorem test_mfrom_no_context : shown 5 (exec (.mfrom 5 2) (withRegs [(2, 18)])) = some (0, 0x00040093) := by
  decide +kernel
theorem test_crtrec_negative_difference :
    shown 7 (exec (.crtrec 7 5 6 1 2 4) (withRegs [(5, 4), (6, 58), (1, 53), (2, 61), (4, 20)])) =
      some (2071, 0x00F60001) := by decide +kernel
theorem test_crtrec_overflow :
    shown 7 (exec (.crtrec 7 5 6 1 2 4) (capped 8 (withRegs [(5, 12), (6, 22), (1, 13), (2, 23), (4, 4)]))) =
      some (0, 0x007600B3) := by decide +kernel

/-! ### The port, the step and the host (V20, V30.2, V70) -/

theorem test_port_status_mirrors : portRead
    ({ (withRegs [(3, -12)]).eng with seed := 0xDEADBEEF00000001, seedv := true }) 0x11 = 0x00080200 := by decide +kernel
theorem test_port_ctrl : nextOf (portWrite State.reset 0x12 0x7FFFF0FF) =
    some { State.reset with eng := { Engine.reset with grpsz := 255 } } := by decide +kernel
theorem test_port_ctrl_zero : nextOf (portWrite State.reset 0x12 0x00000F00) = some State.reset := by decide +kernel
theorem test_illegal_word : shown 0 (executeWord State.reset 0x7F000000) = some (0, 0x00000083) := by decide +kernel
theorem test_step_runs_fetch_word :
    shown 2 (step ((withRegs [(0, 100), (1, 7)]).withFetchWord 32 0x10408000)) = some (2, 0x00070001) := by decide +kernel
theorem test_step_reset_input : nextOf (step { withRegs [(3, -12)] with resetInput := true }) = some State.reset := by
  decide +kernel
/-- The defaults of D40. -/
theorem test_default_strategies :
    encryptProg (.int 65) 17 3233 = encryptProg (.int 65) 17 3233 .mexpb ∧
    decryptCrtProg (.int 2790) 61 53 53 49 38 = decryptCrtProg (.int 2790) 61 53 53 49 38 .mexpm := by decide +kernel
/-- `s[7:4]` of `0x00030033` (R246, V60.1). -/
theorem test_host_slice : (match (HExpr.slice (.const 0x00030033) 7 4).eval [] with | .ok v => v | .error _ => -1) = 3 := by
  decide +kernel
theorem test_os2i_hello : os2i [0x48, 0x65, 0x6C, 0x6C, 0x6F, 0x20, 0x52, 0x53, 0x41, 0x21] =
    341881320659697311891745 := by decide +kernel
theorem test_i2os_hello : i2os 341881320659697311891745 =
    [0x48, 0x65, 0x6C, 0x6C, 0x6F, 0x20, 0x52, 0x53, 0x41, 0x21] := by decide +kernel

/-! ### Witnesses: encoding and step -/

/-- A machine whose host is about to write `w` to `CMD`, with `B0 = 100`, `B1 = 7`. -/
def aboutToWrite (w : Nat) : State := (withRegs [(0, 100), (1, 7)]).withFetchWord 32 w

theorem witness_EncodeOfDecode : decode 0x10408000 = .ok (.reduce 2 0 1) := by decide

theorem witness_RowsAreMaskAndMatch :
    decode 0x10408000 = .ok (.reduce 2 0 1) ∧
    (0x10408000 : Word) &&& Opcode.reduce.format.mask = Opcode.reduce.matchWord ∧
    (0x20498200 : Word) &&& Opcode.xgcd.format.mask = Opcode.xgcd.matchWord ∧
    decode 0x20498200 = .error .equalDestinations := by decide

theorem witness_IllegalWords :
    decode 0x7F000000 = .error .reservedOpcode ∧ decode 0x10408001 = .error .unusedBitSet ∧
    decode 0x20498200 = .error .equalDestinations := by decide

theorem witness_StepRunsDecodedCommand :
    (aboutToWrite 0x10408000).resetInput = false ∧
    pendingOp (aboutToWrite 0x10408000) = some (.portWrite 0x10 (.const 0x10408000)) ∧
    (HExpr.const 0x10408000).eval (aboutToWrite 0x10408000).host.vars = .ok (((0x10408000 : Word).toNat : Nat) : Int) ∧
    decode 0x10408000 = .ok (.reduce 2 0 1) := by decide +kernel

theorem witness_StepOnIllegalWord :
    (aboutToWrite 0x10408001).resetInput = false ∧
    pendingOp (aboutToWrite 0x10408001) = some (.portWrite 0x10 (.const 0x10408001)) ∧
    (HExpr.const 0x10408001).eval (aboutToWrite 0x10408001).host.vars = .ok (((0x10408001 : Word).toNat : Nat) : Int) ∧
    decode 0x10408001 = .error .unusedBitSet := by decide +kernel

theorem witness_ErrorsArePrecise :
    ∃ t, executeWord (aboutToWrite 0) 0x10608000 = .next t ∧ t.eng.err = false ∧
      ∃ t', executeWord (aboutToWrite 0) 0x10008001 = .next t' ∧ t'.eng.err = true ∧
        ∃ t'', executeWord State.reset 0x10608000 = .next t'' ∧ t''.eng.err = true :=
  ⟨_, rfl, by decide +kernel, _, rfl, by decide +kernel, _, rfl, by decide +kernel⟩

theorem witness_CommandFrame :
    (∃ t, exec (.reduce 2 0 1) (aboutToWrite 0) = .next t) ∧
    (∀ rn, Instr.reduce 2 0 1 ≠ .mctx rn) ∧ (∀ rd rb re rn, Instr.reduce 2 0 1 ≠ .mexpm rd rb re rn) ∧
    (3 : BReg) ∉ destinations (.reduce 2 0 1) ∧ (aboutToWrite 0).eng.valid 0 = true :=
  ⟨⟨_, rfl⟩, by simp, by simp, by decide, by decide⟩

theorem witness_FlagIsIsprimeOnly :
    (∃ t, exec (.isprime 0) (withRegs [(0, 7)]) = .next t ∧ t.eng.flag = true) ∧
    (∃ t, executeWord (withRegs [(0, 7)]) 0x30000000 = .next t ∧ t.eng.flag = true) :=
  ⟨⟨_, rfl, by decide +kernel⟩, ⟨_, rfl, by decide +kernel⟩⟩

theorem witness_CommandsReadOnlySources :
    (5 : BReg) ∉ sources (.reduce 2 0 1) ∧ (5 : BReg) ∉ destinations (.reduce 2 0 1) ∧
    (2 : BReg) ∉ sources (.reduce 2 0 1) ∧ (2 : BReg) ∈ destinations (.reduce 2 0 1) ∧
    ∃ t, exec (.reduce 2 0 1) (aboutToWrite 0) = .next t ∧ t.eng.err = false :=
  ⟨by decide, by decide, by decide, by decide, _, rfl, by decide +kernel⟩

theorem witness_EngineChangesOnlyByHostWrites :
    (∃ t, step (aboutToWrite 0x10408000) = .next t ∧ t.eng ≠ (aboutToWrite 0x10408000).eng) ∧
    (State.reset.loadProgram [.portRead 0 0x11]).resetInput = false ∧
    pendingOp (State.reset.loadProgram [.portRead 0 0x11]) = some (.portRead 0 0x11) ∧
    State.reset.resetInput = false ∧ pendingOp State.reset = none :=
  ⟨⟨_, rfl, by decide +kernel⟩, by decide, by decide, by decide, by decide⟩

theorem witness_ParametersNeverChange : ∃ t, step (aboutToWrite 0x10408000) = .next t := ⟨_, rfl⟩

/-- A state that meets the invariant, with registers, a context and a command pending. -/
theorem witness_StepKeepsInvariant :
    Inv (with97 (capped 8 (aboutToWrite 0x10408000))) ∧
    ∃ t, step (with97 (capped 8 (aboutToWrite 0x10408000))) = .next t ∧ t.eng.reg 2 = 2 := by
  refine ⟨⟨by unfold WPositive; decide, ?_, ?_, ⟨fun _ => ⟨?_, ?_, ?_, ?_, ?_, ?_, ?_, ?_, ?_⟩, ?_, ?_⟩, ⟨?_, ?_, ?_, ?_⟩, ?_, ?_⟩, _, rfl, ?_⟩
  · unfold CapacityOk; decide +kernel
  · unfold InvalidIsZero; decide +kernel
  all_goals decide +kernel

/-! ### Witnesses: port and registers -/

theorem witness_PortWriteToBigRegister :
    (∀ w, State.reset.params.w = some w → |(-12 : Int)| < 2 ^ w) ∧
    (∀ w, (capped 8 State.reset).params.w = some w → |(-255 : Int)| < 2 ^ w) ∧
    (∃ w, (capped 8 State.reset).params.w = some w ∧ 2 ^ w ≤ |(-256 : Int)|) := by
  refine ⟨fun w h => by simp [State.reset] at h, fun w h => ?_, 8, rfl, by decide⟩
  have : w = 8 := by simpa [capped] using h.symm
  subst this; decide

theorem witness_PortReadOfBigRegister :
    (State.reset.loadProgram [.portRead 0 7]).resetInput = false ∧
    pendingOp (State.reset.loadProgram [.portRead 0 7]) = some (.portRead 0 (BitVec.ofNat 8 (7 : BReg).val)) := by decide

/-- Each end of each reserved range (R61). -/
theorem witness_ReservedNumbersReadZeroIgnoreWrites :
    ∀ r ∈ [(0x08 : RegNum), 0x0F, 0x14, 0x1F, 0x25, 0xFF],
      (0x08 ≤ r.toNat ∧ r.toNat ≤ 0x0F) ∨ (0x14 ≤ r.toNat ∧ r.toNat ≤ 0x1F) ∨ 0x25 ≤ r.toNat := by decide

theorem witness_CtrlRegister :
    (0x80000003 : Word).getLsbD 31 = true ∧ (0x7FFFF0FF : Word).getLsbD 31 = false ∧
    (0x7FFFF0FF : Word).toNat % 256 ≠ 0 ∧ (0x00000F00 : Word).getLsbD 31 = false ∧
    (0x00000F00 : Word).toNat % 256 = 0 := by decide

theorem witness_SeedRegister :
    (∃ t, exec (.mexpm 5 0 1 2) (withRegs [(0, 4), (1, 13), (2, 497)]) = .next t ∧
      (withRegs [(0, 4), (1, 13), (2, 497)]).eng.seedv = false) ∧
    (∃ t, exec (.mexpm 5 0 1 2) (seeded 8 [0, 1, 2] (withRegs [(0, 4), (1, 13), (2, 0)])) = .next t ∧
      t.eng.err = true) ∧
    (∃ t, exec (.mexpm 5 0 1 2) (seeded 8 [0, 1, 2] (withRegs [(0, 4), (1, 13), (2, 497)])) = .next t ∧
      t.eng.err = false) :=
  ⟨⟨_, rfl, by decide⟩, ⟨_, rfl, by decide +kernel⟩, ⟨_, rfl, by decide +kernel⟩⟩

theorem witness_ContextRegistersAtThePort :
    (with97 State.reset).eng.mcv = true ∧ State.reset.eng.mcv = false ∧
    (∀ r ∈ [(0x20 : RegNum), 0x24], 0x20 ≤ r.toNat ∧ r.toNat ≤ 0x24) := by decide

theorem witness_CmdRegister : decode 0x10408000 = .ok (.reduce 2 0 1) ∧ decode 0x7F000000 = .error .reservedOpcode := by
  decide

theorem witness_ResetErasesEverything :
    ({ withRegs [(3, -12)] with resetInput := true } : State).resetInput = true ∧
    ((withRegs [(3, -12)]).loadProgram [hreset]).resetInput = false ∧
    pendingOp ((withRegs [(3, -12)]).loadProgram [hreset]) = some (.portWrite 0x12 (.const 0x80000000)) ∧
    (HExpr.const 0x80000000).eval ((withRegs [(3, -12)]).loadProgram [hreset]).host.vars =
      .ok (((0x80000000 : Word).toNat : Nat) : Int) ∧
    (0x80000000 : Word).getLsbD 31 = true := by decide +kernel

/-! ### Witnesses: errors -/

theorem witness_OperandInvalidExactly :
    (Instr.reduce 2 0 1).WF ∧ (∃ t, exec (.reduce 2 0 1) State.reset = .next t) ∧
    SomethingInvalid (.reduce 2 0 1) State.reset.eng ∧
    SomethingInvalid (.mmul 2 0 1) (withRegs [(0, 6), (1, 9)]).eng ∧
    SomethingInvalid (.mexpm 2 0 1 0) (withRegs [(0, 6), (1, 9)]).eng :=
  ⟨rfl, ⟨_, rfl⟩, .inl ⟨0, by decide, by decide⟩, .inr (by decide), .inr (by decide)⟩

/-- No operand of `REDUCE B2, B0, B1` is invalid when `B0` and `B1` were written. -/
theorem reduce_valid (a n : Int) : ¬ SomethingInvalid (.reduce 2 0 1) (withRegs [(0, a), (1, n)]).eng := by
  rintro (⟨r, hr, h⟩ | h)
  · simp only [sources, List.mem_cons, List.not_mem_nil, or_false] at hr
    rcases hr with rfl | rfl <;> exact absurd h (by simp [withRegs, Engine.writeRegs, Engine.writeReg, Engine.valid])
  · exact h

theorem witness_DivisionByZeroExactly :
    (Instr.reduce 2 0 1).WF ∧ (∃ t, exec (.reduce 2 0 1) (withRegs [(0, -1), (1, 0)]) = .next t) ∧
    ¬ SomethingInvalid (.reduce 2 0 1) (withRegs [(0, -1), (1, 0)]).eng ∧
    ZeroModulus (.reduce 2 0 1) (withRegs [(0, -1), (1, 0)]).eng :=
  ⟨rfl, ⟨_, rfl⟩, reduce_valid _ _, rfl⟩

theorem witness_OperandRangeExactly :
    (Instr.reduce 2 0 1).WF ∧ (∃ t, exec (.reduce 2 0 1) (withRegs [(0, -1), (1, 9)]) = .next t) ∧
    ¬ SomethingInvalid (.reduce 2 0 1) (withRegs [(0, -1), (1, 9)]).eng ∧
    ¬ ZeroModulus (.reduce 2 0 1) (withRegs [(0, -1), (1, 9)]).eng ∧
    OutOfRange (.reduce 2 0 1) (withRegs [(0, -1), (1, 9)]).eng :=
  ⟨rfl, ⟨_, rfl⟩, reduce_valid _ _, show ¬ ((9 : Int) = 0) by decide, .inl (show (-1 : Int) < 0 by decide)⟩

theorem witness_InvalidModulusExactly :
    (Instr.mctx 1).WF ∧ (∃ t, exec (.mctx 1) (withRegs [(0, 0), (1, 4)]) = .next t) ∧
    ¬ SomethingInvalid (.mctx 1) (withRegs [(0, 0), (1, 4)]).eng ∧
    ¬ ZeroModulus (.mctx 1) (withRegs [(0, 0), (1, 4)]).eng ∧ ¬ OutOfRange (.mctx 1) (withRegs [(0, 0), (1, 4)]).eng ∧
    EvenModulus (.mctx 1) (withRegs [(0, 0), (1, 4)]).eng ∧
    ZeroModulus (.mctx 1) (withRegs [(0, 0), (1, 0)]).eng ∧ OutOfRange (.mctx 1) (withRegs [(0, 0), (1, -8)]).eng := by
  refine ⟨rfl, ⟨_, rfl⟩, ?_, show ¬ ((4 : Int) = 0) by decide, show ¬ ((4 : Int) < 0) by decide,
    show (4 : Int) % 2 = 0 by decide, show (0 : Int) = 0 by decide, show (-8 : Int) < 0 by decide⟩
  rintro (⟨r, hr, h⟩ | h)
  · simp only [sources, List.mem_cons, List.not_mem_nil, or_false] at hr
    subst hr; exact absurd h (by decide)
  · exact h

theorem witness_NoInverseExactly :
    (Instr.invmod 2 0 1).WF ∧ (∃ t, exec (.invmod 2 0 1) (withRegs [(0, 6), (1, 9)]) = .next t) ∧
    ¬ SomethingInvalid (.invmod 2 0 1) (withRegs [(0, 6), (1, 9)]).eng ∧
    ¬ ZeroModulus (.invmod 2 0 1) (withRegs [(0, 6), (1, 9)]).eng ∧
    ¬ OutOfRange (.invmod 2 0 1) (withRegs [(0, 6), (1, 9)]).eng ∧
    NotInvertible (.invmod 2 0 1) (withRegs [(0, 6), (1, 9)]).eng := by
  refine ⟨rfl, ⟨_, rfl⟩, reduce_valid 6 9, show ¬ ((9 : Int) = 0) by decide, show ¬ ((9 : Int) < 0) by decide, ?_⟩
  show Int.gcd 6 9 ≠ 1
  decide

/-- The operands of V45.12 with `W = 8`. -/
def overflowing : State := capped 8 (withRegs [(5, 12), (6, 22), (1, 13), (2, 23), (4, 4)])

theorem witness_OverflowOnlyFromCrtrec :
    WPositive overflowing.params ∧ CapacityOk overflowing ∧ ContextOk overflowing ∧
    (∃ t, exec (.crtrec 7 5 6 1 2 4) overflowing = .next t ∧ t.eng.errcode = 11) ∧
    ¬ SomethingInvalid (.crtrec 7 5 6 1 2 4) overflowing.eng ∧
    crtRec (overflowing.eng.reg 5) (overflowing.eng.reg 6) (overflowing.eng.reg 1) (overflowing.eng.reg 2)
      (overflowing.eng.reg 4) = .ok 298 ∧
    overflowing.params.w = some 8 ∧ 2 ^ 8 ≤ 298 ∧ State.reset.params.w = none := by
  refine ⟨by unfold WPositive; decide, by unfold CapacityOk; decide +kernel, ⟨?_, by decide, by decide⟩,
    ⟨_, rfl, by decide +kernel⟩, ?_, by decide +kernel, rfl, by decide, rfl⟩
  · intro h; exact absurd h (by decide)
  · show ¬ ((∃ r : BReg, r ∈ [(5 : BReg), 6, 1, 2, 4] ∧ overflowing.eng.valid r = false) ∨ False)
    decide +kernel

/-! ### Witnesses: the arithmetic commands -/

theorem capacity_unlimited (l : List (BReg × Int)) : CapacityOk (withRegs l) := fun _ => rfl

theorem witness_ReduceAndQuotResults :
    (withRegs [(0, 100), (1, 7)]).eng.valid 0 = true ∧ (withRegs [(0, 100), (1, 7)]).eng.valid 1 = true ∧
    0 ≤ (withRegs [(0, 100), (1, 7)]).eng.reg 0 ∧ 0 < (withRegs [(0, 100), (1, 7)]).eng.reg 1 ∧
    CapacityOk (withRegs [(0, 100), (1, 7)]) :=
  ⟨by decide, by decide, by decide, by decide, capacity_unlimited _⟩

theorem witness_ShiftSubtractDivides : (0 : Nat) < 7 ∧ shiftSubtract 100 7 = (2, 14) := by decide +kernel

theorem witness_XgcdResults :
    (Instr.xgcd 2 3 4 0 1).WF ∧ (capped 8 (withRegs [(0, 240), (1, 46)])).eng.valid 0 = true ∧
    (capped 8 (withRegs [(0, 240), (1, 46)])).eng.valid 1 = true ∧
    0 ≤ (capped 8 (withRegs [(0, 240), (1, 46)])).eng.reg 0 ∧ 0 ≤ (capped 8 (withRegs [(0, 240), (1, 46)])).eng.reg 1 ∧
    WPositive (capped 8 (withRegs [(0, 240), (1, 46)])).params ∧ CapacityOk (capped 8 (withRegs [(0, 240), (1, 46)])) :=
  ⟨rfl, by decide, by decide, by decide, by decide, by unfold WPositive; decide, by unfold CapacityOk; decide +kernel⟩

theorem witness_XgcdCoefficientsBounded :
    0 < (xgcdNat 240 46).g ∧ (0 : Nat) < 5 ∧ (0 : Nat) < 7 ∧ xgcdNat 0 0 = { g := 0, x := 1, y := 0 } := by decide +kernel

theorem witness_InvmodResult :
    (withRegs [(0, -3), (1, 7)]).eng.valid 0 = true ∧ (withRegs [(0, -3), (1, 7)]).eng.valid 1 = true ∧
    0 < (withRegs [(0, -3), (1, 7)]).eng.reg 1 ∧
    Int.gcd ((withRegs [(0, -3), (1, 7)]).eng.reg 0) ((withRegs [(0, -3), (1, 7)]).eng.reg 1) = 1 ∧
    CapacityOk (withRegs [(0, -3), (1, 7)]) :=
  ⟨by decide, by decide, by decide, by decide, capacity_unlimited _⟩

theorem witness_IsprimeSetsFlag : (withRegs [(0, -7)]).eng.valid 0 = true := by decide

theorem witness_PrimesAreAccepted : (101 : Nat).Prime := by norm_num

theorem witness_FilterAndSmallValues :
    (-7 : Int) < 100 ∧ (97 : Int) < 100 ∧ cheapFilter 10403 = .pass ∧ (97 : Nat).Prime ∧ 97 < 100 :=
  ⟨by decide, by decide, by decide +kernel, by norm_num, by decide⟩

/-- The operands of V43.1's first line. -/
def powerState : State := withRegs [(0, 4), (1, 13), (2, 497)]

theorem witness_MexpbResult :
    powerState.eng.valid 0 = true ∧ powerState.eng.valid 1 = true ∧ powerState.eng.valid 2 = true ∧
    0 ≤ powerState.eng.reg 0 ∧ 0 ≤ powerState.eng.reg 1 ∧ 0 < powerState.eng.reg 2 ∧ CapacityOk powerState :=
  ⟨by decide, by decide, by decide, by decide, by decide, by decide, capacity_unlimited _⟩

/-- An even modulus, which `MEXPW` accepts. -/
theorem witness_MexpwResult :
    (withRegs [(0, 2), (1, 10), (2, 1000)]).eng.valid 0 = true ∧ (withRegs [(0, 2), (1, 10), (2, 1000)]).eng.valid 1 = true ∧
    (withRegs [(0, 2), (1, 10), (2, 1000)]).eng.valid 2 = true ∧ 0 ≤ (withRegs [(0, 2), (1, 10), (2, 1000)]).eng.reg 0 ∧
    0 ≤ (withRegs [(0, 2), (1, 10), (2, 1000)]).eng.reg 1 ∧ 0 < (withRegs [(0, 2), (1, 10), (2, 1000)]).eng.reg 2 ∧
    CapacityOk (withRegs [(0, 2), (1, 10), (2, 1000)]) :=
  ⟨by decide, by decide, by decide, by decide, by decide, by decide, capacity_unlimited _⟩

theorem witness_MexpmResult :
    (seeded 2 [2, 0, 1] powerState).eng.valid 0 = true ∧ (seeded 2 [2, 0, 1] powerState).eng.valid 1 = true ∧
    (seeded 2 [2, 0, 1] powerState).eng.valid 2 = true ∧ (seeded 2 [2, 0, 1] powerState).eng.seedv = true ∧
    0 ≤ (seeded 2 [2, 0, 1] powerState).eng.reg 0 ∧ 0 ≤ (seeded 2 [2, 0, 1] powerState).eng.reg 1 ∧
    0 < (seeded 2 [2, 0, 1] powerState).eng.reg 2 ∧ (seeded 2 [2, 0, 1] powerState).eng.reg 2 % 2 = 1 ∧
    CapacityOk (seeded 2 [2, 0, 1] powerState) :=
  ⟨by decide, by decide, by decide, by decide, by decide, by decide, by decide, by decide, fun _ => rfl⟩

theorem witness_TraceOfMexpm :
    (seeded 2 [2, 0, 1] powerState).eng.grpsz ≠ 0 ∧
    ∃ t, exec (.mexpm 5 0 1 2) (seeded 2 [2, 0, 1] powerState) = .next t ∧ t.eng.err = false :=
  ⟨by decide, _, rfl, by decide +kernel⟩

theorem witness_PermIsAPermutation : [2, 0, 1].Perm (List.range [2, 0, 1].length) := by decide

theorem witness_ResultsIndependentOfShuffle :
    ∃ t t', exec (.mexpm 5 0 1 2) (seeded 2 [2, 0, 1] powerState) = .next t ∧
      exec (.mexpm 5 0 1 2)
        { seeded 2 [2, 0, 1] powerState with
          eng := { (seeded 2 [2, 0, 1] powerState).eng with seed := 7, grpsz := 8, mtrace := [.fold] },
          params := { (seeded 2 [2, 0, 1] powerState).params with permTable := [{ seed := 7, perm := [0, 1, 2] }] } } =
        .next t' ∧ t.eng.err = false ∧ t'.eng.mtrace ≠ t.eng.mtrace :=
  ⟨_, _, rfl, rfl, by decide +kernel, by decide +kernel⟩

theorem witness_StrategiesAgree :
    (0 : Nat) < 497 ∧ (∀ h, ((List.range h).reverse).Perm (List.range h)) ∧ 497 % 2 = 1 ∧ 1000 % 2 = 0 :=
  ⟨by decide, fun _ => List.reverse_perm _, by decide, by decide⟩

theorem witness_MctxResult :
    (withRegs [(1, 97)]).eng.valid 1 = true ∧ 0 < (withRegs [(1, 97)]).eng.reg 1 ∧
    (withRegs [(1, 97)]).eng.reg 1 % 2 = 1 := by decide

/-- The context of 97 is one. -/
theorem ctx97_ok : ContextOf ctx97 :=
  ⟨by decide, by decide +kernel, by decide, by decide, by decide, by decide, by decide, by decide, by decide⟩

theorem witness_MontgomeryCommandResults :
    (with97 (withRegs [(3, 58), (4, 96)])).eng.mcv = true ∧ ContextOk (with97 (withRegs [(3, 58), (4, 96)])) ∧
    (with97 (withRegs [(3, 58), (4, 96)])).eng.valid 3 = true ∧ 0 ≤ (with97 (withRegs [(3, 58), (4, 96)])).eng.reg 3 ∧
    (with97 (withRegs [(3, 58), (4, 96)])).eng.reg 3 < ctx97.n ∧
    (with97 (withRegs [(3, 58), (4, 96)])).eng.valid 4 = true ∧ 0 ≤ (with97 (withRegs [(3, 58), (4, 96)])).eng.reg 4 ∧
    (with97 (withRegs [(3, 58), (4, 96)])).eng.reg 4 < ctx97.n :=
  ⟨by decide, ⟨fun _ => ctx97_ok, rfl, fun h => absurd h (by decide)⟩, by decide, by decide, by decide, by decide,
    by decide, by decide⟩

theorem witness_MontgomeryDomainLaws : ContextOf ctx97 ∧ 0 < ctx97.n ∧ 96 < ctx97.n := ⟨ctx97_ok, by decide, by decide⟩

theorem witness_CrtrecResult :
    (∀ r, r ∈ [(5 : BReg), 6, 1, 2, 4] → (capped 9 overflowing).eng.valid r = true) ∧
    (∀ r, r ∈ [(5 : BReg), 6, 1, 2, 4] → 0 ≤ (capped 9 overflowing).eng.reg r) ∧
    0 < (capped 9 overflowing).eng.reg 1 ∧
    (∀ w, (capped 9 overflowing).params.w = some w →
      (capped 9 overflowing).eng.reg 6 + ((capped 9 overflowing).eng.reg 4 *
        ((capped 9 overflowing).eng.reg 5 - (capped 9 overflowing).eng.reg 6)) % (capped 9 overflowing).eng.reg 1 *
        (capped 9 overflowing).eng.reg 2 < 2 ^ w) := by
  refine ⟨by decide +kernel, by decide +kernel, by decide +kernel, fun w h => ?_⟩
  have : w = 9 := by simpa [capped] using h.symm
  subst this; decide +kernel

theorem witness_CrtRecombinesResidues : (0 : Nat) < 61 ∧ (0 : Nat) < 53 ∧ 38 * 53 % 61 = 1 % 61 := by decide

/-! ### Witnesses: host procedures -/

theorem witness_MessageEncodingRoundTrip : os2i [0x00, 0x41] = 65 ∧ (-1 : Int) < 0 := by decide +kernel

theorem witness_RandomCandidateShape :
    1 ≤ 8 ∧ 5 < 2 ^ 8 ∧ lookupVar varV [(varV, 5)] = some ((5 : Nat) : Int) := by decide

/-- A host about to draw 8 bits, with the answer 5 supplied. -/
def aboutToDraw : State :=
  let s := State.reset.loadProgram [.randBits 0 8]
  { s with host := { s.host with draws := [5] } }

theorem witness_DrawsAreInRange :
    aboutToDraw.resetInput = false ∧ pendingOp aboutToDraw = some (.randBits 0 8) ∧ (∃ t, step aboutToDraw = .next t) ∧
    aboutToDraw.host.draws = 5 :: [] ∧ 5 < 2 ^ 8 :=
  ⟨by decide, by decide, ⟨_, rfl⟩, by decide, by decide⟩

/-- The key of 95_test_vectors.md section 7. -/
def sampleKey : RsaKey :=
  { n := 3233, e := 17, d := 2753, p := 61, q := 53, phi := 3120, crt := some (53, 49, 38) }

theorem sampleKey_invariant : sampleKey.Invariant where
  modulus := by decide
  distinct := by decide
  totient := by decide
  exponentCoprime := by decide
  inverse := by decide
  crtFields := by
    intro dp dq qinv h
    simp only [sampleKey, Option.some.injEq, Prod.mk.injEq] at h
    obtain ⟨rfl, rfl, rfl⟩ := h
    decide

theorem witness_RsaRoundTrip :
    sampleKey.Invariant ∧ (61 : Nat).Prime ∧ (53 : Nat).Prime ∧ sampleKey.p = (61 : Nat) ∧ sampleKey.q = (53 : Nat) ∧
    0 ≤ sampleKey.e ∧ 0 ≤ sampleKey.d ∧ sampleKey.n % 2 = 1 ∧ (∀ h, ((List.range h).reverse).Perm (List.range h)) ∧
    (0 : Int) ≤ 65 ∧ 65 < sampleKey.n :=
  ⟨sampleKey_invariant, by norm_num, by norm_num, rfl, rfl, by decide, by decide, by decide,
    fun _ => List.reverse_perm _, by decide, by decide⟩

theorem witness_CrtEqualsPlainDecryption :
    sampleKey.Invariant ∧ (61 : Nat).Prime ∧ (53 : Nat).Prime ∧ sampleKey.p = (61 : Nat) ∧ sampleKey.q = (53 : Nat) ∧
    sampleKey.crt = some (53, 49, 38) ∧ 0 ≤ sampleKey.d ∧ sampleKey.n % 2 = 1 ∧
    (∀ h, ((List.range h).reverse).Perm (List.range h)) ∧ (0 : Int) ≤ 2790 :=
  ⟨sampleKey_invariant, by norm_num, by norm_num, rfl, rfl, rfl, by decide, by decide, fun _ => List.reverse_perm _,
    by decide⟩

end Sys2Proof.Tests
end

section
/-! SUPPORT. How `exec` can end, what the procedures answer and leave, and the port's writes of words: the facts the proofs about
the engine's own registers (10_state.md) are made of. -/

namespace Sys2Proof.Machine

/-! ### How a command ends -/

/-- Taking an error is what `EndsWithError` says with the kind's code (R306). -/
theorem State.raiseError_endsWithError (s : State) (k : ErrorKind) : EndsWithError k.code s (s.raiseError k) := rfl

/-- A command ends with an error and nothing else, or it is legal, its operands are valid and it completes with the effect of
its procedure (R241, R306). -/
theorem exec_cases {i : Instr} {s t : State} (h : exec i s = .next t) :
    (∃ k, t = s.raiseError k) ∨
    (i.WF ∧ operandsValid i s.eng = true ∧ ∃ f, procedure i s = .ok f ∧ f.fits s.params = true ∧ t = s.complete f) := by
  obtain rfl := Host.Outcome.next.inj ((exec_eq i s).symm.trans h)
  split
  · rename_i hwf
    obtain ⟨-, he⟩ | ⟨-, k, -, he⟩ | ⟨-, -, -, -, he⟩ | ⟨hv, f, hp, hf, he⟩ := s.execute_cases i (procedure i)
    · exact .inl ⟨_, he⟩
    · exact .inl ⟨k, he⟩
    · exact .inl ⟨_, he⟩
    · exact .inr ⟨hwf, hv, f, hp, hf, he⟩
  · exact .inl ⟨_, rfl⟩

/-- No command writes `CMD` (R240). -/
theorem exec_cmd {i : Instr} {s t : State} (h : exec i s = .next t) : t.eng.cmd = s.eng.cmd := by
  obtain ⟨k, rfl⟩ | ⟨-, -, f, -, -, rfl⟩ := exec_cases h <;> simp

/-! ### What the procedures answer and leave -/

/-- A sequence of two computations succeeds exactly when both do. -/
theorem except_bind_eq_ok {ε α β : Type} {x : Except ε α} {g : α → Except ε β} {b : β} :
    (x >>= g) = .ok b ↔ ∃ a, x = .ok a ∧ g a = .ok b := by
  cases x with
  | error k => simp [bind, Except.bind]
  | ok a => simp [bind, Except.bind]

/-- A procedure answers "yes" for `STATUS.FLAG` only as `ISPRIME`'s, on a probable prime (R27, R166). -/
theorem procedure_answer {i : Instr} {s : State} {f : Effect} (h : procedure i s = .ok f) :
    f.answer = true ↔ ∃ rn, i = .isprime rn ∧ isProbablePrime (s.eng.reg rn) = true := by
  cases i with
  | isprime rn =>
    obtain rfl : { answer := isProbablePrime (s.eng.reg rn) } = f := Except.ok.inj h
    simp
  | nop =>
    obtain rfl : {} = f := Except.ok.inj h
    simp
  | mto rd ra =>
    simp only [procedure, mtoProc] at h
    split at h
    · cases h
    · obtain rfl := Except.ok.inj h
      simp
  | mmul rd ra rb =>
    simp only [procedure, mmulProc, except_bind_eq_ok] at h
    obtain ⟨_, -, _, -, hf⟩ := h
    obtain rfl := Except.ok.inj hf
    simp
  | _ =>
    simp only [procedure, reduceProc, quotProc, xgcdProc, invmodProc, mexpbProc, mexpwProc, mexpmProc, mctxProc, mfromProc,
      crtrecProc, except_bind_eq_ok] at h
    obtain ⟨_, -, hf⟩ := h
    obtain rfl := Except.ok.inj hf
    simp

/-- What `ExpMont` returns when it succeeds: its run under the context of the modulus (R212). -/
theorem expMont_ok {perm : Nat → List Nat} {G : Nat} {base e n : Int} {r : ExpMontResult}
    (h : expMont perm G base e n = .ok r) :
    ∃ c, montCtx n = .ok c ∧ r = expMontRun c (perm (setBits e.toNat).length) G base.toNat e.toNat := by
  simp only [expMont, except_bind_eq_ok] at h
  obtain ⟨-, -, c, hc, hr⟩ := h
  exact ⟨c, hc, (Except.ok.inj hr).symm⟩

/-! ### The trace of the Montgomery exponentiation -/

/-- The events of one group name its elements in their order (R212). -/
theorem mulIndices_groupTrace_append (g : List Nat) (tr : List MEvent) :
    mulIndices (groupTrace g ++ tr) = g ++ mulIndices tr := by
  induction g with
  | nil => rfl
  | cons i g ih => exact congrArg (i :: ·) ih

/-- The trace of several groups names the elements of all of them in their order. -/
theorem mulIndices_flatMap_groupTrace (gs : List (List Nat)) : mulIndices (gs.flatMap groupTrace) = gs.flatten := by
  induction gs with
  | nil => rfl
  | cons g gs ih => rw [List.flatMap_cons, mulIndices_groupTrace_append, ih, List.flatten_cons]

/-- Cut into groups, a list loses nothing and keeps its order, whatever the group size (R213). -/
theorem flatten_groupsOf (G : Nat) {fuel : Nat} {l : List Nat} (h : l.length ≤ fuel) : (groupsOf G fuel l).flatten = l := by
  induction fuel generalizing l with
  | zero => simp [groupsOf, List.length_eq_zero_iff.1 (Nat.le_zero.1 h)]
  | succ fuel ih =>
    cases l with
    | nil => rfl
    | cons x xs =>
      have hrest : (xs.drop (G - 1)).length ≤ fuel := by
        rw [List.length_cons] at h
        rw [List.length_drop]
        omega
      rw [groupsOf, List.flatten_cons, ih hrest, List.cons_append, List.take_append_drop]

/-- The trace of a run multiplies in the order of the shuffled list (R213, R217). -/
theorem mulIndices_expMontRun (c : MontCtx) (perm : List Nat) (G base e : Nat) :
    mulIndices (expMontRun c perm G base e).trace = shuffled perm e := by
  rw [expMontRun, mulIndices_flatMap_groupTrace, flatten_groupsOf G le_rfl]

/-- A successful `MEXPM` consumes the seed and leaves a trace in the order of the permutation under `SEED` (R29, R217). -/
theorem procedure_mexpm_seed {rd rb re rn : BReg} {s : State} {f : Effect} (h : procedure (.mexpm rd rb re rn) s = .ok f) :
    f.consumeSeed = true ∧ ∃ tr, f.trace = some tr ∧ mulIndices tr =
      shuffled (s.params.perm s.eng.seed (setBits (s.eng.reg re).toNat).length) (s.eng.reg re).toNat := by
  simp only [procedure, mexpmProc, except_bind_eq_ok] at h
  obtain ⟨r, hr, hf⟩ := h
  obtain ⟨c, -, rfl⟩ := expMont_ok hr
  obtain rfl := Except.ok.inj hf
  exact ⟨rfl, _, rfl, mulIndices_expMontRun ..⟩

/-! ### No command reads `FLAG` -/

/-- `FLAG` plays no part in the writing of registers. -/
theorem Engine.writeRegs_withFlag (e : Engine) (b : Bool) (ws : List (BReg × Int)) :
    ({ e with flag := b } : Engine).writeRegs ws = { e.writeRegs ws with flag := b } := by
  induction ws generalizing e with
  | nil => rfl
  | cons w ws ih => exact ih (e.writeReg w.1 w.2)

/-- A completion rewrites `FLAG`, whatever it was (R27, R241). -/
theorem State.complete_withFlag (s : State) (b : Bool) (f : Effect) :
    State.complete { s with eng := { s.eng with flag := b } } f = s.complete f := by
  simp only [State.complete, Engine.apply, Engine.writeRegs_withFlag, Engine.finish]

/-- No procedure looks at `FLAG` (R27). -/
theorem procedure_withFlag (i : Instr) (s : State) (b : Bool) :
    procedure i { s with eng := { s.eng with flag := b } } = procedure i s := by
  cases i <;> rfl

/-- The execution of a command does not depend on `FLAG` (R27). -/
theorem State.execute_withFlag (s : State) (i : Instr) (b : Bool) :
    State.execute { s with eng := { s.eng with flag := b } } i (procedure i) = s.execute i (procedure i) := by
  have hv : operandsValid i { s.eng with flag := b } = operandsValid i s.eng := rfl
  have hr : ∀ k, State.raiseError { s with eng := { s.eng with flag := b } } k = s.raiseError k := fun _ => rfl
  simp only [State.execute, hv, hr, procedure_withFlag, State.complete_withFlag]

/-! ### Words at the port -/

/-- A word of `n` bits is of the port's type of that width (R65). -/
@[simp] theorem isWord_toNat {n : Nat} (w : BitVec n) : isWord n (w.toNat : Int) = true := by
  have hlt : (w.toNat : Int) < 2 ^ n := by exact_mod_cast w.isLt
  simp [isWord, hlt]

/-- A host write of a word to `CMD` is the execution of that word (R32, R61). -/
theorem portWrite_cmd (s : State) (c : Word) : portWrite s 0x10 (c.toNat : Int) = executeWord s c := by
  have hr : portReg 0x10 = .cmd := rfl
  rw [portWrite, hr]
  simp

/-- A host write of a word to `SEED` (R29, R61). -/
theorem portWrite_seed (s : State) (v : BitVec 64) : portWrite s 0x13 (v.toNat : Int) = .next (s.writeSeed v) := by
  have hr : portReg 0x13 = .seed := rfl
  rw [portWrite, hr]
  simp

/-! ### The engine at reset -/

@[simp] theorem Engine.reset_reg (i : BReg) : Engine.reset.reg i = 0 := by simp [Engine.reg, Engine.reset]
@[simp] theorem Engine.reset_valid (i : BReg) : Engine.reset.valid i = false := by simp [Engine.valid, Engine.reset]

end Sys2Proof.Machine
end

section
/-! SUPPORT. The statements about the engine's own registers (10_state.md), settled. -/

namespace Sys2Proof.Machine

/-- `FLAG` after a command (R27): its procedure's answer when it completes, 0 when it ends with an error. -/
theorem exec_flag {i : Instr} {s t : State} (h : exec i s = .next t) :
    t.eng.flag = true ↔ ∃ rn, i = .isprime rn ∧ t.eng.err = false ∧ isProbablePrime (s.eng.reg rn) = true := by
  obtain ⟨k, rfl⟩ | ⟨-, -, f, hf, -, rfl⟩ := exec_cases h
  · simp
  · simpa using procedure_answer hf

/-- Settles O11: `exec` ends as `exec_cases` says, and of all procedures only `ISPRIME`'s answers for `FLAG`; a word that is
illegal ends with an error; `FLAG` is overwritten unread. -/
theorem flagIsIsprimeOnly : Obligations.FlagIsIsprimeOnly := by
  refine ⟨fun i s t => exec_flag, fun s t c h hflag => ?_, fun i s b => ?_⟩
  · obtain ⟨x, -, hx⟩ | ⟨i, hi, hx⟩ := executeWord_cases s c
    · obtain rfl := Host.Outcome.next.inj (hx.symm.trans h)
      simp at hflag
    · obtain ⟨rn, rfl, herr, -⟩ := (exec_flag (hx.symm.trans h)).1 hflag
      exact ⟨herr, rn, hi⟩
  · have hr : State.raiseError { s with eng := { s.eng with flag := b } } .illegalCommand = s.raiseError .illegalCommand := rfl
    rw [exec_eq, exec_eq, State.execute_withFlag, hr]

/-- Settles O21: the port's writes of words give the first part; `MEXPM` is rejected without a seed, an error leaves `SEED` and
`SEEDV` alone, and a completion carries the effect of `procedure_mexpm_seed`. -/
theorem seedRegister : Obligations.SeedRegister := by
  refine ⟨portWrite_seed, fun e => rfl, fun s t rd rb re rn h => ⟨fun hseed => ?_, fun herr => ?_, fun herr => ?_⟩⟩
  · have hv : operandsValid (.mexpm rd rb re rn) s.eng = false := by simp [operandsValid, needsSeed, hseed]
    rw [exec_wellFormed rfl, State.execute_invalid hv] at h
    obtain rfl := Host.Outcome.next.inj h
    exact s.raiseError_endsWithError .operandInvalid
  · obtain ⟨k, rfl⟩ | ⟨-, -, f, -, -, rfl⟩ := exec_cases h
    · exact ⟨rfl, rfl⟩
    · simp at herr
  · obtain ⟨k, rfl⟩ | ⟨-, -, f, hf, -, rfl⟩ := exec_cases h
    · simp at herr
    · obtain ⟨hconsume, tr, htr, hmul⟩ := procedure_mexpm_seed hf
      refine ⟨by simp [hconsume], ?_⟩
      rw [State.complete_eng, Engine.finish_mtrace, Engine.apply_mtrace, htr]
      exact hmul

/-- Settles O24: a write to `CMD` executes the word, and neither an illegal word's error nor a command changes the stored
word. -/
theorem cmdRegister : Obligations.CmdRegister := by
  refine ⟨fun s c => ?_, rfl⟩
  obtain ⟨x, hx, hnext⟩ | ⟨i, hi, hnext⟩ := executeWord_cases s c
  · refine ⟨_, (portWrite_cmd s c).trans hnext, rfl, rfl, fun i hi => ?_, fun _ _ => State.raiseError_endsWithError ..⟩
    rw [hx] at hi
    cases hi
  · have hexec := exec_eq i (s.setCmd c)
    have hcmd := exec_cmd hexec
    refine ⟨_, ((portWrite_cmd s c).trans hnext).trans hexec, hcmd, ?_, fun j hj => ?_, fun x hx => ?_⟩
    · exact congrArg (fun w : Word => (w.toNat : Int)) hcmd
    · rw [hi] at hj
      cases hj
      exact hexec
    · rw [hi] at hx
      cases hx

/-- Settles O26: the registers and valid bits by `Engine.reset_reg` and `Engine.reset_valid`, every other element by its value
in `Engine.reset`. -/
theorem resetValues : Obligations.ResetValues :=
  ⟨fun i => ⟨Engine.reset_reg i, Engine.reset_valid i⟩, rfl, rfl, rfl, rfl, rfl, rfl, rfl, rfl⟩

end Sys2Proof.Machine
end

section
/-! SUPPORT. The port at the big registers: which numbers name them, what a write and a read of one answer, and the capacity in
the spec's own form: the facts the proofs about the memory (20_memory.md) are made of. -/

namespace Sys2Proof.Machine

/-- The numbers 0 to 7 name the big registers (R61). -/
@[simp] theorem portReg_ofNat_val (i : BReg) : portReg (BitVec.ofNat 8 i.val) = .b i := by
  have hi : (BitVec.ofNat 8 i.val).toNat = i.val := by rw [BitVec.toNat_ofNat]; omega
  simp only [portReg, hi]
  rw [dif_pos i.isLt]

/-- The capacity as the spec writes it: `|v| < 2^W` for a finite `W` (R23). -/
theorem Params.fits_iff {p : Params} {v : Int} : p.fits v = true ↔ ∀ w, p.w = some w → |v| < 2 ^ w := by
  have habs (w : Nat) : v.natAbs < 2 ^ w ↔ |v| < 2 ^ w := by
    rw [Int.abs_eq_natAbs]
    exact_mod_cast Iff.rfl
  unfold Params.fits
  cases p.w with
  | none => simp
  | some w => simp [habs]

/-- A host write to `Bi`: the register takes a value within the capacity, any other is no host action (R63). -/
theorem portWrite_b (s : State) (i : BReg) (v : Int) :
    portWrite s (BitVec.ofNat 8 i.val) v =
      if s.params.fits v then .next (s.writeB i v) else .refused .valueBeyondCapacity := by
  rw [portWrite, portReg_ofNat_val]

/-- A host read of `Bi`: its value when it is valid, else 0 (R64). -/
theorem portRead_b (e : Engine) (i : BReg) :
    portRead e (BitVec.ofNat 8 i.val) = if e.valid i then e.reg i else 0 := by
  rw [portRead, portReg_ofNat_val]

/-- With no reset input waiting, the step is the host's pending operation (R17). -/
theorem step_of_pendingOp {s : State} {op : HostOp} (hr : s.resetInput = false) (hp : pendingOp s = some op) :
    step s = hostStep op s := by
  obtain ⟨hr', -⟩ | ⟨-, op', hp', hstep⟩ | ⟨-, hp', -⟩ := step_cases s
  · rw [hr] at hr'
    cases hr'
  · obtain rfl : op = op' := Option.some.inj (hp.symm.trans hp')
    exact hstep
  · rw [hp] at hp'
    cases hp'

end Sys2Proof.Machine
end

section
/-! SUPPORT. The statements about the memory (20_memory.md), settled. -/

namespace Sys2Proof.Machine

/-- Settles O17: by `portWrite_b` a value within the capacity is written with `State.writeB`, whose effect the read-after-write
laws of the registers describe; a value with `2^W ≤ |v|` does not fit, so the write is refused. -/
theorem portWriteToBigRegister : Obligations.PortWriteToBigRegister := by
  refine fun s i v => ⟨fun hcap => ?_, fun ⟨w, hw, hbig⟩ t hnext => ?_⟩
  · have hfits : s.params.fits v = true := Params.fits_iff.2 hcap
    refine ⟨s.writeB i v, by rw [portWrite_b, if_pos hfits], by simp, by simp, fun j hj => ⟨?_, ?_⟩, rfl, ?_⟩
    · rw [State.writeB_eng, Engine.reg_writeReg, if_neg hj]
    · simp [Engine.valid_writeReg, hj]
    · simp [portRead_b]
  · have hfits : ¬ s.params.fits v = true := fun h => absurd (Params.fits_iff.1 h w hw) hbig.not_gt
    rw [portWrite_b, if_neg hfits] at hnext
    cases hnext

/-- Settles O18: the value is that of `portRead_b`; the step is the pending read, which stores its value in a variable of the
host and moves the host's place. -/
theorem portReadOfBigRegister : Obligations.PortReadOfBigRegister :=
  ⟨portRead_b, fun _ _ _ hr hp => ⟨_, step_of_pendingOp hr hp, rfl⟩⟩

end Sys2Proof.Machine
end

section
/-! SUPPORT. When a word belongs to a row of the opcode map, and which word the decoder answers with what: the facts the proofs
about the encoding (30_encoding.md) are made of. -/

namespace Sys2Proof

/-! ### Rows (R92, R95) -/

/-- A word of a row has the row's opcode, which every mask keeps whole (R92). -/
theorem Opcode.code_eq_opc {w : Word} {o : Opcode} (h : w &&& o.format.mask = o.matchWord) : o.code = (fieldsOf w).opc := by
  rw [← packWord_fieldsOf w, Format.mask_eq, packWord_and] at h
  have hopc : (fieldsOf w).opc &&& BitVec.allOnes 8 = o.code := congrArg CmdFields.opc (packWord_injective h)
  rw [← hopc, BitVec.and_allOnes]

/-- No word belongs to two rows (R92). -/
theorem Opcode.row_unique {w : Word} {o o' : Opcode} (h : w &&& o.format.mask = o.matchWord)
    (h' : w &&& o'.format.mask = o'.matchWord) : o = o' :=
  Opcode.code_injective ((Opcode.code_eq_opc h).trans (Opcode.code_eq_opc h').symm)

@[simp] theorem Opcode.opcode_build (o : Opcode) (f : CmdFields) : (o.build f).opcode = o := by
  cases o <;> rfl

/-- Fields that name the same register are equal (R93). -/
@[simp] theorem breg_inj {f g : BitVec 3} : breg f = breg g ↔ f = g :=
  ⟨fun h => congrArg field h, congrArg breg⟩

/-- The fields of a row make an ill-formed command only for `XGCD`, with two equal destination fields (R94). -/
theorem Opcode.build_illFormed_iff {o : Opcode} {f : CmdFields} :
    ¬ (o.build f).WF ↔ o = .xgcd ∧ (f.f1 = f.f2 ∨ f.f1 = f.f3 ∨ f.f2 = f.f3) := by
  cases o with
  | xgcd =>
    simp only [Opcode.build, Instr.WF, Instr.wellFormed, Bool.and_eq_true, bne_iff_ne, ne_eq, breg_inj, true_and]
    tauto
  | _ => simp [Opcode.build, Instr.wellFormed]

/-! ### The decoder's four answers (R97) -/

/-- The tests of R97 in their order: no row has the word's opcode, or one has it and the word either sets a bit that the row's
format leaves unused or belongs to the row. -/
theorem decode_cases (w : Word) :
    (decode w = .error .reservedOpcode ∧ ∀ o : Opcode, o.code ≠ (fieldsOf w).opc) ∨
    ∃ o : Opcode, o.code = (fieldsOf w).opc ∧
      ((decode w = .error .unusedBitSet ∧ w &&& o.format.mask ≠ o.matchWord) ∨
        (w &&& o.format.mask = o.matchWord ∧ decode w =
          if (o.build (fieldsOf w)).WF then .ok (o.build (fieldsOf w)) else .error .equalDestinations)) := by
  unfold decode
  cases hc : Opcode.ofCode (fieldsOf w).opc with
  | none =>
    refine .inl ⟨rfl, fun o ho => ?_⟩
    rw [← ho, Opcode.ofCode_code] at hc
    cases hc
  | some o =>
    refine .inr ⟨o, Opcode.code_of_ofCode hc, ?_⟩
    by_cases hrow : w &&& o.format.mask = o.matchWord
    · exact .inr ⟨hrow, if_neg (not_not_intro hrow)⟩
    · exact .inl ⟨if_pos hrow, hrow⟩

/-- A word of a row decodes to the command of its fields, unless that command is ill-formed (R92, R97 case (c)). -/
theorem decode_of_row {w : Word} {o : Opcode} (h : w &&& o.format.mask = o.matchWord) :
    decode w = if (o.build (fieldsOf w)).WF then .ok (o.build (fieldsOf w)) else .error .equalDestinations := by
  obtain ⟨-, hno⟩ | ⟨o', ho', ⟨-, hrow'⟩ | ⟨hrow', hd⟩⟩ := decode_cases w
  · exact absurd (Opcode.code_eq_opc h) (hno o)
  · obtain rfl := Opcode.code_injective (ho'.trans (Opcode.code_eq_opc h).symm)
    exact absurd h hrow'
  · obtain rfl := Opcode.row_unique h hrow'
    exact hd

/-- R97 case (a). -/
theorem decode_eq_reservedOpcode_iff {w : Word} :
    decode w = .error .reservedOpcode ↔ ∀ o : Opcode, o.code ≠ (fieldsOf w).opc := by
  obtain ⟨hd, hno⟩ | ⟨o, ho, ⟨hd, -⟩ | ⟨-, hd⟩⟩ := decode_cases w
  · exact iff_of_true hd hno
  · exact iff_of_false (by simp [hd]) fun hno => hno o ho
  · exact iff_of_false (by rw [hd]; split <;> simp) fun hno => hno o ho

/-- R97 case (b). -/
theorem decode_eq_unusedBitSet_iff {w : Word} :
    decode w = .error .unusedBitSet ↔ ∃ o : Opcode, o.code = (fieldsOf w).opc ∧ w &&& o.format.mask ≠ o.matchWord := by
  obtain ⟨hd, hno⟩ | ⟨o, ho, ⟨hd, hrow⟩ | ⟨hrow, hd⟩⟩ := decode_cases w
  · exact iff_of_false (by simp [hd]) fun ⟨o, ho, _⟩ => hno o ho
  · exact iff_of_true hd ⟨o, ho, hrow⟩
  · refine iff_of_false (by rw [hd]; split <;> simp) fun ⟨o', ho', hrow'⟩ => hrow' ?_
    obtain rfl := Opcode.code_injective (ho.trans ho'.symm)
    exact hrow

/-- A word that decodes or has equal destinations belongs to a row: the first two tests of R97 are passed. -/
theorem exists_row_of_decode {w : Word} (ha : decode w ≠ .error .reservedOpcode) (hb : decode w ≠ .error .unusedBitSet) :
    ∃ o : Opcode, w &&& o.format.mask = o.matchWord := by
  obtain ⟨hd, -⟩ | ⟨o, -, ⟨hd, -⟩ | ⟨hrow, -⟩⟩ := decode_cases w
  · exact absurd hd ha
  · exact absurd hd hb
  · exact ⟨o, hrow⟩

/-- R97 case (c): a word of the row of `XGCD` with two equal destination fields. -/
theorem decode_eq_equalDestinations_iff {w : Word} :
    decode w = .error .equalDestinations ↔ w &&& Opcode.xgcd.format.mask = Opcode.xgcd.matchWord ∧
      ((fieldsOf w).f1 = (fieldsOf w).f2 ∨ (fieldsOf w).f1 = (fieldsOf w).f3 ∨ (fieldsOf w).f2 = (fieldsOf w).f3) := by
  constructor
  · intro hd
    obtain ⟨o, hrow⟩ := exists_row_of_decode (w := w) (by simp [hd]) (by simp [hd])
    have hill : ¬ (o.build (fieldsOf w)).WF := fun hwf => by simp [decode_of_row hrow, hwf] at hd
    obtain ⟨rfl, heq⟩ := Opcode.build_illFormed_iff.1 hill
    exact ⟨hrow, heq⟩
  · rintro ⟨hrow, heq⟩
    rw [decode_of_row hrow, if_neg (Opcode.build_illFormed_iff.2 ⟨rfl, heq⟩)]

/-- A word that decodes belongs to the row of its command and is made of that command's operands (R92, R95). -/
theorem row_of_decode {w : Word} {i : Instr} (hd : decode w = .ok i) :
    w &&& i.opcode.format.mask = i.opcode.matchWord ∧ i = i.opcode.build (fieldsOf w) ∧ i.WF := by
  obtain ⟨o, hrow⟩ := exists_row_of_decode (w := w) (by simp [hd]) (by simp [hd])
  rw [decode_of_row hrow] at hd
  split at hd
  · rename_i hwf
    obtain rfl := Except.ok.inj hd
    rw [Opcode.opcode_build]
    exact ⟨hrow, rfl, hwf⟩
  · cases hd

/-- The one word that decodes to `NOP` is the zero word: the format of `NOP` fixes every bit (R97). -/
theorem decode_eq_nop_iff {w : Word} : decode w = .ok .nop ↔ w = 0 := by
  constructor
  · intro hd
    obtain ⟨hrow, -⟩ := row_of_decode hd
    have hw : w &&& BitVec.allOnes 32 = 0 := hrow
    rwa [BitVec.and_allOnes] at hw
  · rintro rfl
    decide

end Sys2Proof
end

section
/-! SUPPORT. The statements about the encoding (30_encoding.md), settled. -/

namespace Sys2Proof.Machine

/-- The operands of a command are its destinations, then its sources (R92). -/
theorem operands_eq_destinations_append_sources (i : Instr) : i.operands = destinations i ++ sources i := by
  cases i <;> rfl

/-- Settles O3: masks, formats and roles by cases on the definitions; a word that decodes belongs to its command's row
(`row_of_decode`); a word of a row decodes by its fields (`decode_of_row`), which are ill-formed for `XGCD` alone; the opcode
tells the rows apart. -/
theorem rowsAreMaskAndMatch : Obligations.RowsAreMaskAndMatch := by
  refine ⟨⟨rfl, rfl, rfl, rfl, rfl, rfl, rfl⟩, fun o => by cases o <;> rfl,
    fun i => ⟨operands_eq_destinations_append_sources i, by cases i <;> rfl⟩,
    fun w i hd => (row_of_decode hd).1, fun w o hrow => ?_, fun w o o' => Opcode.row_unique⟩
  rw [decode_of_row hrow]
  by_cases hwf : (o.build (fieldsOf w)).WF
  · exact .inl ⟨_, o.opcode_build _, if_pos hwf⟩
  · exact .inr ⟨(Opcode.build_illFormed_iff.1 hwf).1, if_neg hwf⟩

/-- Settles O4: each way to be illegal is the decoder's answer of that name, and an illegal word's execution is its error alone
(`executeWord_cases`). -/
theorem illegalWords : Obligations.IllegalWords := by
  refine ⟨fun w => decode_eq_reservedOpcode_iff, fun w => decode_eq_unusedBitSet_iff,
    fun w => decode_eq_equalDestinations_iff, fun w x s hd => ?_, fun w => decode_eq_nop_iff, by decide⟩
  obtain ⟨-, -, hnext⟩ | ⟨i, hi, -⟩ := executeWord_cases s w
  · exact ⟨_, hnext, State.raiseError_endsWithError _ .illegalCommand⟩
  · rw [hd] at hi
    cases hi

end Sys2Proof.Machine
end

section
/-! SUPPORT. What the write-back of an empty effect and `NOP` do, and the statement about `NOP` (46_system.md), settled. -/

namespace Sys2Proof.Machine

/-- An effect with nothing in it writes back nothing (R241 step 6). -/
@[simp] theorem Engine.apply_empty (e : Engine) : e.apply {} = e := by simp [Engine.apply]

/-- `NOP` has no operand to be invalid, no check to fail and no value beyond the capacity: it always completes, with nothing to
write back, so that `Finish` alone is left (R241 step 7, R242). -/
theorem exec_nop (s : State) : exec .nop s = .next (s.finish none false) := by
  have hcomplete : s.execute .nop (procedure .nop) = s.complete {} := State.execute_ok rfl rfl rfl
  have hfinish : s.complete {} = s.finish none false := by simp [State.complete, State.finish]
  rw [exec_wellFormed rfl, hcomplete, hfinish]

/-- A legal word's execution is its command's on the state whose `CMD` has taken the word (R32, R241). -/
theorem executeWord_of_decode {s : State} {c : Word} {i : Instr} (h : decode c = .ok i) :
    executeWord s c = exec i (s.setCmd c) := by
  rw [executeWord, h]

/-- Settles O34: `NOP` ends with `Finish` alone (`exec_nop`), and the zero word is its encoding (`decode_eq_nop_iff`). -/
theorem nopOnlyRewritesStatus : Obligations.NopOnlyRewritesStatus :=
  ⟨exec_nop, fun s => (executeWord_of_decode (decode_eq_nop_iff.2 rfl)).trans (exec_nop (s.setCmd 0))⟩

end Sys2Proof.Machine
end

section
/-! SUPPORT. What the host's library computes on non-negative operands, the bit length of a value between two powers of 2, and the
statement about random candidates (47_host_protocol.md), settled. -/

namespace Sys2Proof.Machine

/-! ### Bit operations of the host (R10, R11) -/

/-- On non-negative operands the host's `|` is `Nat`'s. -/
@[simp] theorem hostBits_bor (a b : Nat) : hostBits .bor a b = ((a ||| b : Nat) : Int) := by
  simp [hostBits, bitsDefined, bitsValue]

/-- On non-negative operands the host's `<<` is `Nat`'s. -/
@[simp] theorem hostBits_shl (a b : Nat) : hostBits .shl a b = ((a <<< b : Nat) : Int) := by
  simp [hostBits, bitsDefined, bitsValue]

section Eval

variable {vars : List (Nat × Int)} {x y : HExpr} {a b : Nat}

/-- `x | y` on operands with non-negative values. -/
theorem HExpr.eval_bor (hx : x.eval vars = .ok (a : Int)) (hy : y.eval vars = .ok (b : Int)) :
    (HExpr.bor x y).eval vars = .ok ((a ||| b : Nat) : Int) := by
  simp [HExpr.eval, hx, hy, bind, Except.bind, pure, Except.pure]

/-- `x << y` on operands with non-negative values. -/
theorem HExpr.eval_shl (hx : x.eval vars = .ok (a : Int)) (hy : y.eval vars = .ok (b : Int)) :
    (HExpr.shl x y).eval vars = .ok ((a <<< b : Nat) : Int) := by
  simp [HExpr.eval, hx, hy, bind, Except.bind, pure, Except.pure]

/-- A variable that has a value evaluates to it. -/
theorem HExpr.eval_var {k : Nat} {v : Int} (h : lookupVar k vars = some v) : (HExpr.var k).eval vars = .ok v := by
  simp [HExpr.eval, h]

end Eval

/-! ### Random candidates (R263) -/

/-- `2^(b-1) ≤ v < 2^b` says that `v` has exactly `b` bits (R11). -/
theorem bitlen_eq_of_bounds {b v : Nat} (hb : 1 ≤ b) (hlow : 2 ^ (b - 1) ≤ v) (hhigh : v < 2 ^ b) : bitlen v = b := by
  have hv : v ≠ 0 := ((Nat.two_pow_pos _).trans_le hlow).ne'
  have hlog : Nat.log2 v = b - 1 := (Nat.log2_eq_iff hv).2 ⟨hlow, by rwa [Nat.sub_add_cancel hb]⟩
  rw [bitlen, if_neg hv, hlog, Nat.sub_add_cancel hb]

/-- The top bit is set. -/
theorem two_pow_le_randomCandidate (b v : Nat) : 2 ^ (b - 1) ≤ randomCandidate b v := by
  rw [randomCandidate, Nat.one_shiftLeft]
  exact Nat.right_le_or.trans Nat.left_le_or

/-- Setting the top and the bottom bit of a value of `b` bits sets no bit above. -/
theorem randomCandidate_lt {b v : Nat} (hb : 1 ≤ b) (hv : v < 2 ^ b) : randomCandidate b v < 2 ^ b := by
  have htop : 1 <<< (b - 1) < 2 ^ b := by
    rw [Nat.one_shiftLeft]
    exact Nat.pow_lt_pow_right (by decide) (by omega)
  have hbottom : 1 < 2 ^ b := Nat.one_lt_two_pow (by omega)
  exact Nat.or_lt_two_pow (Nat.or_lt_two_pow hv htop) hbottom

/-- The bottom bit is set. -/
theorem randomCandidate_odd (b v : Nat) : randomCandidate b v % 2 = 1 := by
  rw [randomCandidate, Nat.or_mod_two_eq_one]
  exact .inr rfl

/-- The host's expression computes the candidate of the value drawn. -/
theorem candidateExpr_eval {b v : Nat} {vars : List (Nat × Int)} (hb : 1 ≤ b) (hv : lookupVar varV vars = some (v : Int)) :
    (candidateExpr b).eval vars = .ok (randomCandidate b v : Int) := by
  have hshift : (HExpr.const ((b : Int) - 1)).eval vars = .ok ((b - 1 : Nat) : Int) := by
    rw [HExpr.eval, Nat.cast_sub hb, Nat.cast_one]
  exact HExpr.eval_bor (HExpr.eval_bor (HExpr.eval_var hv) (HExpr.eval_shl (a := 1) rfl hshift)) (b := 1) rfl

/-- Settles O57: the candidate lies between `2^(b-1)` and `2^b` (`two_pow_le_randomCandidate`, `randomCandidate_lt`), is odd
(`randomCandidate_odd`), and the host's expression computes it (`candidateExpr_eval`). -/
theorem randomCandidateShape : Obligations.RandomCandidateShape := fun b v _ hb hv =>
  ⟨bitlen_eq_of_bounds hb (two_pow_le_randomCandidate b v) (randomCandidate_lt hb hv), randomCandidate_odd b v,
    candidateExpr_eval hb⟩

end Sys2Proof.Machine
end

section
/-! SUPPORT. Which error a procedure raises, said once for all commands: the tests of R313, R304, R314 and R315 in their order,
and with them when a command reports which code: the facts the proofs about the errors (60_exceptions.md) are made of. -/

namespace Sys2Proof.Machine

/-! ### Computations that test their operands in the order of the error rules -/

/-- How a computation ends that tests for a zero modulus, then for a value out of range, then for an even modulus, then for an
operand that shares a factor with the modulus, and raises the error of the first test that finds what it looks for (R304, R313,
R314, R315). A test that the computation does not make looks for `False`. -/
inductive Checked {α : Type} (zero range even shared : Prop) : Except ErrorKind α → Prop
  | divisionByZero : zero → Checked zero range even shared (.error .divisionByZero)
  | operandRange : ¬ zero → range → Checked zero range even shared (.error .operandRange)
  | invalidModulus : ¬ zero → ¬ range → even → Checked zero range even shared (.error .invalidModulus)
  | noInverse : ¬ zero → ¬ range → ¬ even → shared → Checked zero range even shared (.error .noInverse)
  | ok (a : α) : ¬ zero → ¬ range → ¬ even → ¬ shared → Checked zero range even shared (.ok a)

namespace Checked

section Tests
variable {α β : Type} {zero range even shared : Prop} {x : Except ErrorKind α}

/-- Without a test. -/
theorem pass (a : α) : Checked False False False False (.ok a : Except ErrorKind α) := .ok a id id id id

/-- The test for a zero modulus comes first. -/
theorem zeroTest [Decidable zero] (h : ¬ zero → Checked False range even shared x) :
    Checked zero range even shared (if zero then .error .divisionByZero else x) := by
  by_cases hz : zero
  · rw [if_pos hz]
    exact .divisionByZero hz
  · rw [if_neg hz, eq_false hz]
    exact h hz

/-- The range test comes before those of the modulus's parity and of the common factor. -/
theorem rangeTest [Decidable range] (h : ¬ range → Checked False False even shared x) :
    Checked False range even shared (if range then .error .operandRange else x) := by
  by_cases hr : range
  · rw [if_pos hr]
    exact .operandRange id hr
  · rw [if_neg hr, eq_false hr]
    exact h hr

/-- The parity test, in whatever form the computation makes it. -/
theorem evenTest {p : Prop} [Decidable p] (hp : p ↔ even) (h : ¬ even → Checked False False False shared x) :
    Checked False False even shared (if p then .error .invalidModulus else x) := by
  by_cases he : even
  · rw [if_pos (hp.2 he)]
    exact .invalidModulus id id he
  · rw [if_neg (mt hp.1 he), eq_false he]
    exact h he

/-- The test for a common factor comes last, in whatever form the computation makes it. -/
theorem sharedTest {p : Prop} [Decidable p] (hp : p ↔ shared) (a : α) :
    Checked False False False shared (if p then .error .noInverse else .ok a) := by
  by_cases hs : shared
  · rw [if_pos (hp.2 hs)]
    exact .noInverse id id id hs
  · rw [if_neg (mt hp.1 hs)]
    exact .ok a id id id hs

/-- What is made of the answer afterwards raises nothing more. -/
theorem map (h : Checked zero range even shared x) (f : α → β) :
    Checked zero range even shared (x >>= fun a => pure (f a)) := by
  cases h with
  | divisionByZero hz => exact .divisionByZero hz
  | operandRange hz hr => exact .operandRange hz hr
  | invalidModulus hz hr he => exact .invalidModulus hz hr he
  | noInverse hz hr he hs => exact .noInverse hz hr he hs
  | ok a hz hr he hs => exact .ok (f a) hz hr he hs

/-- Two computations in sequence, the second without a test for zero that the first did not make: their range tests count as
one. -/
theorem bind {zero' range' : Prop} {g : α → Except ErrorKind β} (hx : Checked zero range False False x)
    (hg : ∀ a, Checked zero' range' even shared (g a)) (hzero : zero' → zero) :
    Checked zero (range ∨ range') even shared (x >>= g) := by
  cases hx with
  | divisionByZero hz => exact .divisionByZero hz
  | operandRange hz hr => exact .operandRange hz (.inl hr)
  | invalidModulus _ _ he => exact he.elim
  | noInverse _ _ _ hs => exact hs.elim
  | ok a hz hr _ _ =>
    have hrange : ¬ range' → ¬ (range ∨ range') := fun hr' => not_or.2 ⟨hr, hr'⟩
    have hga := hg a
    show Checked zero (range ∨ range') even shared (g a)
    generalize g a = y at hga ⊢
    cases hga with
    | divisionByZero hz' => exact absurd (hzero hz') hz
    | operandRange _ hr' => exact .operandRange hz (.inr hr')
    | invalidModulus _ hr' he => exact .invalidModulus hz (hrange hr') he
    | noInverse _ hr' he hs => exact .noInverse hz (hrange hr') he hs
    | ok b _ hr' he hs => exact .ok b hz (hrange hr') he hs

/-- The range condition may be written in another way. -/
theorem range_congr {range' : Prop} (h : Checked zero range even shared x) (hr : range ↔ range') :
    Checked zero range' even shared x :=
  propext hr ▸ h

end Tests

section Answers
variable {α : Type} {zero range even shared : Prop} {x : Except ErrorKind α} (h : Checked zero range even shared x)
include h

/-- `DivisionByZero` is the first test's (R313). -/
theorem eq_divisionByZero_iff : x = .error .divisionByZero ↔ zero := by
  cases h <;> simp [*]

/-- `OperandRange` is the second test's (R304). -/
theorem eq_operandRange_iff : x = .error .operandRange ↔ ¬ zero ∧ range := by
  cases h <;> simp [*]

/-- `InvalidModulus` is the third test's (R314). -/
theorem eq_invalidModulus_iff : x = .error .invalidModulus ↔ ¬ zero ∧ ¬ range ∧ even := by
  cases h <;> simp [*]

/-- `NoInverse` is the last test's (R315). -/
theorem eq_noInverse_iff : x = .error .noInverse ↔ ¬ zero ∧ ¬ range ∧ ¬ even ∧ shared := by
  cases h <;> simp [*]

/-- `OperandInvalid` is found before any of these tests (R303). -/
theorem ne_operandInvalid : x ≠ .error .operandInvalid := by
  cases h <;> simp

/-- `Overflow` is found after all of these tests (R305). -/
theorem ne_overflow : x ≠ .error .overflow := by
  cases h <;> simp

/-- When no test finds anything there is an answer. -/
theorem exists_eq_ok (hz : ¬ zero) (hr : ¬ range) (he : ¬ even) (hs : ¬ shared) : ∃ a, x = .ok a := by
  cases h with
  | ok a => exact ⟨a, rfl⟩
  | divisionByZero hz' => exact absurd hz' hz
  | operandRange _ hr' => exact absurd hr' hr
  | invalidModulus _ _ he' => exact absurd he' he
  | noInverse _ _ _ hs' => exact absurd hs' hs

end Answers

end Checked

/-! ### The greatest common divisor and the inverse -/

section Loop
variable (fuel A : Nat) {B : Nat} (x0 x1 y0 y1 : Int)

/-- The loop of R140 has ended when `B` is 0. -/
theorem xgcdLoop_ended : xgcdLoop fuel A 0 x0 x1 y0 y1 = { g := A, x := x0, y := y0 } := by
  cases fuel <;> rfl

/-- One iteration of the loop of R140, the new `B` written as the remainder that it is. -/
theorem xgcdLoop_iterate (hB : B ≠ 0) : xgcdLoop (fuel + 1) A B x0 x1 y0 y1 =
    xgcdLoop fuel B (A % B) x1 (x0 - (A / B : Nat) * x1) y1 (y0 - (A / B : Nat) * y1) := by
  have hmod : A - A / B * B = A % B := by rw [Nat.mod_eq_sub_mul_div, Nat.mul_comm]
  rw [xgcdLoop, if_neg hB, ← hmod]

end Loop

/-- An iteration of R140 keeps the greatest common divisor. -/
theorem gcd_iterate (A B : Nat) : Nat.gcd B (A % B) = Nat.gcd A B := by
  rw [Nat.gcd_comm B, ← Nat.gcd_rec, Nat.gcd_comm]

/-- The loop of R140 leaves the greatest common divisor. -/
theorem xgcdLoop_g {fuel A B : Nat} (x0 x1 y0 y1 : Int) (h : B ≤ fuel) :
    (xgcdLoop fuel A B x0 x1 y0 y1).g = Nat.gcd A B := by
  induction fuel generalizing A B x0 x1 y0 y1 with
  | zero =>
    obtain rfl := Nat.le_zero.1 h
    exact (Nat.gcd_zero_right A).symm
  | succ fuel ih =>
    obtain rfl | hB := Nat.eq_zero_or_pos B
    · rw [xgcdLoop_ended, Nat.gcd_zero_right]
    · have hlt : A % B < B := Nat.mod_lt A hB
      rw [xgcdLoop_iterate _ _ _ _ _ _ hB.ne', ih _ _ _ _ (by omega), gcd_iterate]

/-- `Xgcd` returns the greatest common divisor (R140). -/
theorem xgcdNat_g (A B : Nat) : (xgcdNat A B).g = Nat.gcd A B := xgcdLoop_g 1 0 0 1 le_rfl

/-- `Norm` keeps the greatest common divisor with the modulus (R143). -/
theorem gcd_normMod (A : Int) {n : Int} (hn : 0 < n) : Nat.gcd (normMod A n.toNat) n.toNat = Int.gcd A n := by
  have hpos : 0 < n.toNat := by omega
  rw [← Int.gcd_natCast_natCast, normMod_eq A hpos, Int.toNat_of_nonneg hn.le, Int.gcd_emod]

/-! ### The tests of each computation -/

/-- R121. -/
theorem checkDivision_checked (a n : Int) : Checked (n = 0) (a < 0 ∨ n < 0) False False (checkDivision a n) :=
  .zeroTest fun _ => .rangeTest fun _ => .pass ()

/-- R140. -/
theorem xgcd_checked (A B : Int) : Checked False (A < 0 ∨ B < 0) False False (xgcd A B) :=
  .rangeTest fun _ => .pass _

/-- R145. -/
theorem invMod_checked (A n : Int) : Checked (n = 0) (n < 0) False (Int.gcd A n ≠ 1) (invMod A n) := by
  refine .zeroTest fun hz => .rangeTest fun hr => .sharedTest ?_ _
  rw [xgcdNat_g, gcd_normMod A (by omega)]

/-- R180. -/
theorem expChecks_checked (b e n : Int) : Checked (n = 0) (b < 0 ∨ e < 0 ∨ n < 0) False False (expChecks b e n) :=
  .zeroTest fun _ => .rangeTest fun _ => .pass ()

/-- R231. -/
theorem crtRec_checked (m1 m2 p q qinv : Int) :
    Checked (p = 0) (m1 < 0 ∨ m2 < 0 ∨ p < 0 ∨ q < 0 ∨ qinv < 0) False False (crtRec m1 m2 p q qinv) :=
  .zeroTest fun _ => .rangeTest fun _ => .pass _

/-- R206, R209. -/
theorem residueOf_checked (c : MontCtx) (a : Int) : Checked False (a < 0 ∨ (c.n : Int) ≤ a) False False (residueOf c a) :=
  .rangeTest fun _ => .pass _

/-- The parity test of R201 looks at the lowest bit. -/
theorem testBit_zero_eq_false_iff {n : Int} (hn : 0 < n) : (!n.toNat.testBit 0) = true ↔ n % 2 = 0 := by
  simp only [Nat.testBit_zero, Bool.not_eq_true', decide_eq_false_iff_not]
  omega

/-- An odd value has an inverse modulo every power of 2, so that the inverse inside `MontCtx` exists (R201, R315). -/
theorem gcd_two_pow_of_odd {n : Int} (hodd : ¬ n % 2 = 0) (k : Nat) : Int.gcd n ((1 <<< k : Nat) : Int) = 1 := by
  have hcop : Nat.Coprime n.natAbs 2 := Nat.coprime_two_right.2 (Nat.odd_iff.2 (by omega))
  rw [Nat.one_shiftLeft]
  exact hcop.pow_right k

/-- R201: the inverse inside the construction raises nothing. -/
theorem montCtx_checked (n : Int) : Checked (n = 0) (n < 0) (n % 2 = 0) False (montCtx n) := by
  refine .zeroTest fun hz => .rangeTest fun hr => .evenTest (testBit_zero_eq_false_iff (by omega)) fun hodd => ?_
  have hpos : 0 < 1 <<< bitlen n.toNat := by
    rw [Nat.one_shiftLeft]
    exact Nat.two_pow_pos _
  obtain ⟨ninv, hninv⟩ := (invMod_checked n (1 <<< bitlen n.toNat : Nat)).exists_eq_ok (by omega) (by omega) id
    (not_not_intro (gcd_two_pow_of_odd hodd _))
  simp only [hninv]
  exact .pass _

/-- R212: the tests of `MontCtx` for a zero or negative modulus come too late to find anything. -/
theorem expMont_checked (perm : Nat → List Nat) (G : Nat) (b e n : Int) :
    Checked (n = 0) (b < 0 ∨ e < 0 ∨ n < 0) (n % 2 = 0) False (expMont perm G b e n) :=
  ((expChecks_checked b e n).bind (fun _ => (montCtx_checked n).map _) id).range_congr (by tauto)

/-- Every command's procedure makes the tests of the error rules, in their order (R241 step 3, R303, R304, R313 to R315). -/
theorem procedure_checked (i : Instr) (s : State) :
    Checked (ZeroModulus i s.eng) (OutOfRange i s.eng) (EvenModulus i s.eng) (NotInvertible i s.eng) (procedure i s) := by
  cases i with
  | nop => exact .pass _
  | reduce rd ra rn => exact ((checkDivision_checked _ _).map _).map _
  | quot rd ra rn => exact ((checkDivision_checked _ _).map _).map _
  | xgcd rg rx ry ra rb => exact (xgcd_checked _ _).map _
  | invmod rd ra rn => exact (invMod_checked _ _).map _
  | isprime rn => exact .pass _
  | mexpb rd rb re rn => exact ((expChecks_checked _ _ _).map _).map _
  | mexpw rd rb re rn => exact ((expChecks_checked _ _ _).map _).map _
  | mexpm rd rb re rn => exact (expMont_checked ..).map _
  | mctx rn => exact (montCtx_checked _).map _
  | mmul rd ra rb =>
    exact ((residueOf_checked _ _).bind (fun _ => (residueOf_checked _ _).map _) id).range_congr
      (show (_ ∨ _) ∨ (_ ∨ _) ↔ _ ∨ _ ∨ _ ∨ _ by tauto)
  | mto rd ra => exact .rangeTest (range := s.eng.reg ra < 0) fun _ => .pass _
  | mfrom rd ra => exact (residueOf_checked _ _).map _
  | crtrec rd rm1 rm2 rp rq ri => exact (crtRec_checked ..).map _

/-! ### The code a command reports -/

/-- A kind's code names the kind (R300). -/
theorem ErrorKind.ofCode_code (k : ErrorKind) : ErrorKind.ofCode k.code.toNat = some k := by
  cases k <;> rfl

/-- No two kinds share a code (R300). -/
theorem ErrorKind.code_injective {k k' : ErrorKind} (h : k.code = k'.code) : k = k' :=
  Option.some.inj (by rw [← k.ofCode_code, h, k'.ofCode_code])

/-- No kind has the code of success (R300). -/
theorem ErrorKind.code_ne_zero (k : ErrorKind) : k.code ≠ 0 := by
  cases k <;> decide

/-- An error's code is what `STATUS` reports (R306). -/
theorem State.errcode_raiseError (s : State) (k : ErrorKind) : (s.raiseError k).eng.errcode = k.code := rfl

/-- The validity test of `Execute` looks for what R303 lists. -/
theorem operandsValid_eq_true_iff {i : Instr} {e : Engine} : operandsValid i e = true ↔ ¬ SomethingInvalid i e := by
  cases i <;> simp [operandsValid, SomethingInvalid, needsContext, needsSeed]

/-- A command with something invalid ends with `OperandInvalid` (R303). -/
theorem errcode_of_somethingInvalid {i : Instr} {s t : State} (hwf : i.WF) (h : exec i s = .next t)
    (hi : SomethingInvalid i s.eng) : t.eng.errcode = ErrorKind.operandInvalid.code := by
  have hv : operandsValid i s.eng = false := by
    rw [← Bool.not_eq_true, operandsValid_eq_true_iff]
    exact not_not_intro hi
  rw [exec_wellFormed hwf, State.execute_invalid hv] at h
  obtain rfl := Host.Outcome.next.inj h
  rfl

/-- With valid operands a command reports what its procedure raises, but for `Overflow`, which comes after it (R241). -/
theorem errcode_eq_code_iff {i : Instr} {s t : State} {k : ErrorKind} (hwf : i.WF) (h : exec i s = .next t)
    (hv : ¬ SomethingInvalid i s.eng) (hk : k ≠ .overflow) :
    t.eng.errcode = k.code ↔ procedure i s = .error k := by
  rw [exec_wellFormed hwf] at h
  obtain rfl := Host.Outcome.next.inj h
  obtain ⟨hv', -⟩ | ⟨-, k', hp, he⟩ | ⟨-, f, hp, -, he⟩ | ⟨-, f, hp, -, he⟩ := s.execute_cases i (procedure i)
  · rw [operandsValid_eq_true_iff.2 hv] at hv'
    cases hv'
  · rw [he, hp, State.errcode_raiseError]
    exact ⟨fun hc => congrArg _ (ErrorKind.code_injective hc), fun hc => congrArg _ (Except.error.inj hc)⟩
  · rw [he, hp, State.errcode_raiseError]
    exact iff_of_false (fun hc => hk (ErrorKind.code_injective hc).symm) nofun
  · rw [he, hp]
    exact iff_of_false (fun hc => k.code_ne_zero hc.symm) nofun

/-- A command reports `Overflow` only when its procedure's values do not fit (R305). -/
theorem exists_unfit_of_errcode_overflow {i : Instr} {s t : State} (h : exec i s = .next t)
    (hcode : t.eng.errcode = ErrorKind.overflow.code) :
    operandsValid i s.eng = true ∧ ∃ f, procedure i s = .ok f ∧ f.fits s.params = false := by
  have hkind {k : ErrorKind} (hc : (s.raiseError k).eng.errcode = ErrorKind.overflow.code) : k = .overflow :=
    ErrorKind.code_injective hc
  rw [exec_eq] at h
  obtain rfl := Host.Outcome.next.inj h
  split at hcode
  · obtain ⟨-, he⟩ | ⟨-, k, hp, he⟩ | ⟨hv, f, hp, hf, -⟩ | ⟨-, f, -, -, he⟩ := s.execute_cases i (procedure i)
    · rw [he] at hcode
      cases hkind hcode
    · rw [he] at hcode
      rw [hkind hcode] at hp
      exact absurd hp (procedure_checked i s).ne_overflow
    · exact ⟨hv, f, hp, hf⟩
    · rw [he] at hcode
      exact absurd hcode.symm (ErrorKind.code_ne_zero _)
  · cases hkind hcode

/-- No command tests both the parity of a modulus and a common factor with it. -/
theorem not_evenModulus_of_notInvertible {i : Instr} {e : Engine} (h : NotInvertible i e) : ¬ EvenModulus i e := by
  cases i <;> simp_all [NotInvertible, EvenModulus]

end Sys2Proof.Machine
end

section
/-! SUPPORT. The size of every command's results against its operands, and with it which results fit the capacity at write-back:
the facts the proof about `Overflow` (60_exceptions.md) is made of. -/

namespace Sys2Proof.Machine

/-! ### Values within the capacity (R23) -/

section Capacity
variable {p : Params}

/-- A natural value no larger than one within the capacity is within it. -/
theorem Params.fits_natCast_of_le {v : Nat} {n : Int} (hn : p.fits n = true) (h : (v : Int) ≤ n) : p.fits v = true :=
  Params.fits_of_le hn (by omega)

/-- A value no larger in size than one of two within the capacity is within it. -/
theorem Params.fits_of_le_max {u v w : Int} (hv : p.fits v = true) (hw : p.fits w = true)
    (h : u.natAbs ≤ max v.natAbs w.natAbs) : p.fits u = true := by
  obtain hle | hle := le_max_iff.1 h
  · exact Params.fits_of_le hv hle
  · exact Params.fits_of_le hw hle

/-- A positive capacity holds 1. -/
theorem Params.fits_one (hW : WPositive p) : p.fits 1 = true := by
  refine Params.fits_iff.2 fun w hw => ?_
  have hw0 : w ≠ 0 := fun h0 => hW (by rw [hw, h0])
  rw [abs_one]
  exact_mod_cast Nat.one_lt_two_pow hw0

/-- An infinite capacity holds everything. -/
theorem Params.fits_of_w_none (h : p.w = none) (v : Int) : p.fits v = true :=
  Params.fits_iff.2 fun _ hw => absurd (h.symm.trans hw) nofun

end Capacity

/-! ### Remainder, quotient and the Bezout coefficients -/

/-- A computation that has an answer found neither a zero modulus nor a value out of range. -/
theorem Checked.domain {α : Type} {zero range even shared : Prop} {x : Except ErrorKind α} {a : α}
    (h : Checked zero range even shared x) (hx : x = .ok a) : ¬ zero ∧ ¬ range := by
  subst hx
  cases h with
  | ok _ hz hr => exact ⟨hz, hr⟩

/-- A remainder is below its modulus (R122). -/
theorem reduce_le {a n : Int} {r : Nat} (h : reduce a n = .ok r) : (r : Int) ≤ n := by
  obtain ⟨hz, hr⟩ := ((checkDivision_checked a n).map _).domain h
  rw [reduce_ok (by omega) (by omega)] at h
  obtain rfl := Except.ok.inj h
  have := Nat.mod_lt a.toNat (show 0 < n.toNat by omega)
  omega

/-- A quotient is at most its dividend (R123). -/
theorem quotient_le {a n : Int} {t : Nat} (h : quotient a n = .ok t) : (t : Int) ≤ a := by
  obtain ⟨hz, hr⟩ := ((checkDivision_checked a n).map _).domain h
  rw [quotient_ok (by omega) (by omega)] at h
  obtain rfl := Except.ok.inj h
  have := Nat.div_le_self a.toNat n.toNat
  omega

/-- The loop of R140 treats its two rows of coefficients alike. -/
theorem xgcdLoop_y (fuel A B : Nat) (x0 x1 y0 y1 : Int) :
    (xgcdLoop fuel A B x0 x1 y0 y1).y = (xgcdLoop fuel A B y0 y1 x0 x1).x := by
  induction fuel generalizing A B x0 x1 y0 y1 with
  | zero => rfl
  | succ fuel ih =>
    obtain rfl | hB := Nat.eq_zero_or_pos B
    · rw [xgcdLoop_ended, xgcdLoop_ended]
    · rw [xgcdLoop_iterate _ _ _ _ _ _ hB.ne', xgcdLoop_iterate _ _ _ _ _ _ hB.ne', ih]

/-- The coefficients grow no further than `(A·|x1| + B·|x0|) / gcd(A, B)`, whose numerator no iteration of R140 increases. -/
theorem natAbs_xgcdLoop_x_le {fuel A B : Nat} (x0 x1 y0 y1 : Int) :
    (xgcdLoop fuel A B x0 x1 y0 y1).x.natAbs ≤
      max x0.natAbs (max x1.natAbs ((A * x1.natAbs + B * x0.natAbs) / Nat.gcd A B)) := by
  induction fuel generalizing A B x0 x1 y0 y1 with
  | zero => exact le_max_left ..
  | succ fuel ih =>
    obtain rfl | hB := Nat.eq_zero_or_pos B
    · rw [xgcdLoop_ended]
      exact le_max_left ..
    · have hstep : (x0 - (A / B : Nat) * x1).natAbs ≤ x0.natAbs + A / B * x1.natAbs := by
        rw [← Int.natAbs_natCast (A / B), ← Int.natAbs_mul, Int.natAbs_natCast]
        exact Int.natAbs_sub_le ..
      have hsum : B * (x0.natAbs + A / B * x1.natAbs) + A % B * x1.natAbs = A * x1.natAbs + B * x0.natAbs := by
        conv_rhs => rw [← Nat.div_add_mod A B]
        ring
      have hnum : B * (x0 - (A / B : Nat) * x1).natAbs + A % B * x1.natAbs ≤ A * x1.natAbs + B * x0.natAbs :=
        (Nat.add_le_add_right (Nat.mul_le_mul_left B hstep) _).trans_eq hsum
      have hnew : (x0 - (A / B : Nat) * x1).natAbs ≤ (A * x1.natAbs + B * x0.natAbs) / Nat.gcd A B := by
        rw [Nat.le_div_iff_mul_le (Nat.gcd_pos_of_pos_right A hB), Nat.mul_comm]
        exact (Nat.mul_le_mul_right _ (Nat.gcd_le_right A hB)).trans ((Nat.le_add_right ..).trans hnum)
      have hdiv := Nat.div_le_div_right (c := Nat.gcd A B) hnum
      have hih := ih (A := B) (B := A % B) x1 (x0 - (A / B : Nat) * x1) y1 (y0 - (A / B : Nat) * y1)
      rw [xgcdLoop_iterate _ _ _ _ _ _ hB.ne']
      rw [gcd_iterate] at hih
      omega

/-- The bound of R142 on the coefficient of `A`. -/
theorem natAbs_xgcdNat_x_le (A B : Nat) : (xgcdNat A B).x.natAbs ≤ max 1 (B / Nat.gcd A B) := by
  rw [xgcdNat]
  simpa using natAbs_xgcdLoop_x_le (fuel := B) (A := A) (B := B) 1 0 0 1

/-- The bound of R142 on the coefficient of `B`. -/
theorem natAbs_xgcdNat_y_le (A B : Nat) : (xgcdNat A B).y.natAbs ≤ max 1 (A / Nat.gcd A B) := by
  rw [xgcdNat, xgcdLoop_y]
  simpa using natAbs_xgcdLoop_x_le (fuel := B) (A := A) (B := B) 0 1 1 0

/-- The greatest common divisor is no larger than the larger operand. -/
theorem gcd_le_max (A B : Nat) : Nat.gcd A B ≤ max A B := by
  obtain rfl | hA := Nat.eq_zero_or_pos A
  · rw [Nat.gcd_zero_left]
    exact le_max_right ..
  · exact (Nat.gcd_le_left B hA).trans (le_max_left ..)

/-- What `Xgcd` returns is within the capacity when its operands and 1 are (R142, R305). -/
theorem xgcd_fits {p : Params} {a b : Int} {z : Bezout} (h : xgcd a b = .ok z) (hW : WPositive p)
    (ha : p.fits a = true) (hb : p.fits b = true) :
    p.fits z.g = true ∧ p.fits z.x = true ∧ p.fits z.y = true := by
  obtain ⟨-, hr⟩ := (xgcd_checked a b).domain h
  rw [xgcd, if_neg hr] at h
  obtain rfl := Except.ok.inj h
  have hx := natAbs_xgcdNat_x_le a.toNat b.toNat
  have hy := natAbs_xgcdNat_y_le a.toNat b.toNat
  have hxdiv := Nat.div_le_self b.toNat (Nat.gcd a.toNat b.toNat)
  have hydiv := Nat.div_le_self a.toNat (Nat.gcd a.toNat b.toNat)
  have hg := gcd_le_max a.toNat b.toNat
  rw [← xgcdNat_g] at hg
  have h1 := Params.fits_one hW
  refine ⟨Params.fits_of_le_max ha hb ?_, Params.fits_of_le_max h1 hb ?_, Params.fits_of_le_max h1 ha ?_⟩
  · omega
  · rw [Int.natAbs_one]
    omega
  · rw [Int.natAbs_one]
    omega

/-- An inverse is below its modulus (R145). -/
theorem invMod_le {a n : Int} {d : Nat} (h : invMod a n = .ok d) : (d : Int) ≤ n := by
  obtain ⟨hz, hr⟩ := (invMod_checked a n).domain h
  rw [invMod, if_neg hz, if_neg hr] at h
  simp only [] at h
  split at h
  · cases h
  · obtain rfl := Except.ok.inj h
    have := normMod_lt (xgcdNat (normMod a n.toNat) n.toNat).x (show 0 < n.toNat by omega)
    omega

/-! ### Exponentiation by squaring and by windows -/

section Modulus
variable {n : Nat} (hn : 0 < n)
include hn

/-- A product modulo `n` is below `n` (R127). -/
theorem modMul_lt (a b : Nat) : modMul a b n < n := Nat.mod_lt _ hn

/-- The scan of R181 keeps its accumulator below the modulus. -/
theorem expBinaryLoop_lt (b e i : Nat) {acc : Nat} (hacc : acc < n) : expBinaryLoop b e n i acc < n := by
  induction i generalizing acc with
  | zero => exact hacc
  | succ i ih =>
    refine ih ?_
    split <;> exact modMul_lt hn ..

/-- The scan of R186 keeps its accumulator below the modulus. -/
theorem expWindowLoop_lt (g : List Nat) (e fuel todo : Nat) {acc : Nat} (hacc : acc < n) :
    expWindowLoop g e n fuel todo acc < n := by
  induction fuel generalizing todo acc with
  | zero => exact hacc
  | succ fuel ih =>
    cases todo with
    | zero => exact hacc
    | succ i =>
      rw [expWindowLoop]
      split <;> exact ih _ (modMul_lt hn ..)

end Modulus

/-- A power by squaring is below its modulus (R181). -/
theorem expBinary_le {b e n : Int} {v : Nat} (h : expBinary b e n = .ok v) : (v : Int) ≤ n := by
  obtain ⟨hz, hr⟩ := ((expChecks_checked b e n).map _).domain h
  have hn : 0 < n.toNat := by omega
  rw [expBinary, expChecks_ok (by omega) (by omega) (by omega)] at h
  obtain rfl := Except.ok.inj h
  have : expBinaryNat b.toNat e.toNat n.toNat < n.toNat := expBinaryLoop_lt hn _ _ _ (Nat.mod_lt 1 hn)
  omega

/-- A power by windows is below its modulus (R186). -/
theorem expWindow_le {b e n : Int} {v : Nat} (h : expWindow b e n = .ok v) : (v : Int) ≤ n := by
  obtain ⟨hz, hr⟩ := ((expChecks_checked b e n).map _).domain h
  have hn : 0 < n.toNat := by omega
  rw [expWindow, expChecks_ok (by omega) (by omega) (by omega)] at h
  obtain rfl := Except.ok.inj h
  have : expWindowNat b.toNat e.toNat n.toNat < n.toNat := expWindowLoop_lt hn _ _ _ _ (Nat.mod_lt 1 hn)
  omega

/-! ### The Montgomery computations -/

/-- What the bound on `Redc` needs of a context: a positive modulus below the radix `2^k`, and the radix's mask (R30). -/
structure MontCtx.Sized (c : MontCtx) : Prop where
  pos : 0 < c.n
  below : c.n < 2 ^ c.k
  mask : c.rmask = 2 ^ c.k - 1

/-- The context of an odd modulus is sized (R202). -/
theorem ContextOf.sized {c : MontCtx} (h : ContextOf c) : c.Sized where
  pos := by
    have := h.odd
    omega
  below := h.radix ▸ h.above
  mask := h.radix ▸ h.mask

/-- `MontCtx` constructs a sized context of its modulus (R201). -/
theorem montCtx_sized {n : Int} {c : MontCtx} (h : montCtx n = .ok c) : c.Sized ∧ (c.n : Int) = n := by
  obtain ⟨hz, hr⟩ := (montCtx_checked n).domain h
  rw [montCtx, if_neg hz, if_neg hr] at h
  split at h
  · cases h
  · obtain ⟨ninv, -, hc⟩ := except_bind_eq_ok.1 h
    obtain rfl := Except.ok.inj hc
    have hpos : 0 < n.toNat := by omega
    refine ⟨⟨hpos, lt_two_pow_bitlen _, ?_⟩, Int.toNat_of_nonneg (by omega)⟩
    rw [Nat.one_shiftLeft]

namespace MontCtx.Sized
variable {c : MontCtx} (hc : c.Sized)
include hc

/-- One conditional subtraction brings `Redc` below the modulus (R204). -/
theorem redc_lt {t : Nat} (ht : t < c.n * 2 ^ c.k) : redc c t < c.n := by
  obtain ⟨hpos, -, hmask⟩ := hc
  rw [redc]
  have hm : ((t &&& c.rmask) * c.nprime) &&& c.rmask ≤ 2 ^ c.k :=
    Nat.and_le_right.trans (hmask.trans_le (Nat.sub_le ..))
  generalize ((t &&& c.rmask) * c.nprime) &&& c.rmask = m at hm ⊢
  have hu : (t + m * c.n) >>> c.k < 2 * c.n := by
    rw [Nat.shiftRight_eq_div_pow, Nat.div_lt_iff_lt_mul (Nat.two_pow_pos _)]
    have hmn : m * c.n ≤ c.n * 2 ^ c.k := by
      rw [Nat.mul_comm m]
      exact Nat.mul_le_mul_left _ hm
    rw [Nat.mul_assoc]
    omega
  split <;> omega

/-- A Montgomery product of residues is a residue (R205). -/
theorem montMul_lt {a b : Nat} (ha : a < c.n) (hb : b < c.n) : montMul c a b < c.n :=
  hc.redc_lt (Nat.mul_lt_mul_of_lt_of_lt ha (hb.trans hc.below))

/-- A Montgomery form is a residue (R205). -/
theorem toMont_lt (a : Nat) : toMont c a < c.n := Nat.mod_lt _ hc.pos

/-- A residue converted back is a residue (R205). -/
theorem fromMont_lt {a : Nat} (ha : a < c.n) : fromMont c a < c.n :=
  hc.redc_lt (ha.trans_le (Nat.le_mul_of_pos_right _ (Nat.two_pow_pos _)))

/-- The table of R211 holds residues. -/
theorem powersFrom_lt {count p : Nat} (hp : p < c.n) : ∀ q ∈ powersFrom c count p, q < c.n := by
  induction count generalizing p with
  | zero => exact fun q hq => absurd hq List.not_mem_nil
  | succ count ih =>
    intro q hq
    obtain rfl | hq := List.mem_cons.1 hq
    · exact hp
    · exact ih (hc.montMul_lt hp hp) q hq

/-- What the accumulation looks up in the table is a residue, a missing entry included (R211). -/
theorem getD_powersTable_lt (base e i : Nat) : (powersTable c base e).getD i 0 < c.n := by
  obtain hi | hi := Nat.lt_or_ge i (powersTable c base e).length
  · rw [List.getD_eq_getElem _ _ hi]
    exact hc.powersFrom_lt (hc.toMont_lt base) _ (List.getElem_mem hi)
  · rw [List.getD_eq_default _ _ hi]
    exact hc.pos

/-- The product of a group is a residue (R212). -/
theorem groupProduct_lt (base e : Nat) (group : List Nat) :
    groupProduct c (powersTable c base e) (toMont c 1) group < c.n :=
  List.foldlRecOn (motive := (· < c.n)) group _ (hc.toMont_lt 1) fun _ hacc i _ => hc.montMul_lt hacc (hc.getD_powersTable_lt base e i)

/-- The power that a run converts back is below the modulus (R212). -/
theorem expMontRun_lt (perm : List Nat) (G base e : Nat) : (expMontRun c perm G base e).v < c.n :=
  hc.fromMont_lt <| List.foldlRecOn (motive := (· < c.n)) _ _ (hc.toMont_lt 1) fun _ hacc group _ =>
    hc.montMul_lt hacc (hc.groupProduct_lt base e group)

end MontCtx.Sized

/-- A power by `ExpMont` is below the modulus (R212). -/
theorem expMont_le {perm : Nat → List Nat} {G : Nat} {b e n : Int} {r : ExpMontResult} (h : expMont perm G b e n = .ok r) :
    (r.v : Int) ≤ n := by
  obtain ⟨c, hc, rfl⟩ := expMont_ok h
  obtain ⟨hsized, hn⟩ := montCtx_sized hc
  have := hsized.expMontRun_lt (perm (setBits e.toNat).length) G b.toNat e.toNat
  omega

/-- An operand that `MMUL` or `MFROM` accepts is a residue (R206, R209). -/
theorem residueOf_lt {c : MontCtx} {a : Int} {r : Nat} (h : residueOf c a = .ok r) : r < c.n := by
  obtain ⟨-, hr⟩ := (residueOf_checked c a).domain h
  rw [residueOf, if_neg hr] at h
  obtain rfl := Except.ok.inj h
  omega

/-! ### Write-back (R305) -/

/-- One value that fits is all that an effect with one write needs. -/
theorem Effect.fits_of_writes_eq {f : Effect} {p : Params} {r : BReg} {v : Int} (hf : f.writes = [(r, v)])
    (hv : p.fits v = true) : f.fits p = true := by
  simp [Effect.fits, hf, hv]

/-- The effect of a procedure that makes it from one computation's answer fits when it does for every answer. -/
theorem Effect.fits_of_bind {α : Type} {x : Except ErrorKind α} {g : α → Effect} {f : Effect} {p : Params}
    (h : (x >>= fun a => pure (g a)) = .ok f) (hg : ∀ a, x = .ok a → (g a).fits p = true) : f.fits p = true := by
  obtain ⟨a, ha, hf⟩ := except_bind_eq_ok.1 h
  obtain rfl := Except.ok.inj hf
  exact hg a ha

/-- A command that needs the context runs only when there is one (R303). -/
theorem mcv_of_operandsValid {i : Instr} {e : Engine} (hv : operandsValid i e = true) (hn : needsContext i = true) :
    e.mcv = true := by
  simp_all [operandsValid]

/-- Every command's results but those of `CRTREC` are bounded by one of its operands, by the context's modulus or by 1, all of
which are within the capacity (R305). -/
theorem procedure_fits {i : Instr} {s : State} {f : Effect} (hW : WPositive s.params) (hcap : CapacityOk s)
    (hctx : ContextOk s) (hv : operandsValid i s.eng = true) (h : procedure i s = .ok f)
    (hi : ¬ ∃ rd rm1 rm2 rp rq ri, i = .crtrec rd rm1 rm2 rp rq ri) : f.fits s.params = true := by
  have hbounded (rd r : BReg) {g : Effect} {v : Nat} (hg : g.writes = [(rd, (v : Int))]) (hle : (v : Int) ≤ s.eng.reg r) :
      g.fits s.params = true :=
    Effect.fits_of_writes_eq hg (Params.fits_natCast_of_le (hcap r) hle)
  have hresidue (rd : BReg) {g : Effect} {v : Nat} (hg : g.writes = [(rd, (v : Int))]) (hlt : v < s.eng.mc.n) :
      g.fits s.params = true :=
    Effect.fits_of_writes_eq hg (Params.fits_natCast_of_le hctx.fits (by omega))
  have hsized (hn : needsContext i = true) : s.eng.mc.Sized := (hctx.held (mcv_of_operandsValid hv hn)).sized
  cases i with
  | nop | isprime rn =>
    obtain rfl := Except.ok.inj h
    rfl
  | mctx rn => exact Effect.fits_of_bind h fun _ _ => rfl
  | reduce rd ra rn => exact Effect.fits_of_bind h fun _ hr => hbounded rd rn rfl (reduce_le hr)
  | quot rd ra rn => exact Effect.fits_of_bind h fun _ ht => hbounded rd ra rfl (quotient_le ht)
  | xgcd rg rx ry ra rb =>
    refine Effect.fits_of_bind h fun z hz => ?_
    simp [Effect.fits, xgcd_fits hz hW (hcap ra) (hcap rb)]
  | invmod rd ra rn => exact Effect.fits_of_bind h fun _ hd => hbounded rd rn rfl (invMod_le hd)
  | mexpb rd rb re rn => exact Effect.fits_of_bind h fun _ hpow => hbounded rd rn rfl (expBinary_le hpow)
  | mexpw rd rb re rn => exact Effect.fits_of_bind h fun _ hpow => hbounded rd rn rfl (expWindow_le hpow)
  | mexpm rd rb re rn => exact Effect.fits_of_bind h fun _ hpow => hbounded rd rn rfl (expMont_le hpow)
  | mmul rd ra rb =>
    obtain ⟨a, ha, h⟩ := except_bind_eq_ok.1 h
    exact Effect.fits_of_bind h fun b hb =>
      hresidue rd rfl ((hsized rfl).montMul_lt (residueOf_lt ha) (residueOf_lt hb))
  | mto rd ra =>
    obtain ⟨-, hr⟩ := (procedure_checked (.mto rd ra) s).domain h
    obtain rfl := Except.ok.inj ((if_neg hr).symm.trans h)
    exact hresidue rd rfl ((hsized rfl).toMont_lt _)
  | mfrom rd ra =>
    exact Effect.fits_of_bind h fun a ha => hresidue rd rfl ((hsized rfl).fromMont_lt (residueOf_lt ha))
  | crtrec rd rm1 rm2 rp rq ri => exact absurd ⟨rd, rm1, rm2, rp, rq, ri, rfl⟩ hi

/-- A command whose operands are valid and whose procedure's values do not fit ends with `Overflow`. -/
theorem State.execute_overflow {s : State} {i : Instr} {compute : State → Except ErrorKind Effect} {f : Effect}
    (hv : operandsValid i s.eng = true) (hc : compute s = .ok f) (hf : f.fits s.params = false) :
    s.execute i compute = s.raiseError .overflow := by
  simp [State.execute, hv, hc, hf]

/-- `CRTREC` of a result that does not fit ends with `Overflow` (R305). -/
theorem exec_crtrec_overflow {s : State} {rd rm1 rm2 rp rq ri : BReg} {m : Nat}
    (hv : ¬ SomethingInvalid (.crtrec rd rm1 rm2 rp rq ri) s.eng)
    (hm : crtRec (s.eng.reg rm1) (s.eng.reg rm2) (s.eng.reg rp) (s.eng.reg rq) (s.eng.reg ri) = .ok m)
    (hunfit : s.params.fits m = false) :
    exec (.crtrec rd rm1 rm2 rp rq ri) s = .next (s.raiseError .overflow) := by
  have hproc : procedure (.crtrec rd rm1 rm2 rp rq ri) s = .ok { writes := [(rd, (m : Int))] } :=
    except_bind_eq_ok.2 ⟨m, hm, rfl⟩
  rw [exec_wellFormed rfl, State.execute_overflow (operandsValid_eq_true_iff.2 hv) hproc (by simp [Effect.fits, hunfit])]

end Sys2Proof.Machine
end

section
/-! SUPPORT. The statements about the errors (60_exceptions.md), settled. -/

namespace Sys2Proof.Machine

/-- Settles O9: an illegal word ends with its error alone, and a legal one's command that does not complete ends with an error
alone (`exec_cases`). -/
theorem errorsArePrecise : Obligations.ErrorsArePrecise := by
  intro s t c h herr
  obtain ⟨-, -, hnext⟩ | ⟨i, -, hnext⟩ := executeWord_cases s c
  · obtain rfl := Host.Outcome.next.inj (hnext.symm.trans h)
    exact ⟨_, State.raiseError_endsWithError ..⟩
  · obtain ⟨k, rfl⟩ | ⟨-, -, f, -, -, rfl⟩ := exec_cases (hnext.symm.trans h)
    · exact ⟨k, State.raiseError_endsWithError ..⟩
    · cases herr

/-- Settles O28: something invalid is found before the procedure runs, and no procedure raises `OperandInvalid`. -/
theorem operandInvalidExactly : Obligations.OperandInvalidExactly := by
  refine fun i s t hwf h => ⟨fun hcode => ?_, errcode_of_somethingInvalid hwf h⟩
  by_contra hv
  exact (procedure_checked i s).ne_operandInvalid ((errcode_eq_code_iff hwf h hv (by decide)).1 hcode)

/-- Settles O29: the code is that of what the procedure raises, and its first test is the one for zero. -/
theorem divisionByZeroExactly : Obligations.DivisionByZeroExactly := fun i s _ hwf h hv =>
  (errcode_eq_code_iff hwf h hv (k := .divisionByZero) (by decide)).trans (procedure_checked i s).eq_divisionByZero_iff

/-- `OperandRange` is reported exactly on a nonzero modulus and a value out of range (R304, R313). -/
theorem errcode_eq_operandRange_iff {i : Instr} {s t : State} (hwf : i.WF) (h : exec i s = .next t)
    (hv : ¬ SomethingInvalid i s.eng) : t.eng.errcode = 10 ↔ ¬ ZeroModulus i s.eng ∧ OutOfRange i s.eng :=
  (errcode_eq_code_iff hwf h hv (k := .operandRange) (by decide)).trans (procedure_checked i s).eq_operandRange_iff

/-- Settles O30: the range test comes right after the one for zero (`errcode_eq_operandRange_iff`). -/
theorem operandRangeExactly : Obligations.OperandRangeExactly := fun _ _ _ hwf h hv hz =>
  (errcode_eq_operandRange_iff hwf h hv).trans (and_iff_right hz)

/-- Settles O31: the parity test comes after those for zero and for the range, which have their own codes. -/
theorem invalidModulusExactly : Obligations.InvalidModulusExactly := fun i s t hwf h hv =>
  ⟨(errcode_eq_code_iff hwf h hv (k := .invalidModulus) (by decide)).trans (procedure_checked i s).eq_invalidModulus_iff,
    (divisionByZeroExactly i s t hwf h hv).2, fun hz hr => (errcode_eq_operandRange_iff hwf h hv).2 ⟨hz, hr⟩⟩

/-- Settles O32: only `INVMOD` makes the test for a common factor (`NotInvertible`), which comes last. -/
theorem noInverseExactly : Obligations.NoInverseExactly := fun i s _ hwf h hv hz hr =>
  (errcode_eq_code_iff hwf h hv (k := .noInverse) (by decide)).trans <|
    (procedure_checked i s).eq_noInverse_iff.trans
      ⟨fun ⟨_, _, _, hs⟩ => hs, fun hs => ⟨hz, hr, not_evenModulus_of_notInvertible hs, hs⟩⟩

/-- Settles O33: a command that reports `Overflow` has a value that does not fit (`exists_unfit_of_errcode_overflow`), which only
`CRTREC` can have (`procedure_fits`) and none when `W` is infinite; a result of `CRTREC` of at least `2^W` is one. -/
theorem overflowOnlyFromCrtrec : Obligations.OverflowOnlyFromCrtrec := by
  refine ⟨fun i s t hW hcap hctx h hcode => ?_, fun s rd rm1 rm2 rp rq ri m w hvalid hm hw hbig => ?_,
    fun i s t hw h hcode => ?_⟩
  · obtain ⟨hv, f, hf, hunfit⟩ := exists_unfit_of_errcode_overflow h hcode
    by_contra hi
    rw [procedure_fits hW hcap hctx hv hf hi] at hunfit
    cases hunfit
  · have hunfit : s.params.fits m = false := by
      rw [← Bool.not_eq_true, Params.fits_iff]
      intro hfits
      have hlt : m < 2 ^ w := by exact_mod_cast hfits w hw
      omega
    exact ⟨_, exec_crtrec_overflow hvalid hm hunfit, State.raiseError_endsWithError ..⟩
  · obtain ⟨-, f, -, hunfit⟩ := exists_unfit_of_errcode_overflow h hcode
    rw [Effect.fits, List.all_eq_true.2 fun x _ => Params.fits_of_w_none hw x.2] at hunfit
    cases hunfit

end Sys2Proof.Machine
end

section
/-! SUPPORT. The control register at the port: the two outcomes of a write, the stored group size and the word read; and the
statement about reset (70_reset_and_hazards.md), settled. -/

namespace Sys2Proof.Machine

/-- A host write of a word to `CTRL` (R28, R61). -/
theorem portWrite_ctrl (s : State) (w : Word) : portWrite s 0x12 (w.toNat : Int) = .next (s.writeCtrl w) := by
  have hr : portReg 0x12 = .ctrl := rfl
  rw [portWrite, hr]
  simp

/-- A host read of `CTRL` (R28, R61). -/
theorem portRead_ctrl (e : Engine) : portRead e 0x12 = ((ctrlWord e).toNat : Int) := rfl

/-- A write with bit 31 set is the engine's reset (R331). -/
theorem State.writeCtrl_of_srst {w : Word} (h : w.getLsbD 31 = true) (s : State) : s.writeCtrl w = s.resetEngine :=
  if_pos h

/-- A write with bit 31 clear stores the group size alone (R28). -/
theorem State.writeCtrl_of_not_srst {w : Word} (h : w.getLsbD 31 = false) (s : State) :
    s.writeCtrl w = { s with eng := { s.eng with grpsz := grpszStored (w.extractLsb' 0 8) } } :=
  if_neg (Bool.eq_false_iff.1 h)

/-- Bits 7:0 of a word are its remainder by 256. -/
theorem extractLsb'_zero_eight (w : Word) : w.extractLsb' 0 8 = BitVec.ofNat 8 (w.toNat % 256) := by
  apply BitVec.eq_of_toNat_eq
  simp

/-- The group size a word's bits 7:0 store, with the default 8 in place of 0 (R28). -/
theorem grpszStored_ofNat_mod (n : Nat) :
    grpszStored (BitVec.ofNat 8 (n % 256)) = if n % 256 = 0 then 8 else BitVec.ofNat 8 (n % 256) := by
  have hzero : BitVec.ofNat 8 (n % 256) = 0 ↔ n % 256 = 0 := by
    rw [← BitVec.toNat_inj]
    simp
  simp only [grpszStored, hzero, Config.defaultGroupSize]

/-- `CTRL` reads `WIN = 4` in bits 11:8, `GRPSZ` in bits 7:0 and zeros (R28). -/
theorem toNat_ctrlWord (e : Engine) : (ctrlWord e).toNat = 0x400 + e.grpsz.toNat := by
  have hhigh : ((0 : BitVec 20) ++ BitVec.ofNat 4 Config.windowWidth).toNat = 4 := by decide
  rw [ctrlWord, BitVec.toNat_append, hhigh, ← Nat.shiftLeft_add_eq_or_of_lt e.grpsz.isLt]
  rfl

/-- Settles O20: the port hands the word to `State.writeCtrl`, whose branch is bit 31; the byte stored and the word read are
`grpszStored_ofNat_mod` and `toNat_ctrlWord`. -/
theorem ctrlRegister : Obligations.CtrlRegister := by
  refine ⟨fun s w hset => ?_, fun s w hclear => ?_, fun e => ?_⟩
  · rw [portWrite_ctrl, State.writeCtrl_of_srst hset, State.resetEngine]
  · rw [portWrite_ctrl, State.writeCtrl_of_not_srst hclear, extractLsb'_zero_eight, grpszStored_ofNat_mod]
  · rw [portRead_ctrl, toNat_ctrlWord, Nat.cast_add, Nat.cast_ofNat]

end Sys2Proof.Machine
end

section
/-! SUPPORT. A command's word belongs to its row and carries its operands, and a word of a row is made of the fields that the row's
format uses: the two round trips between commands and words (30_encoding.md), settled, with the worked encodings. -/

namespace Sys2Proof

/-! ### From a command to its word and back (R95) -/

/-- What each command's word carries, for all commands at once. -/
theorem encodedFields (i : Instr) : Laws.EncodedFields.Statement i :=
  Laws.EncodedFields.of_operands (by cases i <;> rfl)

/-- The fields of a command's word build the command again. -/
theorem Opcode.build_fieldsOf_encode (i : Instr) : i.opcode.build (fieldsOf (encode i)) = i := by
  obtain ⟨hfields, -, -⟩ := encodedFields i
  rw [hfields]
  cases i <;> rfl

/-- The word of a command decodes to it, unless it is an `XGCD` with two equal destinations (R97 case (c)). -/
theorem decode_encode (i : Instr) : decode (encode i) = if i.WF then .ok i else .error .equalDestinations := by
  obtain ⟨-, -, hrow⟩ := encodedFields i
  rw [decode_of_row hrow, Opcode.build_fieldsOf_encode]

/-! ### From a word to its command and back (R91, R92) -/

/-- In a word of a row every bit that the row's format leaves unused is 0 (R92). -/
theorem Opcode.unused_eq_zero {w : Word} {o : Opcode} (h : w &&& o.format.mask = o.matchWord) :
    (fieldsOf w).rsv = 0 ∧ (o.format.count < 1 → (fieldsOf w).f1 = 0) ∧ (o.format.count < 2 → (fieldsOf w).f2 = 0) ∧
    (o.format.count < 3 → (fieldsOf w).f3 = 0) ∧ (o.format.count < 4 → (fieldsOf w).f4 = 0) ∧
    (o.format.count < 5 → (fieldsOf w).f5 = 0) ∧ (o.format.count < 6 → (fieldsOf w).f6 = 0) := by
  rw [← packWord_fieldsOf w, Format.mask_eq, packWord_and] at h
  have hmasked := packWord_injective h
  simp only [CmdFields.mk.injEq] at hmasked
  obtain ⟨-, h1, h2, h3, h4, h5, h6, hrsv⟩ := hmasked
  have hall : ∀ {k : Nat} {f : BitVec 3}, f &&& Format.unusedField (decide (k < o.format.count)) = 0 →
      o.format.count < k + 1 → f = 0 := by
    intro k f hf hk
    have hunused : f &&& BitVec.allOnes 3 = 0 := by
      simpa [Format.unusedField, show ¬ k < o.format.count by omega] using hf
    rwa [BitVec.and_allOnes] at hunused
  have hrsv' : (fieldsOf w).rsv &&& BitVec.allOnes 6 = 0 := by simpa using hrsv
  rw [BitVec.and_allOnes] at hrsv'
  exact ⟨hrsv', hall h1, hall h2, hall h3, hall h4, hall h5, hall h6⟩

/-- A word of a row is the word of the command that its fields build. -/
theorem encode_build_fieldsOf {w : Word} {o : Opcode} (h : w &&& o.format.mask = o.matchWord) :
    encode (o.build (fieldsOf w)) = w := by
  obtain ⟨hrsv, h1, h2, h3, h4, h5, h6⟩ := Opcode.unused_eq_zero h
  have hopc := Opcode.code_eq_opc h
  conv_rhs => rw [← packWord_fieldsOf w]
  generalize fieldsOf w = f at *
  obtain ⟨opc, f1, f2, f3, f4, f5, f6, rsv⟩ := f
  subst hrsv hopc
  cases o <;> simp_all [encode, Opcode.build, Instr.fieldAt, Instr.operands, Instr.opcode, Opcode.format, Format.count]

end Sys2Proof

namespace Sys2Proof.Machine

/-- Settles O1: a command's word belongs to the command's row, and its fields build the command (`decode_encode`). -/
theorem decodeOfEncode : Obligations.DecodeOfEncode := decode_encode

/-- Settles O2: a word that decodes belongs to its command's row and is made of its fields (`row_of_decode`), so that it is the
word of what those fields build (`encode_build_fieldsOf`). -/
theorem encodeOfDecode : Obligations.EncodeOfDecode := by
  intro w i hd
  obtain ⟨hrow, hbuild, hwf⟩ := row_of_decode hd
  refine ⟨?_, hwf⟩
  rw [hbuild]
  exact encode_build_fieldsOf hrow

/-- Settles O5: each worked word is its command's encoding, which decodes to it (`decode_encode`). -/
theorem workedEncodings : Obligations.WorkedEncodings :=
  ⟨decode_encode .nop, decode_encode (.reduce 2 0 1), decode_encode (.quot 3 0 1), decode_encode (.xgcd 2 3 4 0 1),
    decode_encode (.invmod 2 0 1), decode_encode (.isprime 0), decode_encode (.mexpb 3 0 1 2),
    decode_encode (.mexpw 4 0 1 2), decode_encode (.mexpm 5 0 1 2), decode_encode (.mctx 1), decode_encode (.mmul 2 3 4),
    decode_encode (.mto 3 0), decode_encode (.mfrom 5 2), decode_encode (.crtrec 7 5 6 1 2 4)⟩

end Sys2Proof.Machine
end

section
/-! SUPPORT. What a command leaves, said once for all commands: the implicit destinations of its procedure, its frame, how it
completes, and which registers it reads (46_system.md, 10_state.md section 7); with the statements about them, settled. -/

namespace Sys2Proof.Machine

/-! ### Implicit destinations (R240) -/

/-- A procedure's effect reaches no more of the implicit destinations than R240 names for its command. -/
theorem procedure_implicit {i : Instr} {s : State} {f : Effect} (h : procedure i s = .ok f)
    (hi : ∀ rd rb re rn, i ≠ .mexpm rd rb re rn) :
    f.consumeSeed = false ∧ f.trace = none ∧ ((∀ rn, i ≠ .mctx rn) → f.ctx = none) := by
  cases i with
  | nop | isprime rn =>
    obtain rfl := Except.ok.inj h
    exact ⟨rfl, rfl, fun _ => rfl⟩
  | mexpm rd rb re rn => exact absurd rfl (hi rd rb re rn)
  | mctx rn =>
    obtain ⟨_, -, hf⟩ := except_bind_eq_ok.1 h
    obtain rfl := Except.ok.inj hf
    exact ⟨rfl, rfl, fun hm => absurd rfl (hm rn)⟩
  | mto rd ra =>
    obtain ⟨-, hr⟩ := (procedure_checked (.mto rd ra) s).domain h
    obtain rfl := Except.ok.inj ((if_neg hr).symm.trans h)
    exact ⟨rfl, rfl, fun _ => rfl⟩
  | mmul rd ra rb =>
    obtain ⟨_, -, h⟩ := except_bind_eq_ok.1 h
    obtain ⟨_, -, hf⟩ := except_bind_eq_ok.1 h
    obtain rfl := Except.ok.inj hf
    exact ⟨rfl, rfl, fun _ => rfl⟩
  | _ =>
    obtain ⟨_, -, hf⟩ := except_bind_eq_ok.1 h
    obtain rfl := Except.ok.inj hf
    exact ⟨rfl, rfl, fun _ => rfl⟩

/-! ### The frame -/

/-- A register that a completing command does not name as destination is as before. -/
theorem State.complete_of_not_mem {i : Instr} {s : State} {f : Effect} (h : procedure i s = .ok f) {j : BReg}
    (hj : j ∉ destinations i) : (s.complete f).eng.reg j = s.eng.reg j := by
  rw [State.complete_eng, Engine.finish_reg, Engine.apply_reg]
  refine Engine.reg_writeRegs_of_not_mem _ _ j fun w hw heq => hj ?_
  rw [← procedure_writes h, ← heq]
  exact List.mem_map_of_mem hw

/-- A completing command sets the valid bits of its destinations. -/
theorem State.valid_complete {i : Instr} {s : State} {f : Effect} (h : procedure i s = .ok f) (j : BReg) :
    (s.complete f).eng.valid j = (s.eng.valid j || decide (j ∈ destinations i)) := by
  rw [State.complete_eng, Engine.finish_valid, Engine.apply_valid, Engine.valid_writeRegs, procedure_writes h]

/-- Settles O10: an error changes `STATUS` alone, and a completion writes the destinations of its command
(`procedure_writes`, `procedure_implicit`). -/
theorem commandFrame : Obligations.CommandFrame := by
  intro i s t h
  obtain ⟨k, rfl⟩ | ⟨-, -, f, hf, -, rfl⟩ := exec_cases h
  · simp
  · refine ⟨fun j hj => ⟨State.complete_of_not_mem hf hj, ?_⟩, fun j hj => ?_, by simp, by simp, by simp, rfl, rfl, rfl,
      fun hctx hexp => ?_, fun hexp => ?_⟩
    · rw [State.valid_complete hf, decide_eq_false hj, Bool.or_false]
    · rw [State.valid_complete hf, hj, Bool.true_or]
    · obtain ⟨-, -, hnone⟩ := procedure_implicit hf hexp
      simp [hnone hctx]
    · obtain ⟨hseed, htrace, -⟩ := procedure_implicit hf hexp
      simp [hseed, htrace]

/-- Settles O8: every way a command can end (`exec_cases`) sets `DONE`. -/
theorem everyCommandEnds : Obligations.EveryCommandEnds := by
  refine fun i s => ⟨_, exec_eq i s, ?_⟩
  obtain ⟨k, ht⟩ | ⟨-, -, f, -, -, ht⟩ := exec_cases (exec_eq i s) <;> rw [ht] <;> rfl

/-! ### Completion -/

section Completion
variable {i : Instr} {s : State} {f : Effect}

/-- A legal command with valid operands whose values fit completes with the effect of its procedure (R241). -/
theorem exec_of_procedure (hwf : i.WF) (hv : ¬ SomethingInvalid i s.eng) (h : procedure i s = .ok f)
    (hfit : f.fits s.params = true) : exec i s = .next (s.complete f) := by
  rw [exec_wellFormed hwf, State.execute_ok (operandsValid_eq_true_iff.2 hv) h hfit]

/-- A completion is what `Completed` says, with the destinations of the command and the answer of its procedure. -/
theorem State.complete_completed (h : procedure i s = .ok f) : Completed (destinations i) f.answer s (s.complete f) where
  regs _ hj := State.complete_of_not_mem h hj
  valid := State.valid_complete h
  done := rfl
  err := rfl
  errcode := rfl
  flagIs := by simp
  seed := by simp
  grpsz := by simp
  cmd := by simp
  host := rfl
  params := rfl
  resetInput := rfl

/-- An effect without context, seed and trace keeps the implicit destinations. -/
theorem State.complete_implicitKept (hctx : f.ctx = none) (hseed : f.consumeSeed = false) (htrace : f.trace = none) :
    ImplicitKept s (s.complete f) where
  mc := by simp [hctx]
  mcv := by simp [hctx]
  seedv := by simp [hseed]
  mtrace := by simp [htrace]

/-- A command with one result leaves it in the one destination and nothing else. -/
theorem exec_one_result {rd : BReg} {v : Int} (hwf : i.WF) (hv : ¬ SomethingInvalid i s.eng)
    (h : procedure i s = .ok { writes := [(rd, v)] }) (hfit : s.params.fits v = true) :
    ∃ t, exec i s = .next t ∧ t.eng.reg rd = v ∧ Completed [rd] false s t ∧ ImplicitKept s t := by
  have hdest : destinations i = [rd] := (procedure_writes h).symm
  refine ⟨_, exec_of_procedure hwf hv h (Effect.fits_of_writes_eq rfl hfit), by simp,
    hdest ▸ State.complete_completed h, State.complete_implicitKept rfl rfl rfl⟩

end Completion

/-- Settles O40: the procedure of `ISPRIME` makes no test and writes no register; its answer is the oracle's. -/
theorem isprimeSetsFlag : Obligations.IsprimeSetsFlag := fun s rn hvalid =>
  have hv : ¬ SomethingInvalid (.isprime rn) s.eng := by simp [SomethingInvalid, sources, hvalid]
  have hproc : procedure (.isprime rn) s = .ok { answer := isProbablePrime (s.eng.reg rn) } := rfl
  ⟨_, exec_of_procedure rfl hv hproc rfl, State.complete_completed hproc, State.complete_implicitKept rfl rfl rfl⟩

/-! ### What a command reads (R34, R240) -/

/-- `e` with the value of `Bj` replaced by `v`, its valid bit as it was: the change that `CommandsReadOnlySources` makes. -/
def Engine.withReg (e : Engine) (j : BReg) (v : Int) : Engine := { e with b := e.b.set j.val v }

/-- `s` with the value of `Bj` replaced by `v`. -/
def State.withReg (s : State) (j : BReg) (v : Int) : State := { s with eng := s.eng.withReg j v }

/-- The registers after the change of one. -/
theorem Engine.reg_withReg (e : Engine) (j k : BReg) (v : Int) : (e.withReg j v).reg k = if k = j then v else e.reg k :=
  e.reg_writeReg j k v

/-- A procedure depends on its command's source registers, on `MC`, and with `MEXPM` on the group size and the permutation
under `SEED`. -/
theorem procedure_congr {i : Instr} {s s' : State} (hreg : ∀ r ∈ sources i, s'.eng.reg r = s.eng.reg r)
    (hmc : s'.eng.mc = s.eng.mc)
    (hshuffle : needsSeed i = true → s'.params.perm s'.eng.seed = s.params.perm s.eng.seed ∧ s'.eng.grpsz = s.eng.grpsz) :
    procedure i s' = procedure i s := by
  cases i <;> simp_all [procedure, nopProc, reduceProc, quotProc, xgcdProc, invmodProc, isprimeProc, mexpbProc, mexpwProc,
    mexpmProc, mctxProc, mmulProc, mtoProc, mfromProc, crtrecProc, sources, needsSeed]

/-- Writing `Bk` undoes a change of it, and passes over a change of another register. -/
theorem Engine.writeReg_withReg (e : Engine) (j k : BReg) (v u : Int) :
    (e.withReg j v).writeReg k u = if j = k then e.writeReg k u else (e.writeReg k u).withReg j v := by
  split
  · rename_i h
    subst h
    simp [Engine.writeReg, Engine.withReg]
  · rename_i h
    have hne : j.val ≠ k.val := fun h' => h (Fin.ext h')
    simp only [Engine.writeReg, Engine.withReg, Vector.set_comm _ _ hne]

/-- Several writes undo the change of a register that one of them names, and pass over the change of any other. -/
theorem Engine.writeRegs_withReg (e : Engine) (j : BReg) (v : Int) (ws : List (BReg × Int)) :
    (e.withReg j v).writeRegs ws =
      if j ∈ ws.map Prod.fst then e.writeRegs ws else (e.writeRegs ws).withReg j v := by
  induction ws generalizing e with
  | nil => rfl
  | cons w ws ih =>
    rw [Engine.writeRegs_cons, Engine.writeReg_withReg, Engine.writeRegs_cons, List.map_cons]
    by_cases hj : j = w.1
    · simp [hj]
    · simp only [hj, if_false, ih, List.mem_cons, false_or]

/-- A completion after the change of a register. -/
theorem State.complete_withReg (s : State) (j : BReg) (v : Int) (f : Effect) :
    (s.withReg j v).complete f = if j ∈ f.writes.map Prod.fst then s.complete f else (s.complete f).withReg j v := by
  simp only [State.complete, State.withReg, Engine.apply, Engine.writeRegs_withReg]
  split <;> rfl

/-- Settles O12: a change of a register that is no source changes neither the operands' validity nor the procedure's answer
(`procedure_congr`); an error leaves the change, and a completion overwrites it where the register is a destination. -/
theorem commandsReadOnlySources : Obligations.CommandsReadOnlySources := by
  intro i s t j v hj h
  show exec i (s.withReg j v) = .next (if j ∈ destinations i ∧ t.eng.err = false then t else t.withReg j v)
  have hv : operandsValid i (s.withReg j v).eng = operandsValid i s.eng := rfl
  have hproc : procedure i (s.withReg j v) = procedure i s := by
    refine procedure_congr (fun r hr => ?_) rfl fun _ => ⟨rfl, rfl⟩
    have hne : r ≠ j := fun heq => hj (heq ▸ hr)
    exact (Engine.reg_withReg ..).trans (if_neg hne)
  have herror : ∀ k, (s.withReg j v).raiseError k =
      if j ∈ destinations i ∧ (s.raiseError k).eng.err = false then s.raiseError k else (s.raiseError k).withReg j v :=
    fun k => (if_neg (by simp)).symm
  rw [exec_eq] at h ⊢
  obtain rfl := Host.Outcome.next.inj h
  congr 1
  split
  · obtain ⟨hv', he⟩ | ⟨hv', k, hp, he⟩ | ⟨hv', f, hp, hf, he⟩ | ⟨hv', f, hp, hf, he⟩ := s.execute_cases i (procedure i)
    · rw [he, State.execute_invalid (hv.trans hv'), herror]
    · rw [he, State.execute_error (hv.trans hv') (hproc.trans hp), herror]
    · rw [he, State.execute_overflow (hv.trans hv') (hproc.trans hp) hf, herror]
    · rw [he, State.execute_ok (hv.trans hv') (hproc.trans hp) hf, State.complete_withReg, procedure_writes hp]
      simp
  · exact herror _

end Sys2Proof.Machine
end

section
/-! SUPPORT. What every register number of the port names, and what a step of the host does to the engine, the parameters and the
host's variables (10_state.md, 20_memory.md, 70_reset_and_hazards.md); with the statements about them, settled. -/

namespace Sys2Proof.Machine

/-! ### The table of register numbers (R61) -/

/-- The numbers that a row of the table gives to what it names. -/
def PortReg.Numbered (q : PortReg) (n : Nat) : Prop :=
  match q with
  | .b _ => n < 8
  | .cmd => n = 0x10
  | .status => n = 0x11
  | .ctrl => n = 0x12
  | .seed => n = 0x13
  | .mc _ => 0x20 ≤ n ∧ n ≤ 0x24
  | .reserved => (0x08 ≤ n ∧ n ≤ 0x0F) ∨ (0x14 ≤ n ∧ n ≤ 0x1F) ∨ 0x25 ≤ n

/-- Every number names what its row says. -/
theorem portReg_numbered (r : RegNum) : (portReg r).Numbered r.toNat := by
  unfold portReg
  split
  · assumption
  · split <;> simp only [PortReg.Numbered, imp_false] at * <;> omega

/-- The numbers of a context register name one. -/
theorem exists_portReg_eq_mc {r : RegNum} (hlow : 0x20 ≤ r.toNat) (hhigh : r.toNat ≤ 0x24) : ∃ f, portReg r = .mc f := by
  have hn := portReg_numbered r
  cases hr : portReg r with
  | mc f => exact ⟨f, rfl⟩
  | _ =>
    simp only [hr, PortReg.Numbered] at hn
    omega

/-- The reserved numbers name nothing (R67). -/
theorem portReg_eq_reserved {r : RegNum}
    (h : (0x08 ≤ r.toNat ∧ r.toNat ≤ 0x0F) ∨ (0x14 ≤ r.toNat ∧ r.toNat ≤ 0x1F) ∨ 0x25 ≤ r.toNat) :
    portReg r = .reserved := by
  have hn := portReg_numbered r
  cases hr : portReg r with
  | reserved => rfl
  | _ =>
    simp only [hr, PortReg.Numbered] at hn
    omega

/-- `0x12` alone names `CTRL`. -/
theorem portReg_eq_ctrl_iff {r : RegNum} : portReg r = .ctrl ↔ r = 0x12 := by
  refine ⟨fun hr => BitVec.eq_of_toNat_eq ?_, fun hr => hr ▸ rfl⟩
  have hn := portReg_numbered r
  rw [hr] at hn
  exact hn

/-! ### Reading and writing the port -/

/-- Settles O19: a reserved number names nothing (`portReg_eq_reserved`), which reads 0 and takes no write. -/
theorem reservedNumbersReadZeroIgnoreWrites : Obligations.ReservedNumbersReadZeroIgnoreWrites := by
  intro s r v hr
  simp only [portRead, portWrite, portReg_eq_reserved hr, and_self]

/-- Settles O23: with `MCV` set each number reads its field by the table; the five numbers name context registers alone
(`exists_portReg_eq_mc`). -/
theorem contextRegistersAtThePort : Obligations.ContextRegistersAtThePort := by
  refine ⟨fun e hmcv => ?_, fun e r hmcv hlow hhigh => ?_, fun s r v hlow hhigh => ?_⟩
  · have hfield (r : RegNum) (f : McField) (hr : portReg r = .mc f) : portRead e r = (e.mc.get f : Int) := by
      simp only [portRead, hr, hmcv, if_true]
    exact ⟨hfield _ .n rfl, hfield _ .r rfl, hfield _ .rmask rfl, hfield _ .nprime rfl, hfield _ .k rfl⟩
  · obtain ⟨f, hr⟩ := exists_portReg_eq_mc hlow hhigh
    simp [portRead, hr, hmcv]
  · obtain ⟨f, hr⟩ := exists_portReg_eq_mc hlow hhigh
    simp [portWrite, hr]

/-- Settles O25: of what a read can show, the registers, `CMD`, `STATUS`, `CTRL` and the context, none holds the trace or the
seed. -/
theorem traceAndSeedUnreadable : Obligations.TraceAndSeedUnreadable := by
  intro e r tr sd
  unfold portRead
  cases portReg r <;> rfl

/-- A host write of a word to `STATUS` is ignored (R26, R61). -/
theorem portWrite_status (s : State) (w : Word) : portWrite s 0x11 (w.toNat : Int) = .next s := by
  have hr : portReg 0x11 = .status := rfl
  rw [portWrite, hr]
  simp

/-- The bits of `STATUS`, one case for each field of R26: each place of the word belongs to one of the concatenated parts. -/
theorem getLsbD_statusWord (e : Engine) (n : Nat) : (statusWord e).getLsbD n =
    if n = 0 then e.done else if n = 1 then e.err else if n = 2 then e.flag
    else if 4 ≤ n ∧ n ≤ 7 then e.errcode.getLsbD (n - 4)
    else if n = 8 then e.mcv else if n = 9 then e.seedv
    else if 16 ≤ n ∧ n ≤ 23 then e.bv.getLsbD (n - 16) else false := by
  rw [statusWord, BitVec.getLsbD_append]
  simp only [BitVec.getLsbD_append]
  simp only [bit1, Nat.sub_sub, Nat.reduceAdd]
  obtain rfl | rfl | rfl | rfl | h | rfl | rfl | h | h | h : n = 0 ∨ n = 1 ∨ n = 2 ∨ n = 3 ∨ (4 ≤ n ∧ n ≤ 7) ∨ n = 8 ∨
      n = 9 ∨ (10 ≤ n ∧ n ≤ 15) ∨ (16 ≤ n ∧ n ≤ 23) ∨ 24 ≤ n := by omega
  all_goals simp (disch := omega) [if_pos, if_neg]

/-- Settles O22: the bits by `getLsbD_statusWord`, the port by its row of the table. -/
theorem statusWordLayout : Obligations.StatusWordLayout :=
  ⟨getLsbD_statusWord, fun _ => rfl, portWrite_status, rfl⟩

/-- After reset every register number reads 0 but that of `CTRL`, whose `WIN` and `GRPSZ` are not 0 (R38, R330). -/
theorem portRead_reset (r : RegNum) : portRead Engine.reset r = if r = 0x12 then 0x408 else 0 := by
  simp only [← portReg_eq_ctrl_iff]
  unfold portRead
  cases portReg r with
  | b i => simp
  | _ => rfl

/-! ### Steps -/

/-- A pending write of a value that the host's expression has is the port's write, after which the host goes on (R69). -/
theorem step_portWrite {s : State} {r : RegNum} {e : HExpr} {v : Int} (hreset : s.resetInput = false)
    (hp : pendingOp s = some (.portWrite r e)) (he : e.eval s.host.vars = .ok v) :
    step s = thenAdvance (portWrite s r v) := by
  rw [step_of_pendingOp hreset hp, hostStep, withValue, he]

/-- Settles O6: the pending write to `CMD` executes the word (`portWrite_cmd`), which is its command's execution. -/
theorem stepRunsDecodedCommand : Obligations.StepRunsDecodedCommand := by
  intro s e c i hreset hp he hd
  refine ⟨_, exec_eq i (s.setCmd c), ?_⟩
  rw [step_portWrite hreset hp he, portWrite_cmd, executeWord_of_decode hd, exec_eq, thenAdvance]

/-- Settles O7: the pending write to `CMD` executes the word (`portWrite_cmd`), which ends as an illegal command. -/
theorem stepOnIllegalWord : Obligations.StepOnIllegalWord := by
  intro s e c x hreset hp he hd
  refine ⟨_, State.raiseError_endsWithError (s.setCmd c) .illegalCommand, ?_⟩
  rw [step_portWrite hreset hp he, portWrite_cmd, executeWord, hd, thenAdvance]

/-- Settles O27: the step takes a waiting reset input first; a write to `CTRL` with bit 31 set is the engine's reset
(`State.writeCtrl_of_srst`); the port then reads as `portRead_reset` says. -/
theorem resetErasesEverything : Obligations.ResetErasesEverything := by
  refine ⟨fun s hreset => ?_, fun s e w hreset hp he hset => ?_, portRead_reset⟩
  · rw [step, systemStep, if_pos hreset, State.resetEngine]
  · rw [step_portWrite hreset hp he, portWrite_ctrl, State.writeCtrl_of_srst hset, State.resetEngine, thenAdvance]

/-- No port write changes the parameters (R36). -/
theorem portWrite_params {s t : State} {r : RegNum} {v : Int} (h : portWrite s r v = .next t) : t.params = s.params := by
  obtain ⟨i, -, -, rfl⟩ | ⟨-, hx⟩ | ⟨-, rfl⟩ | ⟨-, rfl⟩ | rfl := portWrite_next h
  · rfl
  · obtain ⟨x, -, hnext⟩ | ⟨i, -, hnext⟩ := executeWord_cases s (BitVec.ofNat 32 v.toNat)
    · obtain rfl := Host.Outcome.next.inj (hnext.symm.trans hx)
      rfl
    · obtain ⟨-, -, -, -, -, -, hparams, -⟩ := commandFrame _ _ _ (hnext.symm.trans hx)
      exact hparams
  · simp
  · rfl
  · rfl

/-- Settles O14: the host's operations change the parameters no more than its port writes do (`portWrite_params`). -/
theorem parametersNeverChange : Obligations.ParametersNeverChange := by
  intro s t h
  obtain ⟨-, hstep⟩ | ⟨-, op, -, hstep⟩ | ⟨-, -, hstep⟩ := step_cases s
  · obtain rfl := Host.Outcome.next.inj (hstep.symm.trans h)
    rfl
  · obtain ⟨r, v, u, -, hu, rfl⟩ | ⟨x, v, u, rfl, rfl | ⟨N, rfl⟩⟩ | ⟨k, rfl⟩ | ⟨o, rfl⟩ := hostStep_next (hstep.symm.trans h)
    · exact (portWrite_params hu :)
    · rfl
    · obtain ⟨-, hparams, -⟩ := s.draw_keeps N
      exact hparams
    · rfl
    · rfl
  · obtain rfl := Host.Outcome.next.inj (hstep.symm.trans h)
    rfl

/-- A port write that changes the engine is one to `Bi`, `CMD`, `CTRL` or `SEED` (R39). -/
theorem number_of_portWrite_changes {s t : State} {r : RegNum} {v : Int} (h : portWrite s r v = .next t)
    (hne : t.eng ≠ s.eng) : r.toNat < 8 ∨ r = 0x10 ∨ r = 0x12 ∨ r = 0x13 := by
  have hn := portReg_numbered r
  have hr : ∀ n : RegNum, r.toNat = n.toNat → r = n := fun _ => BitVec.eq_of_toNat_eq
  obtain ⟨i, hi, -⟩ | ⟨hi, -⟩ | ⟨hi, -⟩ | ⟨hi, -⟩ | rfl := portWrite_next h
  · rw [hi] at hn
    exact .inl hn
  · rw [hi] at hn
    exact .inr (.inl (hr 0x10 hn))
  · rw [hi] at hn
    exact .inr (.inr (.inl (hr 0x12 hn)))
  · rw [hi] at hn
    exact .inr (.inr (.inr (hr 0x13 hn)))
  · exact absurd rfl hne

/-- Read after write of a host variable, whatever the form of the list. -/
theorem lookupVar_assignVar_self (x : Nat) (v : Int) (vars : List (Nat × Int)) :
    lookupVar x (assignVar x v vars) = some v := by
  induction vars with
  | nil => simp [assignVar, lookupVar]
  | cons p rest ih =>
    obtain ⟨y, w⟩ := p
    unfold assignVar
    split
    · simp [lookupVar]
    · split
      · simp [lookupVar]
      · rename_i hne
        rw [lookupVar, if_neg hne, ih]

/-- Settles O13: of the host's operations only a port write reaches the engine, and only at the numbers of
`number_of_portWrite_changes`; a read's value goes to its variable. -/
theorem engineChangesOnlyByHostWrites : Obligations.EngineChangesOnlyByHostWrites := by
  refine ⟨fun s t h hne => ?_, fun s x r hreset hp => ?_, fun s hreset hp => ?_⟩
  · obtain ⟨hreset, -⟩ | ⟨-, op, hp, hstep⟩ | ⟨-, -, hstep⟩ := step_cases s
    · exact .inl hreset
    · refine .inr ?_
      obtain ⟨r, v, u, ⟨e, rfl, -⟩, hu, rfl⟩ | ⟨x, v, u, rfl, rfl | ⟨N, rfl⟩⟩ | ⟨k, rfl⟩ | ⟨o, rfl⟩ :=
        hostStep_next (hstep.symm.trans h)
      · exact ⟨r, e, hp, number_of_portWrite_changes hu hne⟩
      · exact absurd rfl hne
      · exact absurd (s.draw_keeps N).1 hne
      · exact absurd rfl hne
      · exact absurd rfl hne
    · obtain rfl := Host.Outcome.next.inj (hstep.symm.trans h)
      exact absurd rfl hne
  · exact ⟨_, step_of_pendingOp hreset hp, rfl, lookupVar_assignVar_self ..⟩
  · rw [step, systemStep, hreset, hp]
    rfl

/-- Settles O58: the value drawn, a supplied answer's or the free one's low bits, goes to the draw's variable, and a supplied
answer is used up. -/
theorem drawsAreInRange : Obligations.DrawsAreInRange := by
  intro s t x N hreset hp h
  rw [step_of_pendingOp hreset hp] at h
  obtain rfl : ((s.draw N).2.setVar x (s.draw N).1).advance = t := Host.Outcome.next.inj h
  have hvar := lookupVar_assignVar_self x (s.draw N).1 (s.draw N).2.host.vars
  refine ⟨(s.draw_keeps N).1, ⟨(s.draw N).1, ?_, hvar⟩, fun d rest hd hlt => ?_⟩
  · unfold State.draw
    split <;> exact Nat.mod_lt _ (Nat.two_pow_pos N)
  · have hdraw : s.draw N = (d, { s with host := { s.host with draws := rest } }) := by
      rw [State.draw, hd]
      simp only [Nat.mod_eq_of_lt hlt]
    rw [hdraw] at hvar ⊢
    exact ⟨hvar, rfl⟩

end Sys2Proof.Machine
end

section
/-! SUPPORT. Remainder, quotient and the extended Euclidean algorithm: the loops of R122 and R123, the Bezout identity of R140 and
the inverse of R145 (40_reduction.md, 41_euclid.md); with the statements about them, settled. -/

namespace Sys2Proof.Machine

/-! ### Shift and subtract (R122, R123) -/

/-- The ascent doubles `m = n·2^k` and `p = 2^k` together, until the next doubling would pass `a`. -/
theorem ascend_eq {a n : Nat} (fuel k : Nat) (hle : n * 2 ^ k ≤ a) (hlt : a < n * 2 ^ (k + fuel + 1)) :
    ∃ j ≤ k + fuel, ascend a fuel (n * 2 ^ k) (2 ^ k) = (n * 2 ^ j, 2 ^ j) ∧ a < n * 2 ^ (j + 1) := by
  induction fuel generalizing k with
  | zero => exact ⟨k, le_rfl, rfl, hlt⟩
  | succ fuel ih =>
    have hdouble : 2 * (n * 2 ^ k) = n * 2 ^ (k + 1) := by ring
    rw [ascend, hdouble, ← pow_succ']
    split
    · rename_i hnext
      obtain ⟨j, hj, hasc, ha⟩ := ih (k + 1) hnext (by rwa [show k + 1 + fuel + 1 = k + (fuel + 1) + 1 by omega])
      exact ⟨j, by omega, hasc, ha⟩
    · rename_i hstop
      exact ⟨k, by omega, rfl, by omega⟩

/-- The descent has ended when `m` is below `n`. -/
theorem descend_ended {n m : Nat} (hm : m < n) (fuel a t p : Nat) : descend n fuel a t m p = (a, t) := by
  cases fuel with
  | zero => rfl
  | succ fuel => rw [descend, if_neg (by omega)]

/-- One iteration of the descent is right when the rest of it is. -/
theorem descend_iterate {n j fuel a t : Nat} (ha : a < n * 2 ^ (j + 1))
    (hrest : ∀ a' t', a' < n * 2 ^ j → descend n fuel a' t' ((n * 2 ^ j) >>> 1) (2 ^ j >>> 1) = (a' % n, t' + a' / n)) :
    descend n (fuel + 1) a t (n * 2 ^ j) (2 ^ j) = (a % n, t + a / n) := by
  rw [descend, if_pos (Nat.le_mul_of_pos_right n (Nat.two_pow_pos j))]
  split
  · rename_i hle
    have hlt : a - n * 2 ^ j < n * 2 ^ j := by
      have hdouble : n * 2 ^ (j + 1) = n * 2 ^ j + n * 2 ^ j := by ring
      omega
    have hquot : 2 ^ j ≤ a / n := by
      obtain rfl | hn := Nat.eq_zero_or_pos n
      · simp at ha
      · rwa [Nat.le_div_iff_mul_le hn, Nat.mul_comm]
    rw [hrest _ _ hlt, Nat.sub_mul_mod hle, Nat.sub_mul_div, Nat.add_assoc, Nat.add_sub_cancel' hquot]
  · rename_i hlt
    exact hrest _ _ (by omega)

/-- The descent from `m = n·2^j` and `p = 2^j` on `a < 2·m` leaves the remainder, and adds the quotient to `t`. -/
theorem descend_eq {n j fuel : Nat} (hfuel : j < fuel) (a t : Nat) (ha : a < n * 2 ^ (j + 1)) :
    descend n fuel a t (n * 2 ^ j) (2 ^ j) = (a % n, t + a / n) := by
  obtain ⟨fuel, rfl⟩ := Nat.exists_eq_succ_of_ne_zero (Nat.ne_zero_of_lt hfuel)
  induction j generalizing fuel a t with
  | zero =>
    refine descend_iterate ha fun a' t' ha' => ?_
    rw [pow_zero, Nat.mul_one] at ha'
    rw [pow_zero, Nat.mul_one, descend_ended (by rw [Nat.shiftRight_one]; omega), Nat.mod_eq_of_lt ha', Nat.div_eq_of_lt ha',
      Nat.add_zero]
  | succ j ih =>
    refine descend_iterate ha fun a' t' ha' => ?_
    obtain ⟨fuel, rfl⟩ := Nat.exists_eq_succ_of_ne_zero (show fuel ≠ 0 by omega)
    have hm : (n * 2 ^ (j + 1)) >>> 1 = n * 2 ^ j := by
      rw [Nat.shiftRight_one, pow_succ, ← Nat.mul_assoc, Nat.mul_div_cancel _ (by decide)]
    have hp : 2 ^ (j + 1) >>> 1 = 2 ^ j := by rw [Nat.shiftRight_one, pow_succ, Nat.mul_div_cancel _ (by decide)]
    rw [hm, hp]
    exact ih a' t' ha' fuel (by omega)

/-- Settles O36: a dividend below `n` is its own remainder; else the ascent ends at some `m = n·2^j` with `m ≤ a < 2·m`
(`ascend_eq`), from which the descent divides (`descend_eq`). -/
theorem shiftSubtractDivides : Obligations.ShiftSubtractDivides := by
  intro a n hn
  rw [shiftSubtract]
  split
  · rename_i hlt
    rw [Nat.mod_eq_of_lt hlt, Nat.div_eq_of_lt hlt]
  · rename_i hle
    have hbound : a < n * 2 ^ (0 + bitlen a + 1) := by
      have hlen := lt_two_pow_bitlen a
      calc a < 2 ^ bitlen a := hlen
        _ ≤ 2 ^ (0 + bitlen a + 1) := Nat.pow_le_pow_right (by decide) (by omega)
        _ ≤ n * 2 ^ (0 + bitlen a + 1) := Nat.le_mul_of_pos_left _ hn
    obtain ⟨j, hj, hasc, ha⟩ := ascend_eq (bitlen a) 0 (by omega) hbound
    rw [pow_zero, Nat.mul_one] at hasc
    simp only [hasc, descend_eq (show j < bitlen a + 1 by omega) a 0 ha, Nat.zero_add]

/-- Settles O35: with its operands in the domain neither command raises anything (`reduce_ok`, `quotient_ok`), and the remainder
and the quotient are no larger than an operand (`reduce_le`, `quotient_le`). -/
theorem reduceAndQuotResults : Obligations.ReduceAndQuotResults := by
  intro s rd ra rn hva hvn ha hn hcap
  have hr := reduce_ok ha hn
  have hq := quotient_ok ha hn
  have ha' : ((s.eng.reg ra).toNat : Int) = s.eng.reg ra := Int.toNat_of_nonneg ha
  have hn' : ((s.eng.reg rn).toNat : Int) = s.eng.reg rn := Int.toNat_of_nonneg hn.le
  have hmod : s.eng.reg ra % s.eng.reg rn = ((s.eng.reg ra).toNat % (s.eng.reg rn).toNat : Nat) := by
    rw [Int.natCast_mod, ha', hn']
  have hdiv : s.eng.reg ra / s.eng.reg rn = ((s.eng.reg ra).toNat / (s.eng.reg rn).toNat : Nat) := by
    rw [Int.natCast_div, ha', hn']
  rw [hmod, hdiv]
  exact ⟨exec_one_result rfl (by simp [SomethingInvalid, sources, hva, hvn]) (except_bind_eq_ok.2 ⟨_, hr, rfl⟩)
      (Params.fits_natCast_of_le (hcap rn) (reduce_le hr)),
    exec_one_result rfl (by simp [SomethingInvalid, sources, hva, hvn]) (except_bind_eq_ok.2 ⟨_, hq, rfl⟩)
      (Params.fits_natCast_of_le (hcap ra) (quotient_le hq))⟩

/-! ### Bezout's identity (R140) -/

/-- The loop of R140 keeps two identities, `a·x0 + b·y0 = A` and `a·x1 + b·y1 = B`, and so leaves coefficients of what it
returns. -/
theorem xgcdLoop_bezout {a b : Int} {fuel A B : Nat} {x0 x1 y0 y1 : Int} (h0 : a * x0 + b * y0 = A)
    (h1 : a * x1 + b * y1 = B) :
    a * (xgcdLoop fuel A B x0 x1 y0 y1).x + b * (xgcdLoop fuel A B x0 x1 y0 y1).y = (xgcdLoop fuel A B x0 x1 y0 y1).g := by
  induction fuel generalizing A B x0 x1 y0 y1 with
  | zero => exact h0
  | succ fuel ih =>
    obtain rfl | hB := Nat.eq_zero_or_pos B
    · rw [xgcdLoop_ended]
      exact h0
    · rw [xgcdLoop_iterate _ _ _ _ _ _ hB.ne']
      refine ih h1 ?_
      have hdiv : (A : Int) = B * (A / B : Nat) + (A % B : Nat) := by exact_mod_cast (Nat.div_add_mod A B).symm
      linear_combination h0 - ((A / B : Nat) : Int) * h1 + hdiv

/-- `Xgcd` returns Bezout coefficients of the greatest common divisor (R140). -/
theorem xgcdNat_bezout (A B : Nat) : (A : Int) * (xgcdNat A B).x + B * (xgcdNat A B).y = Nat.gcd A B := by
  rw [← xgcdNat_g]
  exact xgcdLoop_bezout (by ring) (by ring)

/-- Settles O38: the bounds are those of every iteration (`natAbs_xgcdLoop_x_le`); in the corner cases the loop ends after no or
one iteration. -/
theorem xgcdCoefficientsBounded : Obligations.XgcdCoefficientsBounded := by
  refine ⟨fun A B _ => ?_, fun A => rfl, fun B hB => ?_, fun v hv => ?_⟩
  · rw [xgcdNat_g]
    exact ⟨natAbs_xgcdNat_x_le A B, natAbs_xgcdNat_y_le A B⟩
  · obtain ⟨fuel, rfl⟩ := Nat.exists_eq_succ_of_ne_zero hB.ne'
    rw [xgcdNat, xgcdLoop_iterate _ _ _ _ _ _ hB.ne', Nat.zero_mod, xgcdLoop_ended]
  · obtain ⟨fuel, rfl⟩ := Nat.exists_eq_succ_of_ne_zero hv.ne'
    rw [xgcdNat, xgcdLoop_iterate _ _ _ _ _ _ hv.ne', Nat.mod_self, xgcdLoop_ended]

/-- Settles O37: on its domain the procedure of `XGCD` gives the greatest common divisor and its coefficients, all within the
capacity (`xgcd_fits`), and its three destinations are different registers. -/
theorem xgcdResults : Obligations.XgcdResults := by
  intro s rg rx ry ra rb hwf hva hvb ha hb hW hcap
  have hz : xgcd (s.eng.reg ra) (s.eng.reg rb) = .ok (xgcdNat (s.eng.reg ra).toNat (s.eng.reg rb).toNat) :=
    if_neg (by omega)
  have hbezout := xgcdNat_bezout (s.eng.reg ra).toNat (s.eng.reg rb).toNat
  have hg := xgcdNat_g (s.eng.reg ra).toNat (s.eng.reg rb).toNat
  have hfits := xgcd_fits hz hW (hcap ra) (hcap rb)
  have hgcd : Nat.gcd (s.eng.reg ra).toNat (s.eng.reg rb).toNat = Int.gcd (s.eng.reg ra) (s.eng.reg rb) := by
    rw [← Int.gcd_natCast_natCast, Int.toNat_of_nonneg ha, Int.toNat_of_nonneg hb]
  rw [Int.toNat_of_nonneg ha, Int.toNat_of_nonneg hb, hgcd] at hbezout
  rw [hgcd] at hg
  generalize xgcdNat (s.eng.reg ra).toNat (s.eng.reg rb).toNat = z at hz hbezout hg hfits
  have hproc : procedure (.xgcd rg rx ry ra rb) s = .ok { writes := [(rg, z.g), (rx, z.x), (ry, z.y)] } :=
    except_bind_eq_ok.2 ⟨z, hz, rfl⟩
  have hne : (rg ≠ rx ∧ rg ≠ ry) ∧ rx ≠ ry := by simpa [Instr.WF, Instr.wellFormed] using hwf
  obtain ⟨⟨hgx, hgy⟩, hxy⟩ := hne
  refine ⟨_, exec_of_procedure ?_ ?_ hproc (by simp [Effect.fits, hfits]), ?_, ?_, State.complete_completed hproc,
    State.complete_implicitKept rfl rfl rfl⟩
  · exact hwf
  · simp [SomethingInvalid, sources, hva, hvb]
  · simp [Engine.reg_writeReg, hgx, hgy, hg]
  · simp [Engine.reg_writeReg, hgx, hgy, hxy, hg, hbezout]

/-! ### The inverse (R145) -/

/-- With no common factor `InvMod` returns the inverse in `[0, n)` (R145). -/
theorem invMod_ok {A n : Int} (hn : 0 < n) (hgcd : Int.gcd A n = 1) :
    ∃ d : Nat, invMod A n = .ok d ∧ (d : Int) < n ∧ A * d % n = 1 % n := by
  have hpos : 0 < n.toNat := by omega
  have hn' : (n.toNat : Int) = n := Int.toNat_of_nonneg hn.le
  have hg : Nat.gcd (normMod A n.toNat) n.toNat = 1 := (gcd_normMod A hn).trans hgcd
  have hbezout := xgcdNat_bezout (normMod A n.toNat) n.toNat
  have hxg := xgcdNat_g (normMod A n.toNat) n.toNat
  have hlt := normMod_lt (xgcdNat (normMod A n.toNat) n.toNat).x hpos
  refine ⟨normMod (xgcdNat (normMod A n.toNat) n.toNat).x n.toNat, ?_, by omega, ?_⟩
  · rw [invMod, if_neg hn.ne', if_neg hn.not_gt]
    exact if_neg (not_not_intro (hxg.trans hg))
  · rw [hg, normMod_eq A hpos, hn'] at hbezout
    rw [normMod_eq _ hpos, hn']
    calc A * ((xgcdNat (normMod A n.toNat) n.toNat).x % n)
      _ ≡ A % n * (xgcdNat (normMod A n.toNat) n.toNat).x [ZMOD n] := (Int.mod_modEq A n).symm.mul (Int.mod_modEq _ n)
      _ = 1 + n * -(xgcdNat (normMod A n.toNat) n.toNat).y := by linear_combination hbezout
      _ ≡ 1 [ZMOD n] := Int.modEq_add_fac_self

/-- Settles O39: with no common factor `InvMod` returns the inverse (`invMod_ok`), which is below the modulus and so fits. -/
theorem invmodResult : Obligations.InvmodResult := by
  intro s rd ra rn hva hvn hn hgcd hcap
  obtain ⟨d, hd, hlt, hinv⟩ := invMod_ok hn hgcd
  obtain ⟨t, ht, hreg, hrest⟩ := exec_one_result (i := .invmod rd ra rn) (s := s) rfl
    (by simp [SomethingInvalid, sources, hva, hvn]) (except_bind_eq_ok.2 ⟨d, hd, rfl⟩)
    (Params.fits_natCast_of_le (hcap rn) hlt.le)
  exact ⟨t, ht, by omega, by omega, by rw [hreg, hinv], hrest⟩

end Sys2Proof.Machine
end

section
/-! SUPPORT. The scans of R181 and R186 leave `base^e mod n`: after the bits down to place `i` the accumulator is the power whose
exponent is `e` shifted right by `i` (43_modexp.md); with the statements about `MEXPB` and `MEXPW`, settled. -/

namespace Sys2Proof.Machine

/-! ### Squaring (R181) -/

/-- A product modulo `n` of two values reduced modulo `n` (R127). -/
theorem modMul_mod (a b n : Nat) : modMul (a % n) (b % n) n = a * b % n := (Nat.mul_mod a b n).symm

/-- The bits of `e` from place `i` on are those from place `i + 1` on, and bit `i`. -/
theorem shiftRight_eq_add_testBit (e i : Nat) : e >>> i = 2 * (e >>> (i + 1)) + (e.testBit i).toNat := by
  rw [Nat.toNat_testBit, ← Nat.shiftRight_eq_div_pow, Nat.shiftRight_succ, Nat.div_add_mod]

/-- One step of a scan: square, and multiply when the bit is 1. -/
theorem pow_shiftRight (b e i : Nat) :
    b ^ (e >>> i) = b ^ (e >>> (i + 1)) * b ^ (e >>> (i + 1)) * b ^ (e.testBit i).toNat := by
  rw [shiftRight_eq_add_testBit e i, pow_add, Nat.two_mul, pow_add]

/-- No bit is left above the bit length. -/
theorem shiftRight_bitlen (e : Nat) : e >>> bitlen e = 0 := by
  rw [Nat.shiftRight_eq_div_pow, Nat.div_eq_of_lt (lt_two_pow_bitlen e)]

/-- The scan of R181 takes the power down to the whole exponent. -/
theorem expBinaryLoop_eq (b e n i : Nat) : expBinaryLoop (b % n) e n i (b ^ (e >>> i) % n) = b ^ e % n := by
  induction i with
  | zero => rfl
  | succ i ih =>
    have hstep : (if e.testBit i then modMul (modMul (b ^ (e >>> (i + 1)) % n) (b ^ (e >>> (i + 1)) % n) n) (b % n) n
        else modMul (b ^ (e >>> (i + 1)) % n) (b ^ (e >>> (i + 1)) % n) n) = b ^ (e >>> i) % n := by
      rw [pow_shiftRight b e i, modMul_mod, modMul_mod]
      cases e.testBit i <;> simp
    rw [expBinaryLoop, hstep, ih]

/-- Square-and-multiply leaves the power (R181). -/
theorem expBinaryNat_eq (base e n : Nat) : expBinaryNat base e n = base ^ e % n := by
  have h := expBinaryLoop_eq base e n (bitlen e)
  rwa [shiftRight_bitlen, pow_zero] at h

/-! ### Windows (R184, R186) -/

/-- The table of R184: a geometric sequence modulo `n`. -/
theorem windowTableFrom_getD (x y n : Nat) {count k : Nat} (hk : k < count) :
    (windowTableFrom (y % n) n count (x % n)).getD k 0 = x * y ^ k % n := by
  induction count generalizing x k with
  | zero => omega
  | succ count ih =>
    cases k with
    | zero => simp [windowTableFrom]
    | succ k =>
      rw [windowTableFrom, modMul_mod, List.getD_cons_succ, ih _ (by omega), Nat.mul_assoc, ← pow_succ']

/-- The table of R184 holds the odd powers of the base. -/
theorem windowTable_getD (b n : Nat) {k : Nat} (hk : k < 8) :
    (windowTable (b % n) n).getD k 0 = b ^ (2 * k + 1) % n := by
  rw [windowTable, modMul_mod, windowTableFrom_getD _ _ _ (count := 2 ^ (Config.windowWidth - 1)) hk, ← Nat.pow_two,
    ← pow_mul, ← pow_succ']

/-- The search of R186 finds a set bit, at or below any set bit within its reach. -/
theorem lowestSetFrom_spec {e i : Nat} (hi : e.testBit i = true) {fuel l : Nat} (hl : l ≤ i) (hfuel : i < l + fuel) :
    l ≤ lowestSetFrom e fuel l ∧ lowestSetFrom e fuel l ≤ i ∧ e.testBit (lowestSetFrom e fuel l) = true := by
  induction fuel generalizing l with
  | zero => omega
  | succ fuel ih =>
    rw [lowestSetFrom]
    split
    · rename_i hset
      exact ⟨le_rfl, hl, hset⟩
    · rename_i hclear
      have hne : l ≠ i := fun heq => hclear (heq ▸ hi)
      obtain ⟨hle, hrest⟩ := ih (l := l + 1) (by omega) (by omega)
      exact ⟨by omega, hrest⟩

/-- Repeated squaring. -/
theorem squareTimes_eq (x n c : Nat) : squareTimes n c (x % n) = x ^ 2 ^ c % n := by
  induction c generalizing x with
  | zero => rw [squareTimes, pow_zero, pow_one]
  | succ c ih => rw [squareTimes, modMul_mod, ih, ← Nat.pow_two, ← pow_mul, ← pow_succ']

/-- The value of the window `[l..i]` of `e` (R186). -/
def windowValue (e l i : Nat) : Nat := (e >>> l) &&& ((1 <<< (i - l + 1)) - 1)

/-- The bits of `e` from place `l` on are those above the window `[l..i]`, and the window's value. -/
theorem shiftRight_eq_add_windowValue {e l i : Nat} (hl : l ≤ i) :
    e >>> l = 2 ^ (i - l + 1) * (e >>> (i + 1)) + windowValue e l i := by
  have habove : e >>> (i + 1) = e >>> l / 2 ^ (i - l + 1) := by
    rw [← Nat.shiftRight_eq_div_pow, ← Nat.shiftRight_add]
    congr 1
    omega
  rw [windowValue, Nat.one_shiftLeft, Nat.and_two_pow_sub_one_eq_mod, habove, Nat.div_add_mod]

/-- A window of at most four bits has a value below 16. -/
theorem windowValue_lt {e l i : Nat} (h : i - l + 1 ≤ 4) : windowValue e l i < 16 := by
  rw [windowValue, Nat.one_shiftLeft, Nat.and_two_pow_sub_one_eq_mod]
  calc e >>> l % 2 ^ (i - l + 1) < 2 ^ (i - l + 1) := Nat.mod_lt _ (Nat.two_pow_pos _)
    _ ≤ 2 ^ 4 := Nat.pow_le_pow_right (by decide) h

/-- A window that ends in a set bit has an odd value. -/
theorem windowValue_odd {e l i : Nat} (hset : e.testBit l = true) (hl : l ≤ i) :
    2 * (windowValue e l i >>> 1) + 1 = windowValue e l i := by
  have hsplit := shiftRight_eq_add_windowValue (e := e) hl
  have hodd : e >>> l % 2 = 1 := by
    rw [shiftRight_eq_add_testBit, hset]
    simp
  have heven : 2 ^ (i - l + 1) * (e >>> (i + 1)) % 2 = 0 := by
    rw [pow_succ, Nat.mul_right_comm, Nat.mul_mod_left]
  rw [Nat.shiftRight_one]
  omega

/-- The scan of R186 takes the power down to the whole exponent. -/
theorem expWindowLoop_eq (b e n : Nat) {fuel todo : Nat} (h : todo ≤ fuel) :
    expWindowLoop (windowTable (b % n) n) e n fuel todo (b ^ (e >>> todo) % n) = b ^ e % n := by
  induction fuel generalizing todo with
  | zero =>
    obtain rfl := Nat.le_zero.1 h
    rfl
  | succ fuel ih =>
    cases todo with
    | zero => rfl
    | succ i =>
      rw [expWindowLoop]
      split
      · rename_i hset
        obtain ⟨hlow, hle, hend⟩ := lowestSetFrom_spec hset (fuel := Config.windowWidth) (l := i + 1 - Config.windowWidth)
          (by rw [Config.windowWidth]; omega) (by omega)
        simp only []
        generalize lowestSetFrom e Config.windowWidth (i + 1 - Config.windowWidth) = l at hlow hle hend ⊢
        rw [Config.windowWidth] at hlow
        have hvalue := windowValue_odd hend hle
        have hlt := windowValue_lt (e := e) (l := l) (i := i) (by omega)
        have hacc : modMul (squareTimes n (i - l + 1) (b ^ (e >>> (i + 1)) % n))
            ((windowTable (b % n) n).getD (windowValue e l i >>> 1) 0) n = b ^ (e >>> l) % n := by
          rw [squareTimes_eq, windowTable_getD b n (by omega), hvalue, modMul_mod, ← pow_mul, ← pow_add, Nat.mul_comm,
            ← shiftRight_eq_add_windowValue hle]
        exact (congrArg _ hacc).trans (ih (by omega))
      · rename_i hclear
        have hacc : modMul (b ^ (e >>> (i + 1)) % n) (b ^ (e >>> (i + 1)) % n) n = b ^ (e >>> i) % n := by
          rw [pow_shiftRight b e i, Bool.eq_false_iff.2 hclear, Bool.toNat_false, pow_zero, Nat.mul_one, modMul_mod]
        rw [hacc, ih (by omega)]

/-- The sliding window leaves the power (R186). -/
theorem expWindowNat_eq (base e n : Nat) : expWindowNat base e n = base ^ e % n := by
  have h := expWindowLoop_eq base e n (le_refl (bitlen e))
  rwa [shiftRight_bitlen, pow_zero] at h

/-! ### The commands -/

section Domain
variable {base e n : Int} (hb : 0 ≤ base) (he : 0 ≤ e) (hn : 0 < n)
include hb hn

/-- A power of naturals read as one of integers. -/
theorem natCast_toNat_pow_mod (k : Nat) : ((base.toNat ^ k % n.toNat : Nat) : Int) = base ^ k % n := by
  rw [Int.natCast_mod, Int.natCast_pow, Int.toNat_of_nonneg hb, Int.toNat_of_nonneg hn.le]

include he

/-- `ExpBinary` on its domain (R181). -/
theorem expBinary_ok : expBinary base e n = .ok (base.toNat ^ e.toNat % n.toNat) := by
  rw [expBinary, expChecks_ok hb he hn, ← expBinaryNat_eq]
  rfl

/-- `ExpWindow` on its domain (R186). -/
theorem expWindow_ok : expWindow base e n = .ok (base.toNat ^ e.toNat % n.toNat) := by
  rw [expWindow, expChecks_ok hb he hn, ← expWindowNat_eq]
  rfl

end Domain

/-- Settles O44: on its domain `ExpBinary` leaves the power (`expBinary_ok`), which is below the modulus and so fits. -/
theorem mexpbResult : Obligations.MexpbResult := by
  intro s rd rb re rn hvb hve hvn hb he hn hcap
  have hpow := expBinary_ok hb he hn
  rw [← natCast_toNat_pow_mod hb hn]
  exact exec_one_result rfl (by simp [SomethingInvalid, sources, hvb, hve, hvn]) (except_bind_eq_ok.2 ⟨_, hpow, rfl⟩)
    (Params.fits_natCast_of_le (hcap rn) (expBinary_le hpow))

/-- Settles O45: on its domain `ExpWindow` leaves the power (`expWindow_ok`), which is below the modulus and so fits. -/
theorem mexpwResult : Obligations.MexpwResult := by
  intro s rd rb re rn hvb hve hvn hb he hn hcap
  have hpow := expWindow_ok hb he hn
  rw [← natCast_toNat_pow_mod hb hn]
  exact exec_one_result rfl (by simp [SomethingInvalid, sources, hvb, hve, hvn]) (except_bind_eq_ok.2 ⟨_, hpow, rfl⟩)
    (Params.fits_natCast_of_le (hcap rn) (expWindow_le hpow))

end Sys2Proof.Machine
end

section
/-! SUPPORT. The primality oracle: what its cheap filter decides (R162), and that a prime passes every Miller-Rabin witness (R164);
with the statements about primality (42_primality.md), settled. -/

namespace Sys2Proof.Machine

/-! ### The cheap filter (R162) -/

/-- The primes of the filter's two tables, together the primes below 100 (R161). -/
def filterPrimes : List Nat := Config.acceptedPrimes ++ Config.smallPrimes

/-- The tables hold primes. -/
theorem prime_of_mem_filterPrimes {p : Nat} (h : p ∈ filterPrimes) : p.Prime := by
  have hall : ∀ q ∈ filterPrimes, q.Prime := by
    simp only [filterPrimes, Config.acceptedPrimes, Config.smallPrimes, List.cons_append, List.nil_append,
      List.forall_mem_cons, List.not_mem_nil, false_implies, implies_true, and_true]
    norm_num
  exact hall p h

/-- Every number from 2 to 99 that is not in the tables has a proper divisor. -/
theorem mem_filterPrimes_or_dvd : ∀ p < 100, p < 2 ∨ p ∈ filterPrimes ∨ ∃ d ∈ [2, 3, 5, 7], d ∣ p ∧ d ≠ p := by
  decide

/-- The tables hold every prime below 100. -/
theorem mem_filterPrimes {p : Nat} (hp : p.Prime) (hlt : p < 100) : p ∈ filterPrimes := by
  obtain h | h | ⟨d, hd, hdvd, hne⟩ := mem_filterPrimes_or_dvd p hlt
  · exact absurd hp.two_le (by omega)
  · exact h
  · have hone : d ≠ 1 := by
      rintro rfl
      simp at hd
    exact absurd hp (Nat.not_prime_of_dvd_of_ne hdvd hone hne)

/-- The pass over a table accepts a member, rejects a proper multiple of a member, and passes what no member divides. -/
theorem filterSmall_cases (n : Nat) (ts : List Nat) :
    (filterSmall n ts = .accept ∧ n ∈ ts) ∨ (filterSmall n ts = .reject ∧ ∃ t ∈ ts, t ∣ n ∧ t ≠ n) ∨
    (filterSmall n ts = .pass ∧ ∀ t ∈ ts, ¬ t ∣ n) := by
  induction ts with
  | nil => exact .inr (.inr ⟨rfl, nofun⟩)
  | cons t ts ih =>
    rw [filterSmall]
    split
    · rename_i heq
      exact .inl ⟨rfl, heq ▸ List.mem_cons_self⟩
    · rename_i hne
      split
      · rename_i hdvd
        exact .inr (.inl ⟨rfl, t, List.mem_cons_self, Nat.dvd_of_mod_eq_zero hdvd, Ne.symm hne⟩)
      · rename_i hndvd
        obtain ⟨h, hmem⟩ | ⟨h, u, hu, hdvd, hune⟩ | ⟨h, hall⟩ := ih
        · exact .inl ⟨h, List.mem_cons_of_mem _ hmem⟩
        · exact .inr (.inl ⟨h, u, List.mem_cons_of_mem _ hu, hdvd, hune⟩)
        · exact .inr (.inr ⟨h, List.forall_mem_cons.2 ⟨fun hd => hndvd (Nat.mod_eq_zero_of_dvd hd), hall⟩⟩)

/-- The filter accepts the primes of its tables, rejects only what is no prime, and passes what none of them divides. -/
theorem cheapFilter_cases (n : Int) :
    (cheapFilter n = .accept ∧ 0 ≤ n ∧ n.toNat ∈ filterPrimes) ∨ (cheapFilter n = .reject ∧ ¬ n.toNat.Prime) ∨
    (cheapFilter n = .pass ∧ 2 ≤ n ∧ ∀ t ∈ filterPrimes, ¬ t ∣ n.toNat) := by
  unfold cheapFilter
  split
  · rename_i hlt
    exact .inr (.inl ⟨rfl, fun hp => absurd hp.two_le (by omega)⟩)
  · rename_i htwo
    have hcomposite {d : Nat} (hd : d ∈ Config.acceptedPrimes) (hdvd : d ∣ n.toNat)
        (hn : ¬ Config.acceptedPrimes.contains n.toNat = true) : ¬ n.toNat.Prime := by
      refine Nat.not_prime_of_dvd_of_ne hdvd (prime_of_mem_filterPrimes (List.mem_append_left _ hd)).ne_one ?_
      rintro rfl
      exact hn (List.contains_iff_mem.2 hd)
    simp only []
    split
    · rename_i hacc
      exact .inl ⟨rfl, by omega, List.mem_append_left _ (List.contains_iff_mem.1 hacc)⟩
    · rename_i hnot
      split
      · rename_i heven
        rw [Nat.testBit_zero, Bool.not_eq_true', decide_eq_false_iff_not] at heven
        exact .inr (.inl ⟨rfl, hcomposite (d := 2) (by decide) (by omega) hnot⟩)
      · rename_i hodd
        rw [Nat.testBit_zero, Bool.not_eq_true', decide_eq_false_iff_not, not_not] at hodd
        split
        · rename_i hthreefive
          refine .inr (.inl ⟨rfl, ?_⟩)
          obtain h | h := hthreefive
          · exact hcomposite (d := 3) (by decide) (by omega) hnot
          · exact hcomposite (d := 5) (by decide) (by omega) hnot
        · rename_i hthreefive
          obtain ⟨h, hmem⟩ | ⟨h, t, ht, hdvd, hne⟩ | ⟨h, hall⟩ := filterSmall_cases n.toNat Config.smallPrimes
          · exact .inl ⟨h, by omega, List.mem_append_right _ hmem⟩
          · exact .inr (.inl ⟨h, Nat.not_prime_of_dvd_of_ne hdvd
              (prime_of_mem_filterPrimes (List.mem_append_right _ ht)).ne_one hne⟩)
          · refine .inr (.inr ⟨h, by omega, List.forall_mem_append.2 ⟨?_, hall⟩⟩)
            simp only [Config.acceptedPrimes, List.forall_mem_cons, List.not_mem_nil, false_implies, implies_true, and_true]
            omega

/-- What the filter passes has no prime factor below 100, and so is at least 101. -/
theorem of_cheapFilter_pass {n : Int} (h : cheapFilter n = .pass) :
    101 ≤ n ∧ ∀ p : Nat, p.Prime → p < 100 → ¬ p ∣ n.toNat := by
  obtain ⟨h', -⟩ | ⟨h', -⟩ | ⟨-, htwo, hall⟩ := cheapFilter_cases n
  · cases h.symm.trans h'
  · cases h.symm.trans h'
  · have hnone : ∀ p : Nat, p.Prime → p < 100 → ¬ p ∣ n.toNat := fun p hp hlt => hall p (mem_filterPrimes hp hlt)
    refine ⟨?_, hnone⟩
    by_contra hsmall
    have hne : n.toNat ≠ 100 := fun heq => hnone 2 Nat.prime_two (by decide) (by omega)
    have hle := Nat.minFac_le (n := n.toNat) (by omega)
    exact hnone n.toNat.minFac (Nat.minFac_prime (by omega)) (by omega) (Nat.minFac_dvd _)

/-! ### Miller-Rabin (R163, R164) -/

/-- The power of 2 that `ctz` counts divides. -/
theorem two_pow_ctzLoop_dvd (fuel v : Nat) : 2 ^ ctzLoop fuel v ∣ v := by
  induction fuel generalizing v with
  | zero => exact one_dvd v
  | succ fuel ih =>
    rw [ctzLoop]
    split
    · exact one_dvd v
    · have hv : v = v / 2 * 2 := by omega
      rw [pow_succ]
      conv_rhs => rw [hv]
      exact Nat.mul_dvd_mul_right (ih (v / 2)) 2

/-- An even positive value has a trailing zero bit. -/
theorem ctz_pos {v : Nat} (hv : v ≠ 0) (heven : v % 2 = 0) : 0 < ctz v := by
  have hlen : bitlen v = Nat.log2 v + 1 := if_neg hv
  rw [ctz, hlen, ctzLoop, if_neg (by omega)]
  exact Nat.succ_pos _

/-- For odd `n ≥ 3`, `n - 1 = d·2^s` with `s` positive (R163). -/
theorem decompose_spec {n : Nat} (hn : 3 ≤ n) (hodd : n % 2 = 1) :
    (decompose n).1 * 2 ^ (decompose n).2 = n - 1 ∧ 0 < (decompose n).2 := by
  refine ⟨?_, ctz_pos (by omega) (by omega)⟩
  rw [decompose]
  simp only [Nat.shiftRight_eq_div_pow]
  exact Nat.div_mul_cancel (two_pow_ctzLoop_dvd _ _)

section Prime
variable {p : Nat} [hp : Fact p.Prime]

/-- Of the residues modulo `p` only `p - 1` is `-1`. -/
theorem eq_sub_one_of_natCast_eq_neg_one {x : Nat} (hx : x < p) (h : (x : ZMod p) = -1) : x = p - 1 := by
  have hzero : ((x + 1 : Nat) : ZMod p) = 0 := by rw [Nat.cast_add, Nat.cast_one, h, neg_add_cancel]
  have hle := Nat.le_of_dvd (Nat.succ_pos x) ((ZMod.natCast_eq_zero_iff _ _).1 hzero)
  omega

/-- Modulo a prime only `1` and `-1` have the square 1. -/
theorem mul_self_ne_one {x : ZMod p} (hone : x ≠ 1) (hneg : x ≠ -1) : x * x ≠ 1 :=
  fun h => (mul_self_eq_one_iff.1 h).elim hone hneg

/-- The key of Miller-Rabin: repeated squaring modulo a prime that ends at 1 meets `-1`, unless it starts at `1` or `-1`. -/
theorem squaresMeet_of_prime (count x : Nat) (hpow : (x : ZMod p) ^ 2 ^ (count + 1) = 1) (hone : (x : ZMod p) ≠ 1)
    (hneg : (x : ZMod p) ≠ -1) : squaresMeet p count x = true := by
  induction count generalizing x with
  | zero =>
    rw [zero_add, pow_one, pow_two] at hpow
    exact absurd hpow (mul_self_ne_one hone hneg)
  | succ count ih =>
    have hcast : ((modMul x x p : Nat) : ZMod p) = x * x := by rw [modMul, ZMod.natCast_mod, Nat.cast_mul]
    rw [squaresMeet]
    simp only [Bool.or_eq_true, beq_iff_eq]
    by_cases hend : modMul x x p = p - 1
    · exact .inl hend
    · refine .inr (ih _ ?_ (hcast ▸ mul_self_ne_one hone hneg) fun h => hend ?_)
      · rw [hcast, ← pow_two, ← pow_mul, ← pow_succ', hpow]
      · exact eq_sub_one_of_natCast_eq_neg_one (modMul_lt hp.out.pos x x) h

/-- A prime passes every witness that it does not divide: by Fermat the squarings of `a^d` end at 1 (R164). -/
theorem witnessAccepts_of_prime {a d s : Nat} (ha : (a : ZMod p) ≠ 0) (hdecomp : d * 2 ^ s = p - 1) (hs : 0 < s) :
    witnessAccepts a p d s = true := by
  have hcast : ((a ^ d % p : Nat) : ZMod p) = (a : ZMod p) ^ d := by rw [ZMod.natCast_mod, Nat.cast_pow]
  have hfermat : ((a ^ d % p : Nat) : ZMod p) ^ 2 ^ (s - 1 + 1) = 1 := by
    rw [hcast, Nat.sub_add_cancel hs, ← pow_mul, hdecomp, ZMod.pow_card_sub_one_eq_one ha]
  rw [witnessAccepts]
  simp only [expBinaryNat_eq, Bool.or_eq_true, beq_iff_eq]
  have hlt : a ^ d % p < p := Nat.mod_lt _ hp.out.pos
  generalize a ^ d % p = x at hlt hfermat ⊢
  by_cases hone : x = 1
  · exact .inl (.inl hone)
  · by_cases hneg : x = p - 1
    · exact .inl (.inr hneg)
    · refine .inr (squaresMeet_of_prime _ _ hfermat (fun h => hone ?_) fun h => hneg ?_)
      · rw [← Nat.cast_one, ZMod.natCast_eq_natCast_iff', Nat.mod_eq_of_lt hlt, Nat.mod_eq_of_lt hp.out.one_lt] at h
        exact h
      · exact eq_sub_one_of_natCast_eq_neg_one hlt h

end Prime

/-! ### The statements -/

/-- Settles O41: the filter rejects no prime (`cheapFilter_cases`), and one that it passes is odd and no divisor of a witness, so
that every witness accepts it (`witnessAccepts_of_prime`). -/
theorem primesAreAccepted : Obligations.PrimesAreAccepted := by
  intro p hprime
  obtain ⟨h, -⟩ | ⟨-, hnot⟩ | ⟨h, -⟩ := cheapFilter_cases (p : Int)
  · simp [isProbablePrime, h]
  · exact absurd hprime hnot
  · obtain ⟨hlarge, hnone⟩ := of_cheapFilter_pass h
    have hodd : ¬ 2 ∣ p := hnone 2 Nat.prime_two (by decide)
    obtain ⟨hdecomp, hs⟩ := decompose_spec (n := p) (by omega) (by omega)
    have : Fact p.Prime := ⟨hprime⟩
    rw [isProbablePrime, h]
    simp only [Int.toNat_natCast, List.all_eq_true, Bool.or_eq_true, decide_eq_true_eq]
    refine fun a ha => .inr (witnessAccepts_of_prime (fun hzero => ?_) hdecomp hs)
    have hbound : ∀ w ∈ Config.witnesses, 0 < w ∧ w < 100 := by decide
    obtain ⟨hpos, hlt⟩ := hbound a ha
    have hle := Nat.le_of_dvd hpos ((ZMod.natCast_eq_zero_iff _ _).1 hzero)
    omega

/-- Settles O42: below 100 the filter decides, by its tables of primes (`cheapFilter_cases`); what it passes has no small prime
factor (`of_cheapFilter_pass`). -/
theorem filterAndSmallValues : Obligations.FilterAndSmallValues := by
  refine ⟨fun n hn => ⟨fun h => ?_, fun ⟨hpos, hprime⟩ => ?_⟩, fun n h => ?_⟩
  · obtain ⟨-, hpos, hmem⟩ | ⟨hrej, -⟩ | ⟨hpass, -⟩ := cheapFilter_cases n
    · exact ⟨hpos, prime_of_mem_filterPrimes hmem⟩
    · simp [isProbablePrime, hrej] at h
    · obtain ⟨hlarge, -⟩ := of_cheapFilter_pass hpass
      omega
  · rw [← Int.toNat_of_nonneg hpos]
    exact primesAreAccepted _ hprime
  · obtain ⟨hlarge, hnone⟩ := of_cheapFilter_pass h
    have hodd : ¬ 2 ∣ n.toNat := hnone 2 Nat.prime_two (by decide)
    refine ⟨hlarge, by omega, fun p hp hlt hdvd => hnone p hp hlt ?_⟩
    rwa [← Int.natCast_dvd_natCast, Int.toNat_of_nonneg (by omega)]

/-- Settles O43, by running the oracle on the composite. -/
theorem oracleAcceptsAComposite : Obligations.OracleAcceptsAComposite :=
  ⟨by decide +kernel, by norm_num⟩

end Sys2Proof.Machine
end

section
/-! SUPPORT. Montgomery arithmetic: `MontCtx` constructs a context (R201, R202), `Redc` divides by the radix modulo the modulus
(R204), and so a Montgomery product is the ordinary product of the values that its factors stand for (R205); with the statements
about the Montgomery commands (44_montgomery.md sections 1 to 3), settled. -/

namespace Sys2Proof.Machine

/-! ### The context of an odd modulus (R201, R202) -/

/-- A positive value has a positive bit length. -/
theorem bitlen_pos {v : Nat} (hv : v ≠ 0) : 0 < bitlen v := by
  rw [bitlen, if_neg hv]
  exact Nat.succ_pos _

/-- `NPRIME`, made of the inverse of `n` modulo `r`, is the negated inverse: `n·NPRIME ≡ -1` (R201). -/
theorem mul_normMod_sub_inverse {n r ninv : Nat} (hr : 1 < r) (hinv : (n : Int) * ninv % r = 1 % r) :
    n * normMod ((r : Int) - ninv) r % r = r - 1 := by
  have hpos : 0 < r := by omega
  have hcong : (n : Int) * (normMod ((r : Int) - ninv) r) ≡ -1 [ZMOD r] := by
    rw [normMod_eq _ hpos]
    calc (n : Int) * (((r : Int) - ninv) % r)
      _ ≡ n * ((r : Int) - ninv) [ZMOD r] := (Int.mod_modEq _ _).mul_left _
      _ = -(n * ninv) + r * n := by ring
      _ ≡ -(n * ninv) [ZMOD r] := Int.modEq_add_fac_self
      _ ≡ -1 [ZMOD r] := Int.ModEq.neg hinv
  have hneg : (-1 : Int) % r = r - 1 := by
    rw [← Int.add_emod_right]
    exact Int.emod_eq_of_lt (by omega) (by omega)
  have hmod : ((n * normMod ((r : Int) - ninv) r % r : Nat) : Int) = r - 1 := by
    rw [← hneg]
    exact_mod_cast hcong
  omega

/-- The context of the modulus `n` whose inverse modulo the radix is `ninv`, as R201 makes it. -/
def contextWithInverse (n ninv : Nat) : MontCtx where
  n := n
  r := 2 ^ bitlen n
  rmask := 2 ^ bitlen n - 1
  nprime := normMod ((2 ^ bitlen n : Nat) - (ninv : Int)) (2 ^ bitlen n)
  k := bitlen n

/-- Made of an odd modulus and its inverse, it is a context (R202). -/
theorem contextWithInverse_contextOf {n ninv : Nat} (hodd : n % 2 = 1)
    (hinv : (n : Int) * ninv % (2 ^ bitlen n : Nat) = 1 % (2 ^ bitlen n : Nat)) : ContextOf (contextWithInverse n ninv) := by
  have hne : n ≠ 0 := by omega
  have hlen := bitlen_pos hne
  have hradix : 1 < 2 ^ bitlen n := Nat.one_lt_two_pow hlen.ne'
  have hprime : n * (contextWithInverse n ninv).nprime % 2 ^ bitlen n = 2 ^ bitlen n - 1 :=
    mul_normMod_sub_inverse hradix hinv
  refine ⟨hodd, rfl, rfl, lt_two_pow_bitlen n, ?_, rfl, ?_, normMod_lt _ (Nat.two_pow_pos _), hprime⟩
  · calc 2 ^ bitlen n
      _ = 2 * 2 ^ (bitlen n - 1) := by rw [← pow_succ', Nat.sub_add_cancel hlen]
      _ ≤ 2 * n := Nat.mul_le_mul_left 2 (two_pow_bitlen_le hne)
  · rw [Nat.one_le_iff_ne_zero]
    intro hzero
    rw [hzero, Nat.mul_zero, Nat.zero_mod] at hprime
    omega

/-- What `MontCtx` constructs is a context (R201, R202). -/
theorem montCtx_contextOf {n : Int} {c : MontCtx} (h : montCtx n = .ok c) : ContextOf c := by
  obtain ⟨hz, hneg⟩ := (montCtx_checked n).domain h
  have hodd : ¬ n % 2 = 0 := fun heven => by
    cases ((montCtx_checked n).eq_invalidModulus_iff.2 ⟨hz, hneg, heven⟩).symm.trans h
  rw [montCtx, if_neg hz, if_neg hneg, if_neg (mt (testBit_zero_eq_false_iff (by omega)).1 hodd)] at h
  simp only [Nat.one_shiftLeft] at h
  obtain ⟨ninv, hninv, hc⟩ := except_bind_eq_ok.1 h
  obtain rfl : contextWithInverse n.toNat ninv = c := Except.ok.inj hc
  have hgcd := gcd_two_pow_of_odd hodd (bitlen n.toNat)
  rw [Nat.one_shiftLeft] at hgcd
  obtain ⟨d, hd, -, hinv⟩ := invMod_ok (Int.natCast_pos.2 (Nat.two_pow_pos (bitlen n.toNat))) hgcd
  obtain rfl : d = ninv := Except.ok.inj (hd.symm.trans hninv)
  rw [← Int.toNat_of_nonneg (show 0 ≤ n by omega)] at hinv
  exact contextWithInverse_contextOf (by omega) hinv

/-- An odd positive modulus has a context (R201). -/
theorem exists_montCtx_eq_ok {n : Int} (hpos : 0 < n) (hodd : n % 2 = 1) :
    ∃ c, montCtx n = .ok c ∧ (c.n : Int) = n ∧ ContextOf c := by
  obtain ⟨c, hc⟩ := (montCtx_checked n).exists_eq_ok (by omega) (by omega) (by omega) id
  exact ⟨c, hc, (montCtx_sized hc).2, montCtx_contextOf hc⟩

/-- Settles O51: the procedure of `MCTX` constructs the context and writes no register. -/
theorem mctxResult : Obligations.MctxResult := by
  intro s rn hvalid hpos hodd
  obtain ⟨c, hc, hn, hctx⟩ := exists_montCtx_eq_ok hpos hodd
  have hproc : procedure (.mctx rn) s = .ok { ctx := some c } := except_bind_eq_ok.2 ⟨c, hc, rfl⟩
  refine ⟨_, exec_of_procedure rfl (by simp [SomethingInvalid, sources, hvalid]) hproc rfl, ?_, ?_, ?_, ?_, ?_,
    State.complete_completed hproc⟩
  · simpa using hn
  · simpa using hctx
  all_goals simp

/-! ### The reduction step (R204) -/

namespace ContextOf
variable {c : MontCtx} (hc : ContextOf c)
include hc

/-- The radix is positive. -/
theorem radix_pos : 0 < c.r := hc.radix ▸ Nat.two_pow_pos _

/-- Masking with `RMASK` is the remainder by the radix (R30). -/
theorem and_rmask (x : Nat) : x &&& c.rmask = x % c.r := by
  rw [hc.mask, hc.radix, Nat.and_two_pow_sub_one_eq_mod]

/-- The multiple of the modulus that `Redc` adds makes `t` a multiple of the radix. -/
theorem radix_dvd (t : Nat) : c.r ∣ t + t % c.r * c.nprime % c.r * c.n := by
  have hradix := hc.radix_pos
  have hcong : t + t % c.r * c.nprime % c.r * c.n ≡ 0 [MOD c.r] := by
    calc t + t % c.r * c.nprime % c.r * c.n
      _ ≡ t + t * c.nprime * c.n [MOD c.r] :=
        (((Nat.mod_modEq _ _).trans ((Nat.mod_modEq _ _).mul_right _)).mul_right _).add_left _
      _ = t + t * (c.n * c.nprime) := by ring
      _ ≡ t + t * (c.r - 1) [MOD c.r] := by
        refine Nat.ModEq.add_left _ (Nat.ModEq.mul_left _ ?_)
        rw [Nat.ModEq, hc.nprimeInv, Nat.mod_eq_of_lt (by omega)]
      _ = c.r * t := by
        rw [Nat.mul_sub_one, Nat.add_sub_cancel' (Nat.le_mul_of_pos_right t hradix), Nat.mul_comm]
      _ ≡ 0 [MOD c.r] := (Nat.modEq_zero_iff_dvd.2 (Nat.dvd_mul_right ..))
  exact (Nat.modEq_zero_iff_dvd).1 hcong

/-- `Redc` divides by the radix, modulo the modulus (R204). -/
theorem redc_mul_radix (t : Nat) : redc c t * c.r ≡ t [MOD c.n] := by
  obtain ⟨u, hu⟩ := hc.radix_dvd t
  have hradix := hc.radix_pos
  have hshift : (t + t % c.r * c.nprime % c.r * c.n) >>> c.k = u := by
    rw [Nat.shiftRight_eq_div_pow, ← hc.radix, hu, Nat.mul_div_cancel_left _ hradix]
  have huradix : u * c.r ≡ t [MOD c.n] := by
    rw [Nat.mul_comm, ← hu]
    exact Nat.add_mul_modulus_modEq_iff.2 rfl
  rw [redc]
  simp only [hc.and_rmask, hshift]
  split
  · rename_i hle
    refine Nat.ModEq.trans (Nat.ModEq.mul_right _ ?_) huradix
    exact ((Nat.modEq_sub_modulus_iff hle).2 rfl).symm
  · exact huradix

/-- The radix, a power of 2, and the odd modulus have no common factor. -/
theorem coprime_radix : Nat.Coprime c.r c.n := by
  rw [hc.radix]
  exact (Nat.coprime_two_left.2 (Nat.odd_iff.2 hc.odd)).pow_left _

end ContextOf

/-! ### The value a residue stands for (R200, R205) -/

/-- A residue that is a value modulo `n` is the value's remainder. -/
theorem eq_mod_of_natCast_eq {n a b : Nat} (ha : a < n) (h : (a : ZMod n) = b) : a = b % n := by
  rwa [ZMod.natCast_eq_natCast_iff', Nat.mod_eq_of_lt ha] at h

/-- The value that the Montgomery form `x` stands for, modulo the modulus: `x` divided by the radix. -/
def MontCtx.plain (c : MontCtx) (x : Nat) : ZMod c.n := x * (c.r : ZMod c.n)⁻¹

namespace ContextOf
variable {c : MontCtx} (hc : ContextOf c)
include hc

/-- The radix has an inverse modulo the modulus. -/
theorem radix_mul_inv : (c.r : ZMod c.n) * (c.r : ZMod c.n)⁻¹ = 1 := ZMod.coe_mul_inv_eq_one _ hc.coprime_radix

/-- `Redc` leaves the value that its operand stands for. -/
theorem natCast_redc (t : Nat) : ((redc c t : Nat) : ZMod c.n) = c.plain t := by
  have hmul : ((redc c t : Nat) : ZMod c.n) * c.r = t := by
    rw [← Nat.cast_mul]
    exact (ZMod.natCast_eq_natCast_iff _ _ _).2 (hc.redc_mul_radix t)
  rw [MontCtx.plain, ← hmul, mul_assoc, hc.radix_mul_inv, mul_one]

/-- Conversion out leaves the value (R205). -/
theorem natCast_fromMont (a : Nat) : ((fromMont c a : Nat) : ZMod c.n) = c.plain a := hc.natCast_redc a

/-- A Montgomery product stands for the product (R205). -/
theorem plain_montMul (a b : Nat) : c.plain (montMul c a b) = c.plain a * c.plain b := by
  have h := hc.natCast_redc (a * b)
  rw [MontCtx.plain, montMul, h, MontCtx.plain, MontCtx.plain, MontCtx.plain, Nat.cast_mul]
  ring

/-- Conversion in gives a form that stands for the value (R205). -/
theorem plain_toMont (a : Nat) : c.plain (toMont c a) = a := by
  rw [MontCtx.plain, toMont, ZMod.natCast_mod, Nat.shiftLeft_eq, ← hc.radix, Nat.cast_mul, mul_assoc, hc.radix_mul_inv, mul_one]

/-- The form is the value times the radix. -/
theorem plain_mul_radix (x : Nat) : c.plain x * c.r = x := by
  rw [MontCtx.plain, mul_assoc, mul_comm _ (c.r : ZMod c.n), hc.radix_mul_inv, mul_one]

/-- Residues that stand for the same value are equal. -/
theorem eq_of_plain_eq {a b : Nat} (ha : a < c.n) (hb : b < c.n) (h : c.plain a = c.plain b) : a = b := by
  have hcast : (a : ZMod c.n) = b := by rw [← hc.plain_mul_radix a, h, hc.plain_mul_radix]
  rwa [ZMod.natCast_eq_natCast_iff', Nat.mod_eq_of_lt ha, Nat.mod_eq_of_lt hb] at hcast

end ContextOf

/-- Settles O53: each law holds of the values that the forms stand for (`ContextOf.plain_montMul`, `ContextOf.plain_toMont`), and
residues are told apart by those values (`ContextOf.eq_of_plain_eq`). -/
theorem montgomeryDomainLaws : Obligations.MontgomeryDomainLaws := by
  intro c hc
  have hs := hc.sized
  refine ⟨fun a => ?_, fun u v => ?_, fun a ha => ?_, fun a b => ?_, fun a b d ha hb hd => ?_⟩
  · exact eq_mod_of_natCast_eq (hs.fromMont_lt (hs.toMont_lt a)) (by rw [hc.natCast_fromMont, hc.plain_toMont])
  · refine hc.eq_of_plain_eq (hs.montMul_lt (hs.toMont_lt u) (hs.toMont_lt v)) (hs.toMont_lt _) ?_
    rw [hc.plain_montMul, hc.plain_toMont, hc.plain_toMont, hc.plain_toMont, Nat.cast_mul]
  · refine hc.eq_of_plain_eq (hs.montMul_lt (hs.toMont_lt 1) ha) ha ?_
    rw [hc.plain_montMul, hc.plain_toMont, Nat.cast_one, one_mul]
  · rw [montMul, montMul, Nat.mul_comm]
  · refine hc.eq_of_plain_eq (hs.montMul_lt (hs.montMul_lt ha hb) hd) (hs.montMul_lt ha (hs.montMul_lt hb hd)) ?_
    rw [hc.plain_montMul, hc.plain_montMul, hc.plain_montMul, hc.plain_montMul, mul_assoc]

/-! ### The commands -/

/-- A residue passes the test of `MMUL` and `MFROM` (R206, R209). -/
theorem residueOf_ok {c : MontCtx} {a : Int} (ha : 0 ≤ a) (hlt : a < c.n) : residueOf c a = .ok a.toNat :=
  if_neg (by omega)

/-- A residue times the radix, read as integers. -/
theorem ContextOf.natCast_redc_mul_radix {c : MontCtx} (hc : ContextOf c) (t : Nat) :
    ((redc c t : Nat) : Int) * c.r % c.n = (t : Int) % c.n := by
  exact_mod_cast hc.redc_mul_radix t

/-- Settles O52: under a valid context each command's result is a residue (`MontCtx.Sized`), which `MC.N` bounds and so fits, and
`Redc` divides by the radix (`ContextOf.redc_mul_radix`). -/
theorem montgomeryCommandResults : Obligations.MontgomeryCommandResults := by
  intro s rd ra rb hmcv hctx hva ha
  have hc := hctx.held hmcv
  have hs := hc.sized
  have ha' : ((s.eng.reg ra).toNat : Int) = s.eng.reg ra := Int.toNat_of_nonneg ha
  have hfits : ∀ v : Nat, v < s.eng.mc.n → s.params.fits v = true := fun v hv =>
    Params.fits_natCast_of_le hctx.fits (by omega)
  refine ⟨?_, fun hlt => ⟨?_, fun hvb hb hblt => ?_⟩⟩
  · have hvalue : ((toMont s.eng.mc (s.eng.reg ra).toNat : Nat) : Int) = s.eng.reg ra * s.eng.mc.r % s.eng.mc.n := by
      rw [toMont, Nat.shiftLeft_eq, ← hc.radix, Int.natCast_mod, Int.natCast_mul, ha']
    rw [← hvalue]
    exact exec_one_result rfl (by simp [SomethingInvalid, sources, hva, hmcv]) (if_neg (by omega)) (hfits _ (hs.toMont_lt _))
  · have hres := hs.fromMont_lt (a := (s.eng.reg ra).toNat) (by omega)
    obtain ⟨t, ht, hreg, hrest⟩ := exec_one_result (i := .mfrom rd ra) (s := s) rfl
      (by simp [SomethingInvalid, sources, hva, hmcv]) (except_bind_eq_ok.2 ⟨_, residueOf_ok ha hlt, rfl⟩) (hfits _ hres)
    refine ⟨t, ht, by omega, by omega, ?_, hrest⟩
    rw [hreg, fromMont, hc.natCast_redc_mul_radix, ha', Int.emod_eq_of_lt ha hlt]
  · have hb' : ((s.eng.reg rb).toNat : Int) = s.eng.reg rb := Int.toNat_of_nonneg hb
    have hres := hs.montMul_lt (a := (s.eng.reg ra).toNat) (b := (s.eng.reg rb).toNat) (by omega) (by omega)
    obtain ⟨t, ht, hreg, hrest⟩ := exec_one_result (i := .mmul rd ra rb) (s := s) rfl
      (by simp [SomethingInvalid, sources, hva, hvb, hmcv])
      (except_bind_eq_ok.2 ⟨_, residueOf_ok ha hlt, except_bind_eq_ok.2 ⟨_, residueOf_ok hb hblt, rfl⟩⟩) (hfits _ hres)
    refine ⟨t, ht, by omega, by omega, ?_, hrest⟩
    rw [hreg, montMul, hc.natCast_redc_mul_radix, Int.natCast_mul, ha', hb']

end Sys2Proof.Machine
end

section
/-! SUPPORT. The Montgomery exponentiation (R211 to R217): the permutation shuffles the set bits of the exponent, the groups multiply
the powers at those bits in whatever order, and the trace tells the groups; with the statements about `MEXPM` and about the three
strategies (44_montgomery.md section 4, 43_modexp.md section 1), settled. -/

namespace Sys2Proof.Machine

/-! ### The permutation (R213) -/

/-- A list of `h` elements with each of `0, …, h-1` in it is a permutation of them. -/
theorem perm_range_of_isPermOf {l : List Nat} {h : Nat} (hl : isPermOf l h = true) : l.Perm (List.range h) := by
  simp only [isPermOf, Bool.and_eq_true, beq_iff_eq, List.all_eq_true, List.contains_iff_mem] at hl
  obtain ⟨hlen, hmem⟩ := hl
  have hsub := List.subperm_of_subset List.nodup_range hmem
  exact (hsub.perm_of_length_le (by rw [hlen, List.length_range])).symm

/-- The permutation the engine uses is one, supplied or free (R213). -/
theorem Params.perm_perm (p : Params) (seed : BitVec 64) (h : Nat) : (p.perm seed h).Perm (List.range h) := by
  unfold Params.perm
  split
  · rename_i t ht
    have hfound := List.find?_some ht
    exact perm_range_of_isPermOf (Bool.and_eq_true_iff.1 hfound).2
  · have hfree := (Equiv.Perm.map_finRange_perm (Config.perm seed h)).map (fun j : Fin h => j.val)
    rwa [List.map_map, List.map_coe_finRange_eq_range] at hfree

/-- Settles O48: what the table supplies is used only if it is a permutation, and a fitting entry is found. -/
theorem permIsAPermutation : Obligations.PermIsAPermutation := by
  refine ⟨Params.perm_perm, fun w seed l hl => ?_⟩
  have hfits : isPermOf l l.length = true := by
    simp only [isPermOf, beq_self_eq_true, Bool.true_and, List.all_eq_true, List.contains_iff_mem]
    exact fun j hj => hl.mem_iff.2 hj
  simp [Params.perm, hfits]

/-! ### The set bits of the exponent (R211, R213) -/

/-- The set bits, shuffled by a permutation of their places, are the set bits in another order. -/
theorem shuffled_perm {perm : List Nat} {e : Nat} (h : perm.Perm (List.range (setBits e).length)) :
    (shuffled perm e).Perm (setBits e) := by
  have hid : (List.range (setBits e).length).map (fun j => (setBits e).getD j 0) = setBits e := by
    refine List.ext_getElem (by simp) fun k hk hk' => ?_
    rw [List.getElem_map, List.getElem_range, List.getD_eq_getElem _ _ hk']
  exact (h.map _).trans (.of_eq hid)

/-- The set bits below place `k` make up the low `k` bits of a value. -/
theorem sum_two_pow_filter_testBit (e k : Nat) :
    (((List.range k).filter (fun i => e.testBit i)).map (2 ^ ·)).sum = e % 2 ^ k := by
  induction k with
  | zero => simp [Nat.mod_one]
  | succ k ih =>
    rw [List.range_succ, List.filter_append, List.map_append, List.sum_append, ih, Nat.mod_pow_succ, ← Nat.toNat_testBit]
    cases hbit : e.testBit k <;> simp [hbit]

/-- The set bits make up the exponent. -/
theorem sum_two_pow_setBits (e : Nat) : ((setBits e).map (2 ^ ·)).sum = e := by
  rw [setBits, sum_two_pow_filter_testBit, Nat.mod_eq_of_lt (lt_two_pow_bitlen e)]

/-- A set bit is below the bit length. -/
theorem lt_bitlen_of_mem_setBits {e i : Nat} (h : i ∈ setBits e) : i < bitlen e :=
  List.mem_range.1 (List.mem_filter.1 h).1

/-! ### The value of a run (R212, R216) -/

/-- The product of the powers of `b` at the places of a list (R211). -/
def powerProduct {α : Type} [CommMonoid α] (b : α) (l : List Nat) : α := (l.map fun i => b ^ 2 ^ i).prod

/-- The order of the places does not matter. -/
theorem powerProduct_perm {α : Type} [CommMonoid α] (b : α) {l l' : List Nat} (h : l.Perm l') :
    powerProduct b l = powerProduct b l' :=
  (h.map _).prod_eq

/-- The powers at the set bits of `e` multiply to the power of `e`. -/
theorem powerProduct_setBits {α : Type} [CommMonoid α] (b : α) (e : Nat) : powerProduct b (setBits e) = b ^ e := by
  have hsum (l : List Nat) : powerProduct b l = b ^ (l.map (2 ^ ·)).sum := by
    induction l with
    | nil => simp [powerProduct]
    | cons i l ih =>
      rw [List.map_cons, List.sum_cons, pow_add, ← ih]
      rfl
  rw [hsum, sum_two_pow_setBits]

namespace ContextOf
variable {c : MontCtx} (hc : ContextOf c)
include hc

/-- Entry `i` of the table stands for the base squared `i` times (R211). -/
theorem plain_powersFrom_getD {count i : Nat} (p : Nat) (hi : i < count) :
    c.plain ((powersFrom c count p).getD i 0) = c.plain p ^ 2 ^ i := by
  induction count generalizing p i with
  | zero => omega
  | succ count ih =>
    cases i with
    | zero => simp [powersFrom]
    | succ i =>
      rw [powersFrom, List.getD_cons_succ, ih _ (by omega), hc.plain_montMul, ← pow_two, ← pow_mul, ← pow_succ']

/-- Montgomery products of what a list's elements give, accumulated, stand for the product of what these stand for. -/
theorem plain_foldl_montMul {α : Type} (f : α → Nat) (v : α → ZMod c.n) (l : List α) (h : ∀ x ∈ l, c.plain (f x) = v x)
    (acc : Nat) : c.plain (l.foldl (fun acc x => montMul c acc (f x)) acc) = c.plain acc * (l.map v).prod := by
  induction l generalizing acc with
  | nil => simp
  | cons x l ih =>
    obtain ⟨hx, hl⟩ := List.forall_mem_cons.1 h
    rw [List.foldl_cons, ih hl, hc.plain_montMul, hx, List.map_cons, List.prod_cons, mul_assoc]

/-- The product of a group stands for the product of the powers at its places (R212). -/
theorem plain_groupProduct (base e : Nat) {group : List Nat} (h : ∀ i ∈ group, i < bitlen e) :
    c.plain (groupProduct c (powersTable c base e) (toMont c 1) group) = powerProduct (base : ZMod c.n) group := by
  have hentry : ∀ i ∈ group, c.plain ((powersTable c base e).getD i 0) = (base : ZMod c.n) ^ 2 ^ i := fun i hi => by
    rw [powersTable, hc.plain_powersFrom_getD _ (h i hi), hc.plain_toMont]
  rw [groupProduct, hc.plain_foldl_montMul _ _ _ hentry, hc.plain_toMont, Nat.cast_one, one_mul, powerProduct]

/-- A run leaves the power, whatever the permutation and the group size (R212, R216). -/
theorem expMontRun_v {perm : List Nat} (G base : Nat) {e : Nat} (h : perm.Perm (List.range (setBits e).length)) :
    (expMontRun c perm G base e).v = base ^ e % c.n := by
  refine eq_mod_of_natCast_eq (hc.sized.expMontRun_lt perm G base e) ?_
  have hflat := flatten_groupsOf G (le_refl (shuffled perm e).length)
  have hplace : ∀ g ∈ groupsOf G (shuffled perm e).length (shuffled perm e), ∀ i ∈ g, i < bitlen e := fun g hg i hi =>
    lt_bitlen_of_mem_setBits ((shuffled_perm h).mem_iff.1 (hflat ▸ List.mem_flatten.2 ⟨g, hg, hi⟩))
  rw [expMontRun, hc.natCast_fromMont,
    hc.plain_foldl_montMul _ _ _ fun g hg => hc.plain_groupProduct base e (hplace g hg), hc.plain_toMont, Nat.cast_one,
    one_mul]
  calc ((groupsOf G (shuffled perm e).length (shuffled perm e)).map (powerProduct (base : ZMod c.n))).prod
    _ = powerProduct (base : ZMod c.n) (groupsOf G (shuffled perm e).length (shuffled perm e)).flatten := by
      rw [powerProduct, List.map_flatten, List.prod_flatten, List.map_map]
      rfl
    _ = (base : ZMod c.n) ^ e := by rw [hflat, powerProduct_perm _ (shuffled_perm h), powerProduct_setBits]
    _ = ((base ^ e : Nat) : ZMod c.n) := (Nat.cast_pow base e).symm

end ContextOf

/-! ### What `ExpMont` and `MEXPM` leave (R212, R215) -/

/-- `ExpMont` on its domain and an odd modulus: a run under the context of the modulus (R212). -/
theorem expMont_ok_of_odd {base e n : Int} (hb : 0 ≤ base) (he : 0 ≤ e) (hn : 0 < n) (hodd : n % 2 = 1)
    (perm : Nat → List Nat) (G : Nat) :
    ∃ c, ContextOf c ∧ (c.n : Int) = n ∧
      expMont perm G base e n = .ok (expMontRun c (perm (setBits e.toNat).length) G base.toNat e.toNat) := by
  obtain ⟨c, hc, hcn, hctx⟩ := exists_montCtx_eq_ok hn hodd
  exact ⟨c, hctx, hcn, except_bind_eq_ok.2 ⟨(), expChecks_ok hb he hn, except_bind_eq_ok.2 ⟨c, hc, rfl⟩⟩⟩

/-- `ExpMont` on its domain and an odd modulus leaves the power (R212, R216). -/
theorem expMont_value {base e n : Int} (hb : 0 ≤ base) (he : 0 ≤ e) (hn : 0 < n) (hodd : n % 2 = 1)
    {perm : Nat → List Nat} (hperm : ∀ h, (perm h).Perm (List.range h)) (G : Nat) :
    ∃ r, expMont perm G base e n = .ok r ∧ r.v = base.toNat ^ e.toNat % n.toNat := by
  obtain ⟨c, hctx, hcn, hrun⟩ := expMont_ok_of_odd hb he hn hodd perm G
  exact ⟨_, hrun, by rw [hctx.expMontRun_v G _ (hperm _), ← hcn, Int.toNat_natCast]⟩

/-- Settles O46: on its domain the procedure of `MEXPM` leaves a run's power (`ContextOf.expMontRun_v`), which is below the modulus
and so fits, and the run's context; the seed is consumed. -/
theorem mexpmResult : Obligations.MexpmResult := by
  intro s rd rb re rn hvb hve hvn hseed hb he hn hodd hcap
  obtain ⟨c, hctx, hcn, hrun⟩ := expMont_ok_of_odd hb he hn hodd (s.params.perm s.eng.seed) s.eng.grpsz.toNat
  have hfits := Params.fits_natCast_of_le (hcap rn) (expMont_le hrun)
  have hv := hctx.expMontRun_v s.eng.grpsz.toNat (s.eng.reg rb).toNat (s.params.perm_perm s.eng.seed _)
    (e := (s.eng.reg re).toNat)
  have hproc : procedure (.mexpm rd rb re rn) s = _ := except_bind_eq_ok.2 ⟨_, hrun, rfl⟩
  refine ⟨_, exec_of_procedure rfl (by simp [SomethingInvalid, sources, hvb, hve, hvn, hseed]) hproc
    (Effect.fits_of_writes_eq rfl hfits), ?_, State.complete_completed hproc, ?_, ?_, ?_, ?_⟩
  · rw [← natCast_toNat_pow_mod hb hn, ← hcn, Int.toNat_natCast, ← hv]
    simp
  · simp
  · simpa [expMontRun] using hcn
  · simpa [expMontRun] using hctx
  · simp

/-- Settles O50: each strategy's own result (`expBinary_ok`, `expWindow_ok`, `expMont_value`); the test for an even
modulus is the third of `expMont_checked`. -/
theorem strategiesAgree : Obligations.StrategiesAgree := by
  intro base e n perm G hn hperm
  have hb : (0 : Int) ≤ base := Int.natCast_nonneg base
  have he : (0 : Int) ≤ e := Int.natCast_nonneg e
  have hpos : (0 : Int) < n := by exact_mod_cast hn
  refine ⟨by simpa using expBinary_ok hb he hpos, by simpa using expWindow_ok hb he hpos, fun hodd => ?_, fun heven => ?_⟩
  · simpa using expMont_value hb he hpos (by omega) hperm G
  · exact (expMont_checked ..).eq_invalidModulus_iff.2 ⟨by omega, by omega, by omega⟩

/-! ### Independence of seed, group size and permutation (R216) -/

/-- `s` with the parts replaced that shuffle and trace: the change of `ResultsIndependentOfShuffle`. -/
def State.reshuffled (s : State) (sd : BitVec 64) (g : BitVec 8) (tr : List MEvent) (tb : List PermEntry) : State :=
  { s with eng := { s.eng with seed := sd, grpsz := g, mtrace := tr }, params := { s.params with permTable := tb } }

/-- Two answers of a procedure differ in the trace at most. -/
def SameButTrace (x y : Except ErrorKind Effect) : Prop :=
  (∃ k, x = .error k ∧ y = .error k) ∨ ∃ f tr, x = .ok f ∧ y = .ok { f with trace := tr }

/-- Every answer is itself. -/
theorem SameButTrace.refl (x : Except ErrorKind Effect) : SameButTrace x x := by
  cases x with
  | error k => exact .inl ⟨k, rfl, rfl⟩
  | ok f => exact .inr ⟨f, f.trace, rfl, rfl⟩

/-- `ExpMont` raises the same, or leaves the same power under the same context, whatever the permutations and group sizes. -/
theorem expMont_shuffle_cases {perm perm' : Nat → List Nat} (G G' : Nat) (base e n : Int)
    (h : ∀ k, (perm k).Perm (List.range k)) (h' : ∀ k, (perm' k).Perm (List.range k)) :
    (∃ k, expMont perm G base e n = .error k ∧ expMont perm' G' base e n = .error k) ∨
    ∃ r r', expMont perm G base e n = .ok r ∧ expMont perm' G' base e n = .ok r' ∧ r'.v = r.v ∧ r'.ctx = r.ctx := by
  unfold expMont
  cases expChecks base e n with
  | error k => exact .inl ⟨k, rfl, rfl⟩
  | ok _ =>
    cases hc : montCtx n with
    | error k => exact .inl ⟨k, rfl, rfl⟩
    | ok c =>
      have hctx := montCtx_contextOf hc
      exact .inr ⟨_, _, rfl, rfl, by rw [hctx.expMontRun_v _ _ (h _), hctx.expMontRun_v _ _ (h' _)], rfl⟩

/-- A procedure's answer does not depend on seed, group size and permutation but for the trace. -/
theorem procedure_reshuffled (i : Instr) (s : State) (sd : BitVec 64) (g : BitVec 8) (tr : List MEvent)
    (tb : List PermEntry) : SameButTrace (procedure i s) (procedure i (s.reshuffled sd g tr tb)) := by
  by_cases hseed : needsSeed i = true
  · cases i with
    | mexpm rd rb re rn =>
      obtain ⟨k, hx, hy⟩ | ⟨r, r', hx, hy, hv, hctx⟩ := expMont_shuffle_cases s.eng.grpsz.toNat g.toNat (s.eng.reg rb)
        (s.eng.reg re) (s.eng.reg rn) (s.params.perm_perm s.eng.seed) ((s.reshuffled sd g tr tb).params.perm_perm sd)
      · exact .inl ⟨k, congrArg (· >>= _) hx, congrArg (· >>= _) hy⟩
      · refine .inr ⟨_, some r'.trace, congrArg (· >>= _) hx, (congrArg (· >>= _) hy).trans ?_⟩
        rw [← hv, ← hctx]
        rfl
    | _ => cases hseed
  · rw [procedure_congr (s := s) (s' := s.reshuffled sd g tr tb) (fun _ _ => rfl) rfl fun h => absurd h hseed]
    exact .refl _

/-- Seed, group size and trace play no part in the writing of registers. -/
theorem Engine.writeRegs_reshuffled (e : Engine) (sd : BitVec 64) (g : BitVec 8) (tr : List MEvent)
    (ws : List (BReg × Int)) : ({ e with seed := sd, grpsz := g, mtrace := tr } : Engine).writeRegs ws =
      { e.writeRegs ws with seed := sd, grpsz := g, mtrace := tr } := by
  induction ws generalizing e with
  | nil => rfl
  | cons w ws ih => exact ih (e.writeReg w.1 w.2)

/-- Effects that differ in the trace at most complete alike but for the trace. -/
theorem State.complete_reshuffled (s : State) (sd : BitVec 64) (g : BitVec 8) (tr : List MEvent) (tb : List PermEntry)
    (f : Effect) (tr' : Option (List MEvent)) :
    (s.reshuffled sd g tr tb).complete { f with trace := tr' } =
      (s.complete f).reshuffled sd g (tr'.getD tr) tb := by
  simp only [State.complete, State.reshuffled, Engine.apply, Engine.finish, Engine.writeRegs_reshuffled]

/-- Settles O49: a procedure's answer is the same but for the trace (`procedure_reshuffled`), and so is what the command leaves
(`State.complete_reshuffled`). -/
theorem resultsIndependentOfShuffle : Obligations.ResultsIndependentOfShuffle := by
  intro i s t t' sd g tr tb h h'
  show t' = t.reshuffled sd g t'.eng.mtrace tb
  change exec i (s.reshuffled sd g tr tb) = .next t' at h'
  have herror : ∀ k, (s.reshuffled sd g tr tb).raiseError k = (s.raiseError k).reshuffled sd g tr tb := fun _ => rfl
  rw [exec_eq] at h h'
  obtain rfl := Host.Outcome.next.inj h
  obtain rfl := Host.Outcome.next.inj h'
  split
  · have hv : operandsValid i (s.reshuffled sd g tr tb).eng = operandsValid i s.eng := rfl
    have hp := procedure_reshuffled i s sd g tr tb
    cases hvalid : operandsValid i s.eng
    · rw [State.execute_invalid hvalid, State.execute_invalid (hv.trans hvalid), herror]
      rfl
    · obtain ⟨k, hx, hy⟩ | ⟨f, tr', hx, hy⟩ := hp
      · rw [State.execute_error hvalid hx, State.execute_error (hv.trans hvalid) hy, herror]
        rfl
      · cases hfit : f.fits s.params
        · rw [State.execute_overflow hvalid hx hfit, State.execute_overflow (hv.trans hvalid) hy hfit, herror]
          rfl
        · rw [State.execute_ok hvalid hx hfit, State.execute_ok (hv.trans hvalid) hy hfit, State.complete_reshuffled]
          rfl
  · rfl

/-! ### The shape of the trace (R217) -/

/-- The next group is the next `G` elements (R213). -/
theorem groupsOf_eq {G : Nat} (hG : 0 < G) (fuel : Nat) {l : List Nat} (hl : l ≠ []) :
    groupsOf G (fuel + 1) l = l.take G :: groupsOf G fuel (l.drop G) := by
  obtain ⟨x, xs, rfl⟩ := List.exists_cons_of_ne_nil hl
  obtain ⟨G, rfl⟩ := Nat.exists_eq_succ_of_ne_zero hG.ne'
  rfl

/-- The trace of the list `l` cut into groups of `G`. -/
def traceOf (G fuel : Nat) (l : List Nat) : List MEvent := (groupsOf G fuel l).flatMap groupTrace

/-- No list, no event. -/
@[simp] theorem traceOf_nil (G fuel : Nat) : traceOf G fuel [] = [] := by
  cases fuel <;> rfl

/-- A trace is the next group's products, a fold, and the trace of the rest (R212). -/
theorem traceOf_eq {G : Nat} (hG : 0 < G) (fuel : Nat) {l : List Nat} (hl : l ≠ []) :
    traceOf G (fuel + 1) l = (l.take G).map MEvent.mul ++ .fold :: traceOf G fuel (l.drop G) := by
  rw [traceOf, groupsOf_eq hG fuel hl, List.flatMap_cons, groupTrace, List.append_assoc, List.singleton_append]
  rfl

/-- A group of products counts no fold. -/
theorem count_fold_map_mul (l : List Nat) : (l.map MEvent.mul).count .fold = 0 := by
  refine List.count_eq_zero.2 fun h => ?_
  obtain ⟨i, -, hi⟩ := List.mem_map.1 h
  cases hi

/-- There are `⌈h/G⌉` folds (R217). -/
theorem count_fold_traceOf {G : Nat} (hG : 0 < G) {fuel : Nat} {l : List Nat} (h : l.length ≤ fuel) :
    (traceOf G fuel l).count .fold = (l.length + G - 1) / G := by
  induction fuel generalizing l with
  | zero =>
    obtain rfl := List.length_eq_zero_iff.1 (Nat.le_zero.1 h)
    simp [Nat.div_eq_of_lt, hG]
  | succ fuel ih =>
    obtain rfl | hl := eq_or_ne l []
    · simp [Nat.div_eq_of_lt, hG]
    · have hpos := List.length_pos_iff.2 hl
      rw [traceOf_eq hG fuel hl, List.count_append, count_fold_map_mul, List.count_cons_self, ih (by simp; omega),
        List.length_drop, Nat.zero_add, ← Nat.add_div_right _ hG]
      obtain hle | hlt := Nat.le_total G l.length
      · congr 1
        omega
      · rw [Nat.sub_eq_zero_of_le hlt, Nat.zero_add]
        rw [Nat.div_eq_of_lt_le (k := 1) (by omega) (by omega), Nat.div_eq_of_lt_le (k := 1) (by omega) (by omega)]

/-- In a group's events and what follows them, the folds are the group's own, right after its products, and those of the rest. -/
theorem getElem?_group_eq_fold_iff (m : List Nat) (rest : List MEvent) (j : Nat) :
    (m.map MEvent.mul ++ .fold :: rest)[j]? = some .fold ↔
      j = m.length ∨ ∃ i, j = m.length + 1 + i ∧ rest[i]? = some .fold := by
  induction m generalizing j with
  | nil => cases j with
    | zero => simp
    | succ j => simp [Nat.add_comm 1, eq_comm]
  | cons x m ih => cases j with
    | zero => simp; omega
    | succ j =>
      rw [List.map_cons, List.cons_append, List.getElem?_cons_succ, ih, List.length_cons]
      simp only [Nat.add_right_cancel_iff, Nat.add_right_comm _ 1]

/-- A fold stands after every `G`-th product and after the last (R217). -/
theorem getElem?_traceOf_eq_fold_iff {G : Nat} (hG : 0 < G) {fuel : Nat} {l : List Nat} (h : l.length ≤ fuel) {j : Nat}
    (hj : j < (traceOf G fuel l).length) :
    (traceOf G fuel l)[j]? = some .fold ↔ j % (G + 1) = G ∨ j + 1 = (traceOf G fuel l).length := by
  induction fuel generalizing l j with
  | zero =>
    obtain rfl := List.length_eq_zero_iff.1 (Nat.le_zero.1 h)
    simp at hj
  | succ fuel ih =>
    obtain rfl | hl := eq_or_ne l []
    · simp at hj
    · have hlen : (traceOf G (fuel + 1) l).length = min G l.length + 1 + (traceOf G fuel (l.drop G)).length := by
        rw [traceOf_eq hG fuel hl, List.length_append, List.length_map, List.length_take, List.length_cons]
        omega
      rw [hlen] at hj ⊢
      rw [traceOf_eq hG fuel hl, getElem?_group_eq_fold_iff, List.length_take]
      obtain hshort | hle := Nat.lt_or_ge l.length G
      · rw [List.drop_eq_nil_of_le hshort.le, traceOf_nil, Nat.min_eq_right hshort.le, List.length_nil] at hj ⊢
        rw [Nat.mod_eq_of_lt (by omega)]
        simp
        omega
      · rw [Nat.min_eq_left hle] at hj ⊢
        obtain hfirst | hlater := Nat.lt_or_ge j (G + 1)
        · rw [Nat.mod_eq_of_lt hfirst]
          constructor
          · rintro (hj | ⟨i, hi, -⟩) <;> omega
          · exact fun _ => .inl (by omega)
        · obtain ⟨i, rfl⟩ := Nat.exists_eq_add_of_le hlater
          have hih := ih (l := l.drop G) (by rw [List.length_drop]; omega) (j := i) (by omega)
          rw [Nat.add_mod_left, Nat.add_assoc (G + 1) i 1, Nat.add_left_cancel_iff, ← hih]
          constructor
          · rintro (hG | ⟨i', hi', hfold⟩)
            · omega
            · obtain rfl : i = i' := by omega
              exact hfold
          · exact fun hfold => .inr ⟨i, rfl, hfold⟩

/-- A successful `MEXPM` leaves the trace of the shuffled set bits, cut into groups of `GRPSZ` (R212, R217). -/
theorem procedure_mexpm_trace {rd rb re rn : BReg} {s : State} {f : Effect} (h : procedure (.mexpm rd rb re rn) s = .ok f) :
    ∃ l, l = shuffled (s.params.perm s.eng.seed (setBits (s.eng.reg re).toNat).length) (s.eng.reg re).toNat ∧
      f.trace = some (traceOf s.eng.grpsz.toNat l.length l) := by
  obtain ⟨r, hr, hf⟩ := except_bind_eq_ok.1 h
  obtain ⟨c, -, rfl⟩ := expMont_ok hr
  obtain rfl := Except.ok.inj hf
  exact ⟨_, rfl, rfl⟩

/-- Settles O47: the trace is that of the shuffled set bits (`procedure_mexpm_trace`), whose products stand in the list's order, and
whose folds `count_fold_traceOf` counts and `getElem?_traceOf_eq_fold_iff` places. -/
theorem traceOfMexpm : Obligations.TraceOfMexpm := by
  intro s t rd rb re rn hG h herr
  have hpos : 0 < s.eng.grpsz.toNat := Nat.pos_of_ne_zero fun h0 => hG (BitVec.eq_of_toNat_eq h0)
  obtain ⟨k, rfl⟩ | ⟨-, -, f, hf, -, rfl⟩ := exec_cases h
  · simp at herr
  · obtain ⟨l, hl, htrace⟩ := procedure_mexpm_trace hf
    have hperm : l.Perm (setBits (s.eng.reg re).toNat) := hl ▸ shuffled_perm (s.params.perm_perm ..)
    have hmul : mulIndices (traceOf s.eng.grpsz.toNat l.length l) = l := by
      rw [traceOf, mulIndices_flatMap_groupTrace, flatten_groupsOf _ le_rfl]
    rw [State.complete_eng, Engine.finish_mtrace, Engine.apply_mtrace, htrace, Option.getD_some, hmul]
    refine ⟨hperm, hl, ?_, fun j hj => getElem?_traceOf_eq_fold_iff hpos le_rfl hj⟩
    rw [count_fold_traceOf hpos le_rfl, hperm.length_eq]

end Sys2Proof.Machine
end

section
/-! SUPPORT. The recombination of two residues (45_crt.md), the message encoding (20_memory.md section 4), and RSA (47_host_protocol.md
sections 4 and 5); with the statements about them, settled. -/

namespace Sys2Proof.Machine

/-! ### Recombination (R231, R233) -/

/-- `CrtRec` on its domain: the guard `+ p` changes nothing modulo `p` (R231). -/
theorem crtRec_ok {m1 m2 p q qinv : Int} (h1 : 0 ≤ m1) (h2 : 0 ≤ m2) (hp : 0 < p) (hq : 0 ≤ q) (hqinv : 0 ≤ qinv) :
    ∃ m : Nat, crtRec m1 m2 p q qinv = .ok m ∧ (m : Int) = m2 + qinv * (m1 - m2) % p * q := by
  have hpos : 0 < p.toNat := by omega
  have hp' : (p.toNat : Int) = p := Int.toNat_of_nonneg hp.le
  refine ⟨_, by rw [crtRec, if_neg hp.ne', if_neg (by omega)], ?_⟩
  have hh : ((qinv.toNat * normMod (m1 - m2 + p) p.toNat % p.toNat : Nat) : Int) = qinv * (m1 - m2) % p := by
    rw [Int.natCast_mod, Int.natCast_mul, normMod_eq _ hpos, Int.toNat_of_nonneg hqinv, hp', Int.add_emod_right]
    exact (Int.mod_modEq _ _).mul_left _
  rw [Int.natCast_add, Int.natCast_mul, hh, Int.toNat_of_nonneg h2, Int.toNat_of_nonneg hq]

/-- Settles O54: on its domain `CrtRec` gives the recombined value (`crtRec_ok`), which is not negative and within the capacity by
hypothesis. -/
theorem crtrecResult : Obligations.CrtrecResult := by
  intro s rd rm1 rm2 rp rq ri hvalid hpos hp hfit
  simp only [List.forall_mem_cons] at hvalid hpos
  obtain ⟨hv1, hv2, hvp, hvq, hvi, -⟩ := hvalid
  obtain ⟨h1, h2, -, hq, hi, -⟩ := hpos
  obtain ⟨m, hm, hvalue⟩ := crtRec_ok h1 h2 hp hq hi
  rw [← hvalue] at hfit ⊢
  refine exec_one_result rfl (by simp [SomethingInvalid, sources, hv1, hv2, hvp, hvq, hvi])
    (except_bind_eq_ok.2 ⟨m, hm, rfl⟩) (Params.fits_iff.2 fun w hw => ?_)
  rw [abs_of_nonneg (Int.natCast_nonneg m)]
  exact hfit w hw

/-- Settles O55: the recombined value is below `p·q`, and it is `M` modulo `q` by its form and modulo `p` since `qinv·q ≡ 1`. -/
theorem crtRecombinesResidues : Obligations.CrtRecombinesResidues := by
  intro M p q qinv hp hq hinv
  obtain ⟨m, hm, hvalue⟩ := crtRec_ok (Int.natCast_nonneg (M % p)) (Int.natCast_nonneg (M % q)) (Int.natCast_pos.2 hp)
    (Int.natCast_nonneg q) (Int.natCast_nonneg qinv)
  have hcop : Nat.Coprime p q := (Nat.coprime_of_mul_modEq_one qinv ((Nat.mul_comm q qinv).symm ▸ hinv)).symm
  have hmodq : (m : Int) ≡ M [ZMOD q] := by
    rw [hvalue]
    exact Int.add_mul_modulus_modEq_iff.2 (Int.mod_modEq M q)
  have hmodp : (m : Int) ≡ M [ZMOD p] := by
    have hinv' : (qinv : Int) * q ≡ 1 [ZMOD p] := by exact_mod_cast hinv
    calc (m : Int)
      _ = (M % q : Nat) + qinv * ((M % p : Nat) - (M % q : Nat) : Int) % p * q := hvalue
      _ ≡ (M % q : Nat) + qinv * ((M % p : Nat) - (M % q : Nat) : Int) * q [ZMOD p] :=
        ((Int.mod_modEq _ _).mul_right _).add_left _
      _ = (M % q : Nat) + qinv * q * ((M % p : Nat) - (M % q : Nat) : Int) := by ring
      _ ≡ (M % q : Nat) + 1 * ((M % p : Nat) - (M % q : Nat) : Int) [ZMOD p] := (hinv'.mul_right _).add_left _
      _ = (M % p : Nat) := by ring
      _ ≡ M [ZMOD p] := Int.mod_modEq M p
  have hlt : m < p * q := by
    have hh := Int.emod_lt_of_pos (qinv * ((M % p : Nat) - (M % q : Nat) : Int)) (Int.natCast_pos.2 hp)
    have hr : ((M % q : Nat) : Int) < q := by exact_mod_cast Nat.mod_lt M hq
    have hbound : (m : Int) < p * q := by
      rw [hvalue]
      nlinarith
    exact_mod_cast hbound
  have hmod : m ≡ M [MOD p * q] :=
    (Nat.modEq_and_modEq_iff_modEq_mul hcop).1 ⟨Int.natCast_modEq_iff.1 hmodp, Int.natCast_modEq_iff.1 hmodq⟩
  rw [hm, ← Nat.mod_eq_of_lt hlt, hmod]

/-! ### The message encoding (R70, R71) -/

/-- A string's integer is below `256` to its length. -/
theorem os2i_lt (l : List Byte) : os2i l < 256 ^ l.length := by
  induction l with
  | nil => decide
  | cons x l ih =>
    have hx : x.toNat ≤ 255 := Nat.le_of_lt_succ x.isLt
    rw [os2i, List.length_cons, pow_succ]
    nlinarith

/-- Strings of one length with the same integer are the same. -/
theorem os2i_injective {l l' : List Byte} (hlen : l.length = l'.length) (h : os2i l = os2i l') : l = l' := by
  induction l generalizing l' with
  | nil => exact (List.length_eq_zero_iff.1 hlen.symm).symm
  | cons x l ih =>
    obtain ⟨y, l', rfl⟩ := List.exists_cons_of_length_eq_add_one hlen.symm
    rw [List.length_cons, List.length_cons, Nat.add_right_cancel_iff] at hlen
    rw [os2i, os2i, hlen] at h
    have hl := os2i_lt l
    have hl' := os2i_lt l'
    rw [hlen] at hl
    have hquot (z : Nat) {r : Nat} (hr : r < 256 ^ l'.length) :
        (z * 256 ^ l'.length + r) / 256 ^ l'.length = z := by
      rw [Nat.add_comm, Nat.add_mul_div_right _ _ (by positivity), Nat.div_eq_of_lt hr, Nat.zero_add]
    have hx : x.toNat = y.toNat := by rw [← hquot x.toNat hl, h, hquot y.toNat hl']
    rw [BitVec.eq_of_toNat_eq hx, ih hlen (by rw [hx] at h; omega)]

/-- The `n` low bytes of `v`, the most significant first. -/
def lowBytes (v n : Nat) : List Byte :=
  (List.range n).map fun j => BitVec.ofNat 8 ((v >>> (8 * (n - 1 - j))) &&& 0xFF)

/-- `I2OS` takes as many bytes as the value needs (R71). -/
theorem i2os_eq_lowBytes (v : Nat) : i2os v = lowBytes v (i2osLength v) := rfl

@[simp] theorem length_lowBytes (v n : Nat) : (lowBytes v n).length = n := by simp [lowBytes]

/-- The first of the low bytes is the highest of them. -/
theorem lowBytes_succ (v n : Nat) : lowBytes v (n + 1) = BitVec.ofNat 8 (v >>> (8 * n)) :: lowBytes v n := by
  have hbyte (x : Nat) : BitVec.ofNat 8 (x &&& 0xFF) = BitVec.ofNat 8 x := by
    apply BitVec.eq_of_toNat_eq
    rw [BitVec.toNat_ofNat, BitVec.toNat_ofNat, show 0xFF = 2 ^ 8 - 1 from rfl, Nat.and_two_pow_sub_one_eq_mod, Nat.mod_mod]
  simp only [lowBytes, hbyte, List.range_succ_eq_map, List.map_cons, List.map_map, Nat.add_sub_cancel, Nat.sub_zero]
  congr 2
  funext j
  rw [Function.comp_apply, Nat.succ_eq_add_one, Nat.add_comm j 1, Nat.sub_sub]

/-- The low bytes of a value make up its remainder. -/
theorem os2i_lowBytes (v n : Nat) : os2i (lowBytes v n) = v % 256 ^ n := by
  induction n with
  | zero => simp [lowBytes, os2i, Nat.mod_one]
  | succ n ih =>
    have hpow : 2 ^ (8 * n) = 256 ^ n := by rw [pow_mul]; rfl
    rw [lowBytes_succ, os2i, ih, length_lowBytes, Nat.mod_pow_succ, BitVec.toNat_ofNat, Nat.shiftRight_eq_div_pow, hpow]
    ring

/-- A value has at most `k` bits exactly when it is below `2^k` (R11). -/
theorem bitlen_le_iff {v k : Nat} : bitlen v ≤ k ↔ v < 2 ^ k := by
  constructor
  · exact fun h => (lt_two_pow_bitlen v).trans_le (Nat.pow_le_pow_right (by decide) h)
  · intro h
    obtain rfl | hv := eq_or_ne v 0
    · exact Nat.zero_le k
    · have hlt := (Nat.pow_lt_pow_iff_right (a := 2) (by decide)).1 ((two_pow_bitlen_le hv).trans_lt h)
      omega

/-- The encoding has at most `n` bytes exactly when the value is below `256^n` (R71). -/
theorem i2osLength_le_iff {v n : Nat} : i2osLength v ≤ n ↔ v < 256 ^ n := by
  have hpow : 256 ^ n = 2 ^ (8 * n) := by rw [pow_mul]; rfl
  rw [hpow, ← bitlen_le_iff, i2osLength]
  omega

/-- An integer survives the encoding (R71). -/
theorem os2i_i2os (v : Nat) : os2i (i2os v) = v := by
  rw [i2os_eq_lowBytes, os2i_lowBytes, Nat.mod_eq_of_lt (i2osLength_le_iff.1 le_rfl)]

/-- The encoding is the shortest string for its integer (R71). -/
theorem length_i2os_le {v : Nat} {l : List Byte} (h : os2i l = v) : (i2os v).length ≤ l.length := by
  rw [i2os_eq_lowBytes, length_lowBytes, i2osLength_le_iff, ← h]
  exact os2i_lt l

/-- A string that begins with a byte other than 0 needs all its bytes. -/
theorem length_le_length_i2os {x : Byte} {l : List Byte} (hx : x ≠ 0) : (x :: l).length ≤ (i2os (os2i (x :: l))).length := by
  by_contra hshort
  have hpos : 0 < x.toNat := Nat.pos_of_ne_zero fun h => hx (BitVec.eq_of_toNat_eq h)
  have hlow : 256 ^ l.length ≤ os2i (x :: l) := by
    rw [os2i]
    exact (Nat.le_mul_of_pos_left _ hpos).trans (Nat.le_add_right ..)
  rw [List.length_cons, i2os_eq_lowBytes, length_lowBytes] at hshort
  exact absurd (i2osLength_le_iff.1 (Nat.le_of_lt_succ (Nat.lt_of_not_le hshort))) hlow.not_gt

/-- A string survives exactly when it is empty or its first byte is not 0 (R71). -/
theorem i2os_os2i_iff (l : List Byte) : i2os (os2i l) = l ↔ l = [] ∨ l.head? ≠ some 0 := by
  cases l with
  | nil => exact iff_of_true rfl (.inl rfl)
  | cons x l =>
    obtain rfl | hx := eq_or_ne x 0
    · refine iff_of_false (fun h => ?_) (by simp)
      have hzero : os2i (0 :: l) = os2i l := by simp [os2i]
      have hle := length_i2os_le hzero.symm
      rw [h, List.length_cons] at hle
      omega
    · refine iff_of_true (os2i_injective ?_ (os2i_i2os _)) (.inr (by simpa using hx))
      exact le_antisymm (length_i2os_le rfl) (length_le_length_i2os hx)

/-- Settles O56, part by part. -/
theorem messageEncodingRoundTrip : Obligations.MessageEncodingRoundTrip :=
  ⟨os2i_i2os, fun _ _ => length_i2os_le, i2os_os2i_iff, rfl, fun _ hv => if_pos hv⟩

/-! ### RSA (R261, R268 to R270, R273) -/

/-- Modulo a prime, powers depend on their exponents modulo `P - 1`, except for the exponent 0 of a multiple of `P`. -/
theorem pow_eq_pow_of_modEq_sub_one {P a b : Nat} [hP : Fact P.Prime] (x : ZMod P) (h : a ≡ b [MOD P - 1]) (ha : a ≠ 0)
    (hb : b ≠ 0) : x ^ a = x ^ b := by
  obtain rfl | hx := eq_or_ne x 0
  · rw [zero_pow ha, zero_pow hb]
  · exact pow_eq_pow_of_modEq h (ZMod.pow_card_sub_one_eq_one hx)

/-- The same for naturals. -/
theorem pow_modEq_pow_of_modEq_sub_one {P a b : Nat} (hP : P.Prime) (x : Nat) (h : a ≡ b [MOD P - 1]) (ha : a ≠ 0)
    (hb : b ≠ 0) : x ^ a ≡ x ^ b [MOD P] := by
  have : Fact P.Prime := ⟨hP⟩
  rw [← ZMod.natCast_eq_natCast_iff, Nat.cast_pow, Nat.cast_pow]
  exact pow_eq_pow_of_modEq_sub_one _ h ha hb

/-- What the proofs need of a key: its modulus is the product of two different odd primes, modulo each of which less one `e·d` is
1 (R261). -/
structure RsaKey.OddPrimes (k : RsaKey) (P Q : Nat) : Prop where
  primeP : P.Prime
  primeQ : Q.Prime
  oddP : P % 2 = 1
  oddQ : Q % 2 = 1
  coprime : Nat.Coprime P Q
  modulus : k.n = ((P * Q : Nat) : Int)
  inverseP : k.e * k.d ≡ 1 [ZMOD ((P - 1 : Nat) : Int)]
  inverseQ : k.e * k.d ≡ 1 [ZMOD ((Q - 1 : Nat) : Int)]

/-- A key that satisfies its invariants with primes and an odd modulus has all that. -/
theorem RsaKey.Invariant.oddPrimes {k : RsaKey} {P Q : Nat} (h : k.Invariant) (hP : P.Prime) (hQ : Q.Prime) (hp : k.p = P)
    (hq : k.q = Q) (hodd : k.n % 2 = 1) : k.OddPrimes P Q := by
  have hn : k.n = ((P * Q : Nat) : Int) := by rw [h.modulus, hp, hq, Nat.cast_mul]
  have hodd' : P * Q % 2 = 1 := by omega
  have hphi : k.phi = ((P - 1 : Nat) : Int) * ((Q - 1 : Nat) : Int) := by
    rw [h.totient, hp, hq, Nat.cast_sub hP.one_le, Nat.cast_sub hQ.one_le, Nat.cast_one]
  have hinv : k.e * k.d ≡ 1 [ZMOD k.phi] := h.inverse
  obtain ⟨hoddP, hoddQ⟩ := Nat.odd_mul.1 (Nat.odd_iff.2 hodd')
  have hne : P ≠ Q := fun heq => h.distinct (by rw [hp, hq, heq])
  exact ⟨hP, hQ, Nat.odd_iff.1 hoddP, Nat.odd_iff.1 hoddQ, (Nat.coprime_primes hP hQ).2 hne, hn,
    hinv.of_dvd (hphi ▸ Dvd.intro _ rfl), hinv.of_dvd (hphi ▸ Dvd.intro_left _ rfl)⟩

/-- Exponents whose product is 1 modulo `P - 1` for an odd prime `P` have a product other than 0, and undo each other modulo `P`
(Fermat). -/
theorem pow_mul_modEq_self {P E D : Nat} (hP : P.Prime) (hodd : P % 2 = 1) (h : E * D ≡ 1 [MOD P - 1]) (x : Nat) :
    x ^ (E * D) ≡ x [MOD P] := by
  have htwo := hP.two_le
  have hne : E * D ≠ 0 := by
    intro hzero
    rw [hzero, Nat.ModEq, Nat.zero_mod, Nat.mod_eq_of_lt (by omega)] at h
    omega
  simpa using pow_modEq_pow_of_modEq_sub_one hP x h hne one_ne_zero

/-- Settles O59: both procedures leave powers (`expBinary_ok`, `expMont_value`), and `m^(e·d)` is `m` modulo each prime
(`pow_mul_modEq_self`), so modulo their product. -/
theorem rsaRoundTrip : Obligations.RsaRoundTrip := by
  intro k P Q perm G m hinv hP hQ hp hq he hd hodd hperm hm hlt
  obtain ⟨-, -, hoddP, hoddQ, hcop, hn, hinvP, hinvQ⟩ := hinv.oddPrimes hP hQ hp hq hodd
  have hpos : 0 < k.n := by omega
  obtain ⟨r, hr, hv⟩ := expMont_value (base := (m.toNat ^ k.e.toNat % k.n.toNat : Nat)) (Int.natCast_nonneg _) hd hpos hodd
    hperm G
  refine ⟨_, r, expBinary_ok hm he hpos, hr, ?_⟩
  have hexp : ((k.e.toNat * k.d.toNat : Nat) : Int) = k.e * k.d := by
    rw [Nat.cast_mul, Int.toNat_of_nonneg he, Int.toNat_of_nonneg hd]
  rw [← hexp] at hinvP hinvQ
  have hmod : m.toNat ^ (k.e.toNat * k.d.toNat) ≡ m.toNat [MOD P * Q] :=
    (Nat.modEq_and_modEq_iff_modEq_mul hcop).1 ⟨pow_mul_modEq_self hP hoddP (Int.natCast_modEq_iff.1 hinvP) _,
      pow_mul_modEq_self hQ hoddQ (Int.natCast_modEq_iff.1 hinvQ) _⟩
  have hvalue : r.v = m.toNat := by
    rw [hv, Int.toNat_natCast, ← Nat.pow_mod, ← pow_mul, hn, Int.toNat_natCast, hmod, Nat.mod_eq_of_lt (by omega)]
  omega

/-- The exponent of a half exponentiation, `d` reduced modulo `P - 1`, gives the power of `d` modulo the odd prime `P` (R270). -/
theorem expMont_half {e d c : Int} {P : Nat} (hP : P.Prime) (hodd : P % 2 = 1) (hd : 0 ≤ d) (hc : 0 ≤ c)
    (hinv : e * d ≡ 1 [ZMOD ((P - 1 : Nat) : Int)]) {perm : Nat → List Nat} (hperm : ∀ h, (perm h).Perm (List.range h))
    (G : Nat) : ∃ r, expMont perm G c (d % ((P : Int) - 1)) P = .ok r ∧ r.v = c.toNat ^ d.toNat % P := by
  have htwo := hP.two_le
  have hsub : ((P : Int) - 1) = ((P - 1 : Nat) : Int) := by rw [Nat.cast_sub hP.one_le, Nat.cast_one]
  have hhalf : (d % ((P : Int) - 1)).toNat = d.toNat % (P - 1) := by
    rw [hsub, Int.toNat_emod hd (Int.natCast_nonneg _), Int.toNat_natCast]
  have hnotdvd : ¬ ((P - 1 : Nat) : Int) ∣ d := by
    intro hdvd
    have hone := hinv.symm.trans (Int.modEq_zero_iff_dvd.2 (hdvd.mul_left e))
    have := Int.le_of_dvd Int.one_pos (Int.modEq_zero_iff_dvd.1 hone)
    omega
  have hne : d.toNat % (P - 1) ≠ 0 := fun hzero => hnotdvd <| by
    rw [← Int.toNat_of_nonneg hd]
    exact Int.natCast_dvd_natCast.2 (Nat.dvd_of_mod_eq_zero hzero)
  have hne' : d.toNat ≠ 0 := fun hzero => hne (by rw [hzero, Nat.zero_mod])
  obtain ⟨r, hr, hv⟩ := expMont_value (e := d % ((P : Int) - 1)) hc (Int.emod_nonneg d (by omega)) (Int.natCast_pos.2 hP.pos)
    (by exact_mod_cast hodd) hperm G
  refine ⟨r, hr, ?_⟩
  rw [hv, hhalf, Int.toNat_natCast]
  exact pow_modEq_pow_of_modEq_sub_one hP _ (Nat.mod_modEq _ _) hne hne'

/-- Settles O60: the halves are the residues of the power (`expMont_half`), whose recombination is the power modulo `P·Q`
(`crtRecombinesResidues`), as is plain decryption (`expMont_value`). -/
theorem crtEqualsPlainDecryption : Obligations.CrtEqualsPlainDecryption := by
  intro k P Q dp dq qinv perm G c hinv hP hQ hp hq hcrt hd hodd hperm hc
  obtain ⟨-, -, hoddP, hoddQ, -, hn, hinvP, hinvQ⟩ := hinv.oddPrimes hP hQ hp hq hodd
  obtain ⟨rfl, rfl, hqinv, hqpos, -⟩ := hinv.crtFields _ _ _ hcrt
  obtain ⟨m1, hm1, hv1⟩ := expMont_half hP hoddP hd hc hinvP hperm G
  obtain ⟨m2, hm2, hv2⟩ := expMont_half hQ hoddQ hd hc hinvQ hperm G
  obtain ⟨r, hr, hv⟩ := expMont_value hc hd (show 0 < k.n by have := Nat.mul_pos hP.pos hQ.pos; omega) hodd hperm G
  rw [hp, hq] at *
  refine ⟨m1, m2, r, hm1, hm2, hr, ?_⟩
  rw [hv1, hv2, hv, hn, Int.toNat_natCast, ← Int.toNat_of_nonneg hqpos]
  refine crtRecombinesResidues _ P Q qinv.toNat hP.pos hQ.pos ?_
  rw [← Int.toNat_of_nonneg hqpos] at hqinv
  exact_mod_cast hqinv

end Sys2Proof.Machine
end

section
/-! SUPPORT. The invariant of the machine: it holds of an engine at reset, and every command, port write and host operation keeps it
(10_state.md, 60_exceptions.md section 1); with the statements about it, settled. -/

namespace Sys2Proof.Machine

/-! ### `STATUS` (R26, R27, R300) -/

/-- A procedure raises only errors whose codes the engine reports (R300). -/
theorem code_mem_engineCodes {i : Instr} {s : State} {k : ErrorKind} (h : procedure i s = .error k) :
    k.code ∈ engineCodes := by
  have hchecked := procedure_checked i s
  rw [h] at hchecked
  cases hchecked <;> decide

/-- A command reports only codes of the engine (R300). -/
theorem errcode_mem_engineCodes {i : Instr} {s t : State} (h : exec i s = .next t) : t.eng.errcode ∈ engineCodes := by
  rw [exec_eq] at h
  obtain rfl := Host.Outcome.next.inj h
  split
  · obtain ⟨-, he⟩ | ⟨-, k, hp, he⟩ | ⟨-, f, -, -, he⟩ | ⟨-, f, -, -, he⟩ := s.execute_cases i (procedure i) <;> rw [he]
    · exact (by decide : ErrorKind.operandInvalid.code ∈ engineCodes)
    · exact code_mem_engineCodes hp
    · exact (by decide : ErrorKind.overflow.code ∈ engineCodes)
    · exact (by decide : (0 : BitVec 4) ∈ engineCodes)
  · exact (by decide : ErrorKind.illegalCommand.code ∈ engineCodes)

/-- An error of the engine leaves a consistent `STATUS`. -/
theorem StatusOk.finish_error (e : Engine) {k : ErrorKind} (hk : k.code ∈ engineCodes) :
    StatusOk (e.finish (some k) false) where
  errIff := iff_of_true rfl k.code_ne_zero
  codes := hk
  flagMeans := nofun
  errMeans _ := rfl

/-- A success leaves a consistent `STATUS`. -/
theorem StatusOk.finish_success (e : Engine) (answer : Bool) : StatusOk (e.finish none answer) where
  errIff := iff_of_false nofun (not_not_intro rfl)
  codes := by
    show (0 : BitVec 4) ∈ engineCodes
    decide
  flagMeans _ := ⟨rfl, rfl⟩
  errMeans _ := rfl

/-! ### What leaves the engine consistent -/

/-- An engine at reset is consistent (R38). -/
theorem Inv.of_reset {s : State} (heng : s.eng = Engine.reset) (hW : WPositive s.params)
    (hvars : varsSorted s.host.vars = true) : Inv s where
  wPositive := hW
  capacity i := by rw [heng, Engine.reset_reg, Params.fits_zero]
  invalidZero i _ := by rw [heng, Engine.reset_reg]
  context :=
    { held := by rw [heng]; nofun
      fits := by rw [heng]; exact s.params.fits_zero
      empty := by rw [heng]; exact fun _ => rfl }
  status :=
    { errIff := by rw [heng]; decide
      codes := by rw [heng]; decide
      flagMeans := by rw [heng]; nofun
      errMeans := by rw [heng]; nofun }
  grpsz := by rw [heng]; decide
  vars := hvars

/-- Settles O16: the engine of the reset state is at reset, `W` is infinite and there is no variable. -/
theorem resetHasInvariant : Obligations.ResetHasInvariant := Inv.of_reset rfl (by simp [WPositive, State.reset]) rfl

/-- The condition on the context is one on `MC`, `MCV` and the parameters. -/
theorem ContextOk.of_eq {s t : State} (h : ContextOk s) (hmc : t.eng.mc = s.eng.mc) (hmcv : t.eng.mcv = s.eng.mcv)
    (hparams : t.params = s.params) : ContextOk t where
  held := by rw [hmc, hmcv]; exact h.held
  fits := by rw [hmc, hparams]; exact h.fits
  empty := by rw [hmc, hmcv]; exact h.empty

section Kept
variable {s : State} (hs : Inv s)
include hs

/-- What touches neither the engine nor the parameters and keeps the variables in form keeps the invariant. -/
theorem Inv.of_eng_eq {t : State} (heng : t.eng = s.eng) (hparams : t.params = s.params)
    (hvars : varsSorted t.host.vars = true) : Inv t := by
  obtain ⟨eng, host, params, resetInput⟩ := t
  obtain rfl : eng = s.eng := heng
  obtain rfl : params = s.params := hparams
  exact { hs with context := hs.context.of_eq rfl rfl rfl, vars := hvars }

/-- An error of the engine keeps the invariant (R306). -/
theorem Inv.raiseError {k : ErrorKind} (hk : k.code ∈ engineCodes) : Inv (s.raiseError k) :=
  { hs with context := hs.context.of_eq rfl rfl rfl, status := .finish_error _ hk }

/-- The word in `CMD` plays no part in the invariant. -/
theorem Inv.setCmd (c : Word) : Inv (s.setCmd c) :=
  { hs with context := hs.context.of_eq rfl rfl rfl, status := { hs.status with } }

/-- A write to `SEED` keeps the invariant. -/
theorem Inv.writeSeed (v : BitVec 64) : Inv (s.writeSeed v) :=
  { hs with context := hs.context.of_eq rfl rfl rfl, status := { hs.status with } }

/-- A host write of a value within the capacity keeps the invariant (R63). -/
theorem Inv.writeB {i : BReg} {v : Int} (hfit : s.params.fits v = true) : Inv (s.writeB i v) :=
  { hs with
    capacity := fun j => by
      rw [State.writeB_eng, Engine.reg_writeReg]
      split
      · exact hfit
      · exact hs.capacity j
    invalidZero := fun j hj => by
      rw [State.writeB_eng, Engine.valid_writeReg, Bool.or_eq_false_iff, decide_eq_false_iff_not] at hj
      obtain ⟨hold, hne⟩ := hj
      rw [State.writeB_eng, Engine.reg_writeReg, if_neg hne]
      exact hs.invalidZero j hold
    context := hs.context.of_eq rfl rfl rfl
    status := { hs.status with } }

/-- A write to `CTRL` keeps the invariant: it resets the engine or stores a group size other than 0 (R28). -/
theorem Inv.writeCtrl (w : Word) : Inv (s.writeCtrl w) := by
  cases hset : w.getLsbD 31
  · rw [State.writeCtrl_of_not_srst hset]
    refine { hs with context := hs.context.of_eq rfl rfl rfl, status := { hs.status with }, grpsz := ?_ }
    simp only [grpszStored]
    split
    · decide
    · assumption
  · rw [State.writeCtrl_of_srst hset]
    exact .of_reset rfl hs.wPositive hs.vars

end Kept

/-! ### Commands -/

/-- A register after several writes holds what it held or a value written. -/
theorem Engine.reg_writeRegs_cases (e : Engine) (ws : List (BReg × Int)) (j : BReg) :
    (e.writeRegs ws).reg j = e.reg j ∨ ∃ w ∈ ws, (e.writeRegs ws).reg j = w.2 := by
  induction ws generalizing e with
  | nil => exact .inl rfl
  | cons w ws ih =>
    rw [Engine.writeRegs_cons]
    obtain h | ⟨u, hu, h⟩ := ih (e.writeReg w.1 w.2)
    · rw [h, Engine.reg_writeReg]
      split
      · exact .inr ⟨w, List.mem_cons_self, rfl⟩
      · exact .inl rfl
    · exact .inr ⟨u, List.mem_cons_of_mem _ hu, h⟩

/-- The context that a procedure leaves is one that `MontCtx` constructs of a register's value (R203, R215). -/
theorem procedure_ctx {i : Instr} {s : State} {f : Effect} {c : MontCtx} (h : procedure i s = .ok f)
    (hc : f.ctx = some c) : ∃ rn, montCtx (s.eng.reg rn) = .ok c := by
  cases i with
  | mctx rn =>
    obtain ⟨c', hc', hf⟩ := except_bind_eq_ok.1 h
    obtain rfl := Except.ok.inj hf
    obtain rfl := Option.some.inj hc
    exact ⟨rn, hc'⟩
  | mexpm rd rb re rn =>
    obtain ⟨r, hr, hf⟩ := except_bind_eq_ok.1 h
    obtain ⟨c', hc', rfl⟩ := expMont_ok hr
    obtain rfl := Except.ok.inj hf
    obtain rfl := Option.some.inj hc
    exact ⟨rn, hc'⟩
  | _ =>
    obtain ⟨-, -, hnone⟩ := procedure_implicit h nofun
    rw [hnone nofun] at hc
    cases hc

/-- A completion leaves `MC` consistent: the context before, or one of a modulus in a register (R31). -/
theorem ContextOk.complete {i : Instr} {s : State} {f : Effect} (hs : Inv s) (h : procedure i s = .ok f) :
    ContextOk (s.complete f) := by
  cases hctx : f.ctx with
  | none =>
    exact hs.context.of_eq (by simp [hctx]) (by simp [hctx]) rfl
  | some c =>
    have hmc : (s.complete f).eng.mc = c := by simp [hctx]
    have hmcv : (s.complete f).eng.mcv = true := by simp [hctx]
    obtain ⟨rn, hc⟩ := procedure_ctx h hctx
    refine ⟨fun _ => hmc ▸ montCtx_contextOf hc, ?_, fun h => ?_⟩
    · rw [hmc, (montCtx_sized hc).2]
      exact hs.capacity rn
    · rw [hmcv] at h
      cases h

/-- A completion keeps the invariant: its values fit, and a register it makes valid is one it writes (R241). -/
theorem Inv.complete {i : Instr} {s : State} {f : Effect} (hs : Inv s) (h : procedure i s = .ok f)
    (hfit : f.fits s.params = true) : Inv (s.complete f) where
  wPositive := hs.wPositive
  capacity j := by
    obtain hold | ⟨w, hw, hnew⟩ := s.eng.reg_writeRegs_cases f.writes j
    · exact (congrArg _ hold).trans (hs.capacity j)
    · exact (congrArg _ hnew).trans (List.all_eq_true.1 hfit w hw)
  invalidZero j hj := by
    rw [State.valid_complete h, Bool.or_eq_false_iff, decide_eq_false_iff_not] at hj
    obtain ⟨hold, hdest⟩ := hj
    rw [State.complete_of_not_mem h hdest]
    exact hs.invalidZero j hold
  context := .complete hs h
  status := .finish_success _ _
  grpsz := by simpa using hs.grpsz
  vars := hs.vars

/-- Every command keeps the invariant. -/
theorem Inv.exec {i : Instr} {s t : State} (hs : Inv s) (h : exec i s = .next t) : Inv t := by
  have hcode := errcode_mem_engineCodes h
  obtain ⟨k, rfl⟩ | ⟨-, -, f, hf, hfit, rfl⟩ := exec_cases h
  · exact hs.raiseError hcode
  · exact hs.complete hf hfit

/-- Every word written to `CMD` keeps the invariant. -/
theorem Inv.executeWord {s t : State} {c : Word} (hs : Inv s) (h : executeWord s c = .next t) : Inv t := by
  obtain ⟨x, -, hnext⟩ | ⟨i, -, hnext⟩ := executeWord_cases s c
  · obtain rfl := Host.Outcome.next.inj (hnext.symm.trans h)
    exact (hs.setCmd c).raiseError (by decide)
  · exact (hs.setCmd c).exec (hnext.symm.trans h)

/-- Every port write keeps the invariant. -/
theorem Inv.portWrite {s t : State} {r : RegNum} {v : Int} (hs : Inv s) (h : portWrite s r v = .next t) : Inv t := by
  obtain ⟨i, -, hfit, rfl⟩ | ⟨-, hx⟩ | ⟨-, rfl⟩ | ⟨-, rfl⟩ | rfl := portWrite_next h
  · exact hs.writeB hfit
  · exact hs.executeWord hx
  · exact hs.writeCtrl _
  · exact hs.writeSeed _
  · exact hs

/-! ### Steps -/

/-- Settles O15: a reset makes the invariant hold (`Inv.of_reset`), a port write keeps it (`Inv.portWrite`), and the host's other
operations touch neither engine nor parameters and keep the variables sorted (`Inv.of_eng_eq`, `varsSorted_assignVar`). -/
theorem stepKeepsInvariant : Obligations.StepKeepsInvariant := by
  intro s t hs h
  obtain ⟨-, hstep⟩ | ⟨-, op, -, hstep⟩ | ⟨-, -, hstep⟩ := step_cases s
  · obtain rfl := Host.Outcome.next.inj (hstep.symm.trans h)
    exact .of_reset rfl hs.wPositive hs.vars
  · obtain ⟨r, v, u, -, hu, rfl⟩ | ⟨x, v, u, rfl, rfl | ⟨N, rfl⟩⟩ | ⟨k, rfl⟩ | ⟨o, rfl⟩ := hostStep_next (hstep.symm.trans h)
    · have hu' := hs.portWrite hu
      exact hu'.of_eng_eq rfl rfl hu'.vars
    · exact hs.of_eng_eq rfl rfl (varsSorted_assignVar x v _ hs.vars)
    · obtain ⟨heng, hparams, -, hvars, -, -⟩ := s.draw_keeps N
      exact hs.of_eng_eq heng hparams (varsSorted_assignVar x v _ (by rw [hvars]; exact hs.vars))
    · exact hs.of_eng_eq rfl rfl hs.vars
    · exact hs.of_eng_eq rfl rfl hs.vars
  · obtain rfl := Host.Outcome.next.inj (hstep.symm.trans h)
    exact hs

end Sys2Proof.Machine
end
